-- ==== Sys2Proof/Word.lean ====
section
/-! DEFINITION. The bit widths of the block's values (00_scope.md R8, R12; 30_encoding.md R74). -/

namespace Sys2Proof

/-- One byte of a frame or of a FIFO (R12, R46). -/
abbrev Byte := BitVec 8

/-- A 4-bit field: an address, a frame type or a pulse port index (R8, R64, R68). -/
abbrev Nib := BitVec 4

/-- A 12-bit raw magnitude (R8, R72). -/
abbrev Raw := BitVec 12

end Sys2Proof
end

