-- ==== Sys2Proof/Syntax.lean ====
section
/-! DEFINITION. The commands of the host interface and the frames of the wire, as data: one constructor of Instr per row of
spec/opcode_table.json (30_encoding.md R74 to R80). -/

namespace Sys2Proof

/-- A port position (R16): PLUG is the uplink, SOCKET the downlink. -/
inductive Port where
  | plug
  | socket
deriving DecidableEq, Repr, Inhabited

/-- A quantity selector of the quantizer (R74): 0 is POWER, 1 is DURATION. -/
inductive Quantity where
  | power
  | duration
deriving DecidableEq, Repr, Inhabited

/-- A frame: exactly five bytes, B0 first (R8, R63). -/
structure Frame where
  b0 : Byte
  b1 : Byte
  b2 : Byte
  b3 : Byte
  b4 : Byte
deriving DecidableEq, Repr, Inhabited

/-- A 4-byte body taken as it is: a MIDI payload (R67), or the body of a frame of a reserved type (R65). -/
structure Midi where
  m0 : Byte
  m1 : Byte
  m2 : Byte
  m3 : Byte
deriving DecidableEq, Repr, Inhabited

/-- A pulse record (R99): the source's five fields. Power is in percent and duration in seconds, both exact rationals. -/
structure Pulse where
  port : Nib
  fadeIn : Bool
  fadeOut : Bool
  power : Rat
  duration : Rat
deriving DecidableEq, Repr

/-- The pulse record DECODE_PULSE returns (R97, R99): the source's fields and the two raw fields. -/
structure DecodedPulse where
  pulse : Pulse
  powerRaw : Raw
  durationRaw : Raw
deriving DecidableEq, Repr

/-- The record of typed operands that accompanies an opcode (R74). A command reads the fields its row names and ignores the
others (DESIGN CHOICE, log entry 8; safe: an unread field changes nothing). -/
structure Operands where
  p : Port := .plug
  a : Nib := 0
  t : Nib := 0
  f : Frame := ⟨0, 0, 0, 0, 0⟩
  m : Midi := ⟨0, 0, 0, 0⟩
  u : Pulse := ⟨0, false, false, 0, 0⟩
  q : Quantity := .power
  v : Rat := 0
  r : Raw := 0
deriving DecidableEq, Repr

/-- A command as it stands on the host interface: an opcode byte and its operand record (R73, R74). -/
structure Command where
  op : Byte
  args : Operands := {}
deriving DecidableEq, Repr

/-- The two kinds of word that reach the block from outside: a command of the host interface (rows of format "command"), and a
frame on the line of a port (rows of format "frame"). -/
inductive BusWord where
  | command (c : Command)
  | frame (p : Port) (f : Frame)
deriving DecidableEq, Repr

/-- The rows of spec/opcode_table.json. -/
inductive Instr where
  -- unit 0, the codec (R75)
  | getType (f : Frame)
  | getAddress (f : Frame)
  | encodeHeader (f : Frame) (a t : Nib)
  | decodeMidi (f : Frame)
  | encodeMidi (f : Frame) (m : Midi)
  | decodePulse (f : Frame)
  | encodePulse (f : Frame) (u : Pulse)
  | plEncode (q : Quantity) (v : Rat)
  | plDecode (q : Quantity) (r : Raw)
  -- unit 1, the port (R76)
  | portBegin (p : Port)
  | portReceive (p : Port)
  | portSend (p : Port) (a : Nib) (f : Frame)
  | portPowerDown (p : Port)
  | portIdle (p : Port)
  | portReadStats (p : Port)
  -- unit 2, the link (R77)
  | linkBegin
  | linkLoop
  | linkHandlerDone
  | linkIdle
  | linkSend (p : Port) (a : Nib) (f : Frame)
  | linkReadStats (p : Port)
  -- reserved opcodes (R78)
  | reserved09
  | reserved0A
  | reserved0B
  | reserved0C
  | reserved0D
  | reserved0E
  | reserved0F
  | reserved16
  | reserved17
  | reserved18
  | reserved19
  | reserved1A
  | reserved1B
  | reserved1C
  | reserved1D
  | reserved1E
  | reserved1F
  | reserved26
  | reserved27
  | reserved28
  | reserved29
  | reserved2A
  | reserved2B
  | reserved2C
  | reserved2D
  | reserved2E
  | reserved2F
  | reservedUnits3To15 (op : Byte)
  -- frames on the line of port p, by type nibble (R80)
  | frameMidi (p : Port) (a : Nib) (m : Midi)
  | framePulse (p : Port) (a : Nib) (unused : BitVec 2) (fadeOut fadeIn : Bool) (port : Nib) (power duration : Raw)
  | frameReserved (p : Port) (a t : Nib) (body : Midi)
deriving DecidableEq, Repr

end Sys2Proof
end

