-- ==== Sys2Proof/Config.lean ====
section
/-! DEFINITION. The parameters and the configuration of one block instance (00_scope.md R8 to R11), and the free values of the
clock. A model takes the parameters as an argument (R9): the machine carries them in State.cfg, and no step changes them. -/

namespace Sys2Proof

/-- DURATION_VARIANT (R10): an OPEN parameter without a default. -/
inductive DurationVariant where
  | a
  | b
deriving DecidableEq, Repr, Inhabited

/-- The configuration of one port position (R9, R11). A FIFO holds at least five bytes (R9), so its capacity is given as five
and what it has beyond. -/
structure PortConfig where
  present : Bool
  hasTe : Bool
  rxSpare : Nat
  txSpare : Nat
deriving DecidableEq, Repr, Inhabited

/-- Parameters and configuration of one block instance (R9 to R11). The default values are the table's of R9; the fields without
one are OPEN in the spec. -/
structure Config where
  partialTimeoutUs : Nat := 100
  quietUs : Nat := 1000
  powerdownUs : Nat := 100000
  baud : Nat := 3000000
  chainMax : Nat := 16
  clockWidth : Nat := 32
  counterWidth : Nat := 32
  variant : DurationVariant
  plug : PortConfig
  socket : PortConfig
  /-- Which clock the device has: the devices of a chain have clocks of their own (R154, R158). The model's own; log entry 3. -/
  clockId : Nat := 0
deriving DecidableEq, Repr, Inhabited

/-- The configuration the reset state starts with (R163 step 1: fixing it is the host's duty). It has no value in Lean: OPEN
parameters get none (R10), so a statement about State.reset holds for every configuration. Log entry 1; safe. -/
opaque Config.installed : Config

/-- FREE VALUE. The draws of the microsecond clock of a device (60_exceptions.md R154), by its clockId: the true time right after a
reset, and how far the clock advances before a read. State.draws says which draw is next. Log entry 3; safe. -/
opaque Config.clockDraw : Nat → Nat → Nat

/-- FRAME_LEN, the bytes of a frame (R8). -/
def frameLen : Nat := 5

/-- P_MAX and D_MAX (R10): the largest physical value of a quantity. -/
def Config.quantityMax (c : Config) : Quantity → Nat
  | .power => 100
  | .duration => match c.variant with
    | .a => 10
    | .b => 100

/-- P_EXP and D_EXP (R10): the exponent of a quantity's response curve. -/
def Config.quantityExp (c : Config) : Quantity → Nat
  | .power => 3
  | .duration => match c.variant with
    | .a => 3
    | .b => 8

/-- The configuration of position `p`. -/
def Config.port (c : Config) : Port → PortConfig
  | .plug => c.plug
  | .socket => c.socket

/-- RX_CAP[p] (R9, R34). -/
def PortConfig.rxCap (c : PortConfig) : Nat := c.rxSpare + frameLen

/-- TX_CAP[p] (R9, R34). -/
def PortConfig.txCap (c : PortConfig) : Nat := c.txSpare + frameLen

end Sys2Proof
end

