-- ==== Sys2Proof/WellFormed.lean ====
section
/-! DEFINITION. Which terms of Instr stand for words of spec/opcode_table.json. Operand widths are their types (30_encoding.md
R74), so only two constructors have a check. -/

namespace Sys2Proof

/-- RESERVED_UNITS_3_TO_15 covers the opcodes 0x30 to 0xFF (R78), and FRAME_RESERVED the type nibbles 2 to 15 (R65). -/
def Instr.wf : Instr → Bool
  | .reservedUnits3To15 op => 0x30 ≤ op.toNat
  | .frameReserved _ _ t _ => 2 ≤ t.toNat
  | .getType _ | .getAddress _ | .encodeHeader _ _ _ | .decodeMidi _ | .encodeMidi _ _ | .decodePulse _ | .encodePulse _ _
  | .plEncode _ _ | .plDecode _ _
  | .portBegin _ | .portReceive _ | .portSend _ _ _ | .portPowerDown _ | .portIdle _ | .portReadStats _
  | .linkBegin | .linkLoop | .linkHandlerDone | .linkIdle | .linkSend _ _ _ | .linkReadStats _
  | .reserved09 | .reserved0A | .reserved0B | .reserved0C | .reserved0D | .reserved0E | .reserved0F
  | .reserved16 | .reserved17 | .reserved18 | .reserved19 | .reserved1A | .reserved1B | .reserved1C | .reserved1D
  | .reserved1E | .reserved1F
  | .reserved26 | .reserved27 | .reserved28 | .reserved29 | .reserved2A | .reserved2B | .reserved2C | .reserved2D
  | .reserved2E | .reserved2F
  | .frameMidi _ _ _ | .framePulse _ _ _ _ _ _ _ _ => true

end Sys2Proof
end

