-- ==== Sys2Proof/Decode.lean ====
section
/-! DEFINITION. The decoder of commands (30_encoding.md R73 to R78) and of frames (R64 to R72, R80), the encoder, and the bit
fields of a frame. Every opcode byte has a row, so decoding is total; the reserved codes decode to rows of their own. -/

namespace Sys2Proof

/-! ### Bit fields of a frame -/

/-- The type nibble `B0[3:0]` (R64). -/
def typeNibble (f : Frame) : Nib := f.b0.extractLsb' 0 4

/-- The address nibble `B0[7:4]` (R64). -/
def addressNibble (f : Frame) : Nib := f.b0.extractLsb' 4 4

/-- The header byte `a * 16 + t` (R64, R88). -/
def headerByte (a t : Nib) : Byte := a ++ t

/-- The pulse byte B1 (R68): unused bits 7:6, fade-out 5, fade-in 4, port 3:0. -/
def pulseB1 (unused : BitVec 2) (fadeOut fadeIn : Bool) (port : Nib) : Byte :=
  unused ++ BitVec.ofBool fadeOut ++ BitVec.ofBool fadeIn ++ port

/-- The pulse byte B2: the four high bits of power, then those of duration (R69, R70). -/
def pulseB2 (power duration : Raw) : Byte := power.extractLsb' 8 4 ++ duration.extractLsb' 8 4

/-- `power_raw = B2[7:4]:B3[7:0]` (R69). -/
def powerRaw (f : Frame) : Raw := f.b2.extractLsb' 4 4 ++ f.b3

/-- `duration_raw = B2[3:0]:B4[7:0]` (R70). -/
def durationRaw (f : Frame) : Raw := f.b2.extractLsb' 0 4 ++ f.b4

/-- The port index `B1[3:0]` of a pulse body (R68). -/
def pulsePort (f : Frame) : Nib := f.b1.extractLsb' 0 4

/-- The fade-in flag `B1[4]` of a pulse body (R68). -/
def pulseFadeIn (f : Frame) : Bool := f.b1.getLsbD 4

/-- The fade-out flag `B1[5]` of a pulse body (R68). -/
def pulseFadeOut (f : Frame) : Bool := f.b1.getLsbD 5

/-- The body `B1..B4` (R63, R67). -/
def frameBody (f : Frame) : Midi := ⟨f.b1, f.b2, f.b3, f.b4⟩

/-- A frame from its header byte and a 4-byte body in index order (R52, R67). -/
def frameOf (b0 : Byte) (m : Midi) : Frame := ⟨b0, m.m0, m.m1, m.m2, m.m3⟩

/-- The five bytes of a frame in wire order, B0 first (R52). -/
def frameBytes (f : Frame) : List Byte := [f.b0, f.b1, f.b2, f.b3, f.b4]

/-! ### Opcodes that a fault record names (R75 to R77) -/

def opDecodeMidi : Byte := 0x03
def opDecodePulse : Byte := 0x05
def opPortBegin : Byte := 0x10
def opPortReceive : Byte := 0x11
def opPortSend : Byte := 0x12
def opPortPowerDown : Byte := 0x13
def opPortIdle : Byte := 0x14
def opPortReadStats : Byte := 0x15
def opLinkBegin : Byte := 0x20
def opLinkLoop : Byte := 0x21
def opLinkHandlerDone : Byte := 0x22
def opLinkIdle : Byte := 0x23
def opLinkSend : Byte := 0x24
def opLinkReadStats : Byte := 0x25

/-! ### Decoding -/

/-- The decoder table of the command interface (R75 to R78). -/
def decodeCommand (c : Command) : Instr :=
  match c.op with
  | 0x00#8 => .getType c.args.f
  | 0x01#8 => .getAddress c.args.f
  | 0x02#8 => .encodeHeader c.args.f c.args.a c.args.t
  | 0x03#8 => .decodeMidi c.args.f
  | 0x04#8 => .encodeMidi c.args.f c.args.m
  | 0x05#8 => .decodePulse c.args.f
  | 0x06#8 => .encodePulse c.args.f c.args.u
  | 0x07#8 => .plEncode c.args.q c.args.v
  | 0x08#8 => .plDecode c.args.q c.args.r
  | 0x09#8 => .reserved09
  | 0x0A#8 => .reserved0A
  | 0x0B#8 => .reserved0B
  | 0x0C#8 => .reserved0C
  | 0x0D#8 => .reserved0D
  | 0x0E#8 => .reserved0E
  | 0x0F#8 => .reserved0F
  | 0x10#8 => .portBegin c.args.p
  | 0x11#8 => .portReceive c.args.p
  | 0x12#8 => .portSend c.args.p c.args.a c.args.f
  | 0x13#8 => .portPowerDown c.args.p
  | 0x14#8 => .portIdle c.args.p
  | 0x15#8 => .portReadStats c.args.p
  | 0x16#8 => .reserved16
  | 0x17#8 => .reserved17
  | 0x18#8 => .reserved18
  | 0x19#8 => .reserved19
  | 0x1A#8 => .reserved1A
  | 0x1B#8 => .reserved1B
  | 0x1C#8 => .reserved1C
  | 0x1D#8 => .reserved1D
  | 0x1E#8 => .reserved1E
  | 0x1F#8 => .reserved1F
  | 0x20#8 => .linkBegin
  | 0x21#8 => .linkLoop
  | 0x22#8 => .linkHandlerDone
  | 0x23#8 => .linkIdle
  | 0x24#8 => .linkSend c.args.p c.args.a c.args.f
  | 0x25#8 => .linkReadStats c.args.p
  | 0x26#8 => .reserved26
  | 0x27#8 => .reserved27
  | 0x28#8 => .reserved28
  | 0x29#8 => .reserved29
  | 0x2A#8 => .reserved2A
  | 0x2B#8 => .reserved2B
  | 0x2C#8 => .reserved2C
  | 0x2D#8 => .reserved2D
  | 0x2E#8 => .reserved2E
  | 0x2F#8 => .reserved2F
  | op => .reservedUnits3To15 op

/-- The frame-type dispatch table (R80): the type nibble alone selects the row. -/
def decodeFrame (p : Port) (f : Frame) : Instr :=
  match typeNibble f with
  | 0#4 => .frameMidi p (addressNibble f) (frameBody f)
  | 1#4 => .framePulse p (addressNibble f) (f.b1.extractLsb' 6 2) (pulseFadeOut f) (pulseFadeIn f) (pulsePort f)
      (powerRaw f) (durationRaw f)
  | t => .frameReserved p (addressNibble f) t (frameBody f)

/-- The instruction a word from outside stands for. -/
def decodeWord : BusWord → Instr
  | .command c => decodeCommand c
  | .frame p f => decodeFrame p f

/-- The word given by a table row's bits. A row of format "command" has eight bits, the opcode byte; its operands are zero.
A 40-bit word is a whole frame, B0 its lowest byte, taken to be on the plug's line. No other width is a word of the block.
DESIGN CHOICE, log entry 8. -/
def tableBusWord (nbits w : Nat) : Option BusWord :=
  if nbits = 8 then some (.command { op := BitVec.ofNat 8 w })
  else if nbits = 40 then
    some (.frame .plug ⟨BitVec.ofNat 8 w, BitVec.ofNat 8 (w / 2 ^ 8), BitVec.ofNat 8 (w / 2 ^ 16), BitVec.ofNat 8 (w / 2 ^ 24),
      BitVec.ofNat 8 (w / 2 ^ 32)⟩)
  else none

/-- What the decoder reads from a table row's bits. -/
def decodeTableWord (nbits w : Nat) : Option Instr := (tableBusWord nbits w).map decodeWord

/-! ### Encoding -/

/-- The frame of a pulse row (R68 to R70). -/
def pulseFrame (b0 : Byte) (unused : BitVec 2) (fadeOut fadeIn : Bool) (port : Nib) (power duration : Raw) : Frame :=
  ⟨b0, pulseB1 unused fadeOut fadeIn port, pulseB2 power duration, power.extractLsb' 0 8, duration.extractLsb' 0 8⟩

/-- The word of an instruction, from the tables of R75 to R78 and R64 to R70. -/
def encode : Instr → BusWord
  | .getType f => .command { op := 0x00, args := { f := f } }
  | .getAddress f => .command { op := 0x01, args := { f := f } }
  | .encodeHeader f a t => .command { op := 0x02, args := { f := f, a := a, t := t } }
  | .decodeMidi f => .command { op := 0x03, args := { f := f } }
  | .encodeMidi f m => .command { op := 0x04, args := { f := f, m := m } }
  | .decodePulse f => .command { op := 0x05, args := { f := f } }
  | .encodePulse f u => .command { op := 0x06, args := { f := f, u := u } }
  | .plEncode q v => .command { op := 0x07, args := { q := q, v := v } }
  | .plDecode q r => .command { op := 0x08, args := { q := q, r := r } }
  | .portBegin p => .command { op := 0x10, args := { p := p } }
  | .portReceive p => .command { op := 0x11, args := { p := p } }
  | .portSend p a f => .command { op := 0x12, args := { p := p, a := a, f := f } }
  | .portPowerDown p => .command { op := 0x13, args := { p := p } }
  | .portIdle p => .command { op := 0x14, args := { p := p } }
  | .portReadStats p => .command { op := 0x15, args := { p := p } }
  | .linkBegin => .command { op := 0x20 }
  | .linkLoop => .command { op := 0x21 }
  | .linkHandlerDone => .command { op := 0x22 }
  | .linkIdle => .command { op := 0x23 }
  | .linkSend p a f => .command { op := 0x24, args := { p := p, a := a, f := f } }
  | .linkReadStats p => .command { op := 0x25, args := { p := p } }
  | .reserved09 => .command { op := 0x09 }
  | .reserved0A => .command { op := 0x0A }
  | .reserved0B => .command { op := 0x0B }
  | .reserved0C => .command { op := 0x0C }
  | .reserved0D => .command { op := 0x0D }
  | .reserved0E => .command { op := 0x0E }
  | .reserved0F => .command { op := 0x0F }
  | .reserved16 => .command { op := 0x16 }
  | .reserved17 => .command { op := 0x17 }
  | .reserved18 => .command { op := 0x18 }
  | .reserved19 => .command { op := 0x19 }
  | .reserved1A => .command { op := 0x1A }
  | .reserved1B => .command { op := 0x1B }
  | .reserved1C => .command { op := 0x1C }
  | .reserved1D => .command { op := 0x1D }
  | .reserved1E => .command { op := 0x1E }
  | .reserved1F => .command { op := 0x1F }
  | .reserved26 => .command { op := 0x26 }
  | .reserved27 => .command { op := 0x27 }
  | .reserved28 => .command { op := 0x28 }
  | .reserved29 => .command { op := 0x29 }
  | .reserved2A => .command { op := 0x2A }
  | .reserved2B => .command { op := 0x2B }
  | .reserved2C => .command { op := 0x2C }
  | .reserved2D => .command { op := 0x2D }
  | .reserved2E => .command { op := 0x2E }
  | .reserved2F => .command { op := 0x2F }
  | .reservedUnits3To15 op => .command { op := op }
  | .frameMidi p a m => .frame p (frameOf (headerByte a 0) m)
  | .framePulse p a unused fadeOut fadeIn port power duration =>
      .frame p (pulseFrame (headerByte a 1) unused fadeOut fadeIn port power duration)
  | .frameReserved p a t body => .frame p (frameOf (headerByte a t) body)

end Sys2Proof
end

