-- ==== Sys2Proof/Machine/State.lean ====
section
/-! DEFINITION. The state of one block instance with the interface state its environment owns (10_state.md), as plain data, and
the state right after reset (R40). -/

namespace Sys2Proof.Machine

/-- PHASE (S9, R30), two bits: where the current poll cycle stands. -/
inductive Phase where
  /-- 0: no cycle is in progress. -/
  | idle
  /-- 1: a plug frame has been dispatched; the cycle resumes at S2. -/
  | waitPlug
  /-- 2: a socket frame has been dispatched; the cycle resumes at S3. -/
  | waitSocket
  /-- The value 3, which is never written (R30). -/
  | three
deriving DecidableEq, Repr

/-- Who issues a command (R79): the host, or the link sequencer (or a model that drives a port directly, R105). -/
inductive Issuer where
  | host
  | sequencer
deriving DecidableEq, Repr

/-- A record `(code, info)` of FAULTS (R32, R145): one constructor per code, with the info R145 has it record. -/
inductive FaultRecord where
  /-- 1 F_WRONG_TYPE_DECODE: the opcode and `f.B0`. -/
  | wrongTypeDecode (op b0 : Byte)
  /-- 2 F_RX_OVERRUN: the position and the byte. -/
  | rxOverrun (p : Port) (b : Byte)
  /-- 3 F_NOT_BEGUN: the opcode, and the position if the command names one. -/
  | notBegun (op : Byte) (p : Option Port)
  /-- 4 F_BEGIN_TWICE: the opcode. -/
  | beginTwice (op : Byte)
  /-- 5 F_ABSENT_PORT: the opcode and the position. -/
  | absentPort (op : Byte) (p : Port)
  /-- 6 F_REENTRANT: the opcode and PHASE. -/
  | reentrant (op : Byte) (phase : Phase)
  /-- 7 F_NO_CYCLE: the opcode. -/
  | noCycle (op : Byte)
  /-- 8 F_ILLEGAL_COMMAND: the opcode. -/
  | illegalCommand (op : Byte)
  /-- 9 F_ILLEGAL_STATE: PHASE. -/
  | illegalState (phase : Phase)
deriving DecidableEq, Repr

/-- An output of the block other than a byte put into a TX FIFO (R33). -/
inductive Event where
  | peripheralBegin (p : Port) (baud : Nat)
  | teSet (p : Port) (asserted : Bool)
  | dispatch (src : Port) (f : Frame)
deriving DecidableEq, Repr

/-- The value a command returns (R15, R36, R75 to R77). -/
inductive Result where
  /-- No value. -/
  | unit
  | nibble (n : Nib)
  | frame (f : Frame)
  | midi (m : Midi)
  | pulse (u : DecodedPulse)
  | raw (r : Raw)
  | value (x : Rat)
  | received (f : Option Frame)
  | flag (b : Bool)
  | stats (inCount outCount : Nat)
deriving DecidableEq, Repr

/-- One move of an agent other than the sequencer (R59, R83): a word from outside (a host command, or a frame whose five bytes
arrive in a row on the line), `LINE_RX(p, b)` or `LINE_TX(p)` (R50), `@T=n`, or a reset, which may occur at any time (R161). -/
inductive Move where
  | word (issuer : Issuer) (w : BusWord)
  | lineRx (p : Port) (b : Byte)
  | lineTx (p : Port)
  | setClock (n : Nat)
  | reset
deriving DecidableEq, Repr

/-- A line of a program (R83): a move, with the moves that fall into the gaps between the port operations of a poll cycle it
runs (R59; empty for a plain program). -/
structure Line where
  move : Move
  gaps : List (List Move) := []
deriving DecidableEq, Repr

/-- The registers of one port position (R21, S1 to S7) and the FIFOs of its peripheral (R34), oldest byte first. The stamps are
below `2^CLOCK_WIDTH` and the counters below `2^COUNTER_WIDTH` (R44): numbers, since both widths are parameters (log entry 10).
An absent position has no registers (R20): its record stays as reset leaves it and nothing reads it. -/
structure PortRegs where
  /-- S1 PORT_BEGUN. -/
  begun : Bool := false
  /-- S2 ACTIVE. -/
  active : Bool := false
  /-- S3 LAST_ACT. -/
  lastAct : Nat := 0
  /-- S4 TO_STAMP. -/
  toStamp : Nat := 0
  /-- S5 IN_COUNT. -/
  inCount : Nat := 0
  /-- S6 OUT_COUNT. -/
  outCount : Nat := 0
  /-- S7 TE: true is asserted. -/
  te : Bool := false
  rx : List Byte := []
  tx : List Byte := []
deriving DecidableEq, Repr

/-- The state of one block instance (R18, R29, R32 to R35). The fields `held`, `draws`, `result`, `issuer`, `program` and `gaps`
are the model's own (log entries 2 to 6). -/
structure State where
  /-- The fixed arguments of every step (R9 to R11, R18); no step changes them (log entry 1). -/
  cfg : Config
  plug : PortRegs := {}
  socket : PortRegs := {}
  /-- S8 LINK_BEGUN. -/
  linkBegun : Bool := false
  /-- S9 PHASE. -/
  phase : Phase := .idle
  /-- S10 DISP_SRC. -/
  dispSrc : Port := .plug
  /-- S11 DISP_FRAME. -/
  dispFrame : Frame := ⟨0, 0, 0, 0, 0⟩
  /-- FAULTS (R32). -/
  faults : List FaultRecord := []
  /-- EVENTS (R33). -/
  events : List Event := []
  /-- The true time T of the clock (R35, R154). -/
  time : Nat
  /-- An `@T=n` line is in force: the clock stands at T until the next one (R83). -/
  held : Bool := false
  /-- The index of the next clock draw. -/
  draws : Nat
  /-- What the last completed command returned. -/
  result : Result := .unit
  /-- Who issues the running command. -/
  issuer : Issuer := .host
  /-- The lines still to come (R83). -/
  program : List Line := []
  /-- The moves in the gaps of the running poll cycle (R59). -/
  gaps : List (List Move) := []
deriving DecidableEq, Repr

/-- The reasons a step stops the machine. None of them is a record of FAULTS: raising one of those is a next state. -/
inductive Fault where
  /-- FAULTS is non-empty, so the block, its line agents and its host have no move (R147). Raised by every command and every
  line step. Safe: the spec gives no step. Log entry 11. -/
  | stopped
  /-- A line step names an absent position; the line agent takes no step there (R50). Raised by line steps and frame arrivals.
  Safe. Log entry 12. -/
  | lineAbsent
  /-- A byte arrives at a port that has not begun, which the launch premise rules out (R50, R163). Raised by LINE_RX and frame
  arrivals. Safe. Log entry 12. -/
  | lineNotBegun
  /-- LINE_TX on an empty FIFO, where it is not enabled (R50). Raised by LINE_TX. Safe. Log entry 12. -/
  | lineTxEmpty
  /-- `@T=n` with n below the present time (R83 wants n at least the previous value). Raised by the clock line. Safe.
  Log entry 12. -/
  | clockBackward
deriving DecidableEq, Repr

/-- The reasons a step has no meaning. -/
inductive Refusal where
  /-- An instruction without a meaning yet. Raised by exec's rejected arms only (there is none). Safe. -/
  | notModelled (mnemonic : String)
deriving DecidableEq, Repr

/-- Reset (R40, R161): every register 0, PHASE IDLE, FIFOs, FAULTS and EVENTS empty; the clock is a draw. -/
def State.reset : State := { cfg := Config.installed, time := Config.clockDraw Config.installed.clockId 0, draws := 1 }

/-- The outcome of a command, of a line step, or of a step of the machine. -/
abbrev Step := Host.Outcome State Fault Refusal

end Sys2Proof.Machine
end

