-- ==== Sys2Proof/Machine/Ops.lean ====
section
/-! DEFINITION. The named operations over the state: ports and FIFOs (20_memory.md R46 to R51), the clock (R14, R154), events
(R33), raising a fault (R146), reset (R161), and how operations follow one another. -/

namespace Sys2Proof.Machine

/-! ### Registers of a position -/

/-- The registers of position `p` (R43: two independent copies, selected by p). -/
def State.port (s : State) : Port → PortRegs
  | .plug => s.plug
  | .socket => s.socket

/-- Write the registers of position `p`. -/
def State.setPort (s : State) (p : Port) (r : PortRegs) : State :=
  match p with
  | .plug => { s with plug := r }
  | .socket => { s with socket := r }

/-! ### Events and faults -/

/-- `emit E` (R14, R33). -/
def State.emit (s : State) (e : Event) : State := { s with events := s.events ++ [e] }

/-- TAKING A FAULT (R146): append the record to FAULTS. The operation ends with it; there is no vector, no saved state and no
return (R149): the way out is State.restart. -/
def State.raise (s : State) (r : FaultRecord) : State := { s with faults := s.faults ++ [r] }

/-- The code of a fault record (R145). -/
def faultCode : FaultRecord → Nat
  | .wrongTypeDecode _ _ => 1
  | .rxOverrun _ _ => 2
  | .notBegun _ _ => 3
  | .beginTwice _ => 4
  | .absentPort _ _ => 5
  | .reentrant _ _ => 6
  | .noCycle _ => 7
  | .illegalCommand _ => 8
  | .illegalState _ => 9

/-- The two bits of PHASE (R30). -/
def phaseBits : Phase → BitVec 2
  | .idle => 0
  | .waitPlug => 1
  | .waitSocket => 2
  | .three => 3

/-- RESET, the only way out of a faulted state (R149, R161): every state element takes its reset value (R40), the clock a new
draw. The configuration is fixed for the instance's lifetime (R11), and the lines still to come are the environment's. -/
def State.restart (s : State) : State :=
  { State.reset with cfg := s.cfg, time := Config.clockDraw s.cfg.clockId s.draws, draws := s.draws + 1, program := s.program }

/-! ### The clock -/

/-- `elapsed(t0, t1) = (t1 - t0) mod 2^CLOCK_WIDTH` (R14), for clock words of `w` bits. -/
def elapsed (w t0 t1 : Nat) : Nat := (t1 + (2 ^ w - t0 % 2 ^ w)) % 2 ^ w

/-- `Now()` (R14, R154): the clock word, and the state after the read. Unless an `@T` line holds the clock (R83), time advances
by a free amount before each read. -/
def State.now (s : State) : Nat × State :=
  match s.held with
  | true => (s.time % 2 ^ s.cfg.clockWidth, s)
  | false =>
    ((s.time + Config.clockDraw s.cfg.clockId s.draws) % 2 ^ s.cfg.clockWidth,
      { s with time := s.time + Config.clockDraw s.cfg.clockId s.draws, draws := s.draws + 1 })

/-- An increment of a packet counter, modulo `2^COUNTER_WIDTH` (R25). -/
def State.countUp (s : State) (n : Nat) : Nat := (n + 1) % 2 ^ s.cfg.counterWidth

/-! ### FIFOs -/

/-- `RX.pop(FRAME_LEN)` (R46, R52): the five oldest bytes as a frame, and the rest; `none` if there are fewer than five. -/
def popFrame : List Byte → Option (Frame × List Byte)
  | b0 :: b1 :: b2 :: b3 :: b4 :: rest => some (⟨b0, b1, b2, b3, b4⟩, rest)
  | _ => none

/-- `TX[p].space` (R48). -/
def State.txSpace (s : State) (p : Port) : Nat := (s.cfg.port p).txCap - (s.port p).tx.length

/-! ### Outcomes -/

/-- R147: a block whose FAULTS is not empty takes no step. -/
def whenRunning (s : State) (k : Step) : Step :=
  match s.faults with
  | [] => k
  | _ :: _ => .fault .stopped

/-- A command that only returns a value: it completes with that value and writes nothing else. -/
def answer (s : State) (r : Result) : Step := whenRunning s (.next { s with result := r })

/-- A command that raises a fault (R146). -/
def raising (s : State) (r : FaultRecord) : Step := whenRunning s (.next (s.raise r))

/-- Go on with `k` unless the machine stopped, or a fault has been recorded on the way (R146: it ends the operation). -/
def andThen (o : Step) (k : State → Step) : Step :=
  match o with
  | .next s => match s.faults with
    | [] => k s
    | _ :: _ => .next s
  | .fault f => .fault f
  | .refused r => .refused r

/-- Go on inside a poll cycle with `k`. A reset that fell into the gap before ended the cycle (R161): a running cycle's link has
begun (R123, R39 (4)), and only a reset clears LINK_BEGUN. -/
def inCycle (o : Step) (k : State → Step) : Step := andThen o fun s => if s.linkBegun then k s else .next s

/-- What a port operation leaves (R122: every one has a successor state): the state, and the value returned, or `none` if it
raised a fault and ended. -/
structure Ran (α : Type) where
  state : State
  val : Option α

/-- The operation returned `a`. -/
def Ran.ok {α : Type} (a : α) (s : State) : Ran α := ⟨s, some a⟩

/-- The operation raised a fault. -/
def Ran.raised {α : Type} (s : State) (r : FaultRecord) : Ran α := ⟨s.raise r, none⟩

/-- A port operation followed by another. -/
def Ran.bind {α β : Type} (x : Ran α) (k : α → State → Ran β) : Ran β :=
  match x.val with
  | some a => k a x.state
  | none => ⟨x.state, none⟩

/-- A port operation followed by the rest of a poll cycle. -/
def Ran.andThen {α : Type} (x : Ran α) (k : α → State → Step) : Step :=
  match x.val with
  | some a => k a x.state
  | none => .next x.state

/-- A port operation as a whole command: the value it returns is the command's result. -/
def Ran.finish {α : Type} (x : Ran α) (f : α → Result) : Step :=
  .next (match x.val with
    | some a => { x.state with result := f a }
    | none => x.state)

/-! ### Line agents and the clock's line -/

/-- `LINE_RX(p, b)` (R50, R51): append the byte, or raise F_RX_OVERRUN when RX[p] is full. -/
def lineRx (p : Port) (b : Byte) (s : State) : Step :=
  whenRunning s
    (if (s.cfg.port p).present then
      if (s.port p).begun then
        if (s.cfg.port p).rxCap ≤ (s.port p).rx.length then .next (s.raise (.rxOverrun p b))
        else .next (s.setPort p { s.port p with rx := (s.port p).rx ++ [b] })
      else .fault .lineNotBegun
    else .fault .lineAbsent)

/-- `LINE_TX(p)` (R50): the oldest byte of TX[p] leaves. -/
def lineTx (p : Port) (s : State) : Step :=
  whenRunning s
    (if (s.cfg.port p).present then
      match (s.port p).tx with
      | [] => .fault .lineTxEmpty
      | _ :: rest => .next (s.setPort p { s.port p with tx := rest })
    else .fault .lineAbsent)

/-- `@T=n` (R83): the clock's true time becomes n, at least the previous value, and stands there until the next such move. -/
def setClock (n : Nat) (s : State) : Step :=
  if s.time ≤ n then .next { s with time := n, held := true } else .fault .clockBackward

/-- One `LINE_RX` step per byte, in order (R83); an overrun ends it (R147). -/
def lineRxAll (p : Port) : List Byte → State → Step
  | [], s => .next s
  | b :: bs, s => andThen (lineRx p b s) (lineRxAll p bs)

end Sys2Proof.Machine
end

