-- ==== Sys2Proof/Machine/Quantizer.lean ====
section
/-! DEFINITION. The power-law quantizer (40_codec.md R91 to R93), over exact rationals. -/

namespace Sys2Proof.Machine

/-- `clamp(v, lo, hi) = min(max(v, lo), hi)` (R13). -/
def clampRat (v lo hi : Rat) : Rat := min (max v lo) hi

/-- The input of the quantizer, clamped to `[0, MAX]` (R92). -/
def clampQuantity (c : Config) (q : Quantity) (v : Rat) : Rat := clampRat v 0 (c.quantityMax q)

/-- R93's test for `2r - 1 <= 2y`: `(2r - 1)^EXP * MAX * d <= 8190^EXP * n`, for the clamped input `n/d`. -/
abbrev reaches (c : Config) (q : Quantity) (x : Rat) (r : Nat) : Prop :=
  (2 * r - 1) ^ c.quantityExp q * c.quantityMax q * x.den ≤ 8190 ^ c.quantityExp q * x.num.toNat

/-- PL_ENCODE (R92) in the exact integer form of R93: the largest r in 0..4095 with `r = 0` or R93's inequality. -/
def quantize (c : Config) (q : Quantity) (v : Rat) : Raw :=
  BitVec.ofNat 12 (Nat.findGreatest (reaches c q (clampQuantity c q v)) 4095)

/-- PL_DECODE (R91): `MAX * r^EXP / 4095^EXP`, exactly. -/
def dequantize (c : Config) (q : Quantity) (r : Raw) : Rat :=
  (c.quantityMax q : Rat) * (r.toNat : Rat) ^ c.quantityExp q / (4095 : Rat) ^ c.quantityExp q

end Sys2Proof.Machine
end

