-- ==== Sys2Proof/Machine/Operands.lean ====
section
/-! DEFINITION. What the commands compute from their operands: frames from frames (40_codec.md R86 to R98), the frame a send
puts on the wire (41_port.md R117), and the address rewriting of the router (42_link.md R127, R130). -/

namespace Sys2Proof.Machine

/-- ENCODE_HEADER's frame (R88): the header byte replaced, the body unchanged. -/
def withHeader (f : Frame) (a t : Nib) : Frame := { f with b0 := headerByte a t }

/-- ENCODE_MIDI's frame (R90): type MIDI, address nibble kept, body the payload. -/
def midiFrame (f : Frame) (m : Midi) : Frame := frameOf (headerByte (addressNibble f) 0) m

/-- ENCODE_PULSE's frame (R98): type Pulse, address nibble kept, both magnitudes clamped and quantized, `B1[7:6] = 0`. -/
def encodePulseFrame (c : Config) (f : Frame) (u : Pulse) : Frame :=
  pulseFrame (headerByte (addressNibble f) 1) 0 u.fadeOut u.fadeIn u.port
    (quantize c .power u.power) (quantize c .duration u.duration)

/-- DECODE_PULSE's record (R97). -/
def decodePulseFrame (c : Config) (f : Frame) : DecodedPulse where
  pulse :=
    { port := pulsePort f
      fadeIn := pulseFadeIn f
      fadeOut := pulseFadeOut f
      power := dequantize c .power (powerRaw f)
      duration := dequantize c .duration (durationRaw f) }
  powerRaw := powerRaw f
  durationRaw := durationRaw f

/-- The frame a send with address `a` puts on the wire (R117): its own address nibble is never sent. -/
def sentFrame (a : Nib) (f : Frame) : Frame := withHeader f a (typeNibble f)

/-- Downstream (R127, R128): a plug frame with address `a > 0` goes on with `a - 1`; address 0 is for this device. -/
def downAddress (a : Nib) : Option Nib := if a = 0 then none else some (a - 1)

/-- Upstream (R130): a socket frame goes on with `a + 1` while `a` is below MAX_ADDR = 15. -/
def upAddress (a : Nib) : Option Nib := if a = 15 then none else some (a + 1)

/-- How many relays forward a frame that a sender injected with address `a`, at most `fuel` of them (R141). -/
def relays (next : Nib → Option Nib) : Nat → Nib → Nat
  | 0, _ => 0
  | fuel + 1, a => match next a with
    | none => 0
    | some a' => 1 + relays next fuel a'

end Sys2Proof.Machine
end

