-- ==== Sys2Proof/Machine/Codec.lean ====
section
/-! DEFINITION. The codec commands, unit 0 (40_codec.md). They need no begin and no present port (R85), write no state but the
result they return, and raise F_WRONG_TYPE_DECODE on a decode of the wrong type. -/

namespace Sys2Proof.Machine

/-- GET_TYPE (R86). -/
def execGetType (f : Frame) (s : State) : Step := answer s (.nibble (typeNibble f))

/-- GET_ADDRESS (R87). -/
def execGetAddress (f : Frame) (s : State) : Step := answer s (.nibble (addressNibble f))

/-- ENCODE_HEADER (R88). -/
def execEncodeHeader (f : Frame) (a t : Nib) (s : State) : Step := answer s (.frame (withHeader f a t))

/-- DECODE_MIDI (R89). -/
def execDecodeMidi (f : Frame) (s : State) : Step :=
  if typeNibble f = 0 then answer s (.midi (frameBody f)) else raising s (.wrongTypeDecode opDecodeMidi f.b0)

/-- ENCODE_MIDI (R90). -/
def execEncodeMidi (f : Frame) (m : Midi) (s : State) : Step := answer s (.frame (midiFrame f m))

/-- DECODE_PULSE (R97). -/
def execDecodePulse (f : Frame) (s : State) : Step :=
  if typeNibble f = 1 then answer s (.pulse (decodePulseFrame s.cfg f)) else raising s (.wrongTypeDecode opDecodePulse f.b0)

/-- ENCODE_PULSE (R98). -/
def execEncodePulse (f : Frame) (u : Pulse) (s : State) : Step := answer s (.frame (encodePulseFrame s.cfg f u))

/-- PL_ENCODE (R92). -/
def execPlEncode (q : Quantity) (v : Rat) (s : State) : Step := answer s (.raw (quantize s.cfg q v))

/-- PL_DECODE (R91). -/
def execPlDecode (q : Quantity) (r : Raw) (s : State) : Step := answer s (.value (dequantize s.cfg q r))

end Sys2Proof.Machine
end

