-- ==== Sys2Proof/Machine/Flags.lean ====
section
/-! DEFINITION. The block has no condition codes; its only status flag is ACTIVE[p] (10_state.md R36), with the transmit-enable
output that mirrors it (R22, R27). -/

namespace Sys2Proof.Machine

/-- Write ACTIVE[p]. When the port has a TE pin, the pin takes the same level and `TeSet` is emitted; a port without one has
no pin and emits nothing (R27). -/
def State.setActive (s : State) (p : Port) (b : Bool) : State :=
  if (s.cfg.port p).hasTe then
    (s.setPort p { s.port p with active := b, te := b }).emit (.teSet p b)
  else s.setPort p { s.port p with active := b }

/-- The rising edge of PORT_SEND (R115): only a passive port is activated. -/
def State.assertTe (s : State) (p : Port) : State :=
  if (s.port p).active then s else s.setActive p true

end Sys2Proof.Machine
end

