-- ==== Sys2Proof/Machine/PortUnit.lean ====
section
/-! DEFINITION. The port operations, unit 1 (41_port.md). Each is one atomic step (20_memory.md R58) with a successor state for
every input (R122). The first part gives the operations as the link sequencer issues them, the second the commands. -/

namespace Sys2Proof.Machine

/-! ### The operations -/

/-- The checks before a port operation (R105), in R105's order: the position is absent, then the port has not begun. An absent
position has no PORT_BEGUN register, so R148's order never meets both (DEDUCED, log entry 9; safe). -/
def portOp {α : Type} (op : Byte) (p : Port) (s : State) (k : Ran α) : Ran α :=
  if (s.cfg.port p).present then
    if (s.port p).begun then k else .raised s (.notBegun op (some p))
  else .raised s (.absentPort op p)

/-- PORT_BEGIN (R106). -/
def portBegin (p : Port) (s : State) : Ran Unit :=
  if (s.cfg.port p).present then
    if (s.port p).begun then .raised s (.beginTwice opPortBegin)
    else
      let s1 := (s.emit (.peripheralBegin p s.cfg.baud)).setActive p false
      .ok () (s1.setPort p { s1.port p with begun := true })
  else .raised s (.absentPort opPortBegin p)

/-- PORT_RECEIVE once the checks have passed (R107): a full frame (R112), nothing pending (R108), or 1 to 4 bytes pending, which
arm the timer (R109), are dropped (R110) or wait (R111). -/
def receiveStep (p : Port) (s : State) : Ran (Option Frame) :=
  match popFrame (s.port p).rx with
  | some (f, rest) =>
    .ok (some f) (s.now.2.setPort p
      { s.port p with
        rx := rest
        toStamp := 0
        inCount := s.countUp (s.port p).inCount
        lastAct := s.now.1 })
  | none =>
    if (s.port p).rx = [] then .ok none s
    else if (s.port p).toStamp = 0 then .ok none (s.now.2.setPort p { s.port p with toStamp := s.now.1 })
    else if s.cfg.partialTimeoutUs < elapsed s.cfg.clockWidth (s.port p).toStamp s.now.1 then
      .ok none (s.now.2.setPort p { s.port p with rx := [], toStamp := 0 })
    else .ok none s.now.2

/-- PORT_RECEIVE (R107 to R113). -/
def portReceive (p : Port) (s : State) : Ran (Option Frame) := portOp opPortReceive p s (receiveStep p s)

/-- The start of every PORT_SEND (R114, R115): TE is asserted and the activity stamp refreshed, before the space test. -/
def sendActivity (p : Port) (s : State) : State :=
  (s.assertTe p).now.2.setPort p { (s.assertTe p).port p with lastAct := (s.assertTe p).now.1 }

/-- The end of PORT_SEND: no room, so nothing is written (R116), or the whole frame is pushed and counted (R117). -/
def sendWrite (p : Port) (a : Nib) (f : Frame) (s : State) : Ran Bool :=
  if s.txSpace p < frameLen then .ok false s
  else .ok true (s.setPort p
    { s.port p with
      tx := (s.port p).tx ++ frameBytes (sentFrame a f)
      outCount := s.countUp (s.port p).outCount })

/-- PORT_SEND (R114 to R117). -/
def portSend (p : Port) (a : Nib) (f : Frame) (s : State) : Ran Bool :=
  portOp opPortSend p s (sendWrite p a f (sendActivity p s))

/-- PORT_POWER_DOWN once the checks have passed (R118). A passive port reads no clock. -/
def powerDownStep (p : Port) (s : State) : Ran Unit :=
  if (s.port p).active then
    if s.cfg.powerdownUs ≤ elapsed s.cfg.clockWidth (s.port p).lastAct s.now.1 then .ok () (s.now.2.setActive p false)
    else .ok () s.now.2
  else .ok () s

/-- PORT_POWER_DOWN (R118). -/
def portPowerDown (p : Port) (s : State) : Ran Unit := portOp opPortPowerDown p s (powerDownStep p s)

/-- The idle test of a port at clock word `t` (R119). -/
def idleAt (s : State) (p : Port) (t : Nat) : Bool :=
  (s.port p).rx.isEmpty && (s.port p).toStamp == 0 && decide (s.cfg.quietUs ≤ elapsed s.cfg.clockWidth (s.port p).lastAct t)

/-- PORT_IDLE (R119). It writes no register; it reads the clock. -/
def portIdle (p : Port) (s : State) : Ran Bool := portOp opPortIdle p s (.ok (idleAt s p s.now.1) s.now.2)

/-- PORT_READ_STATS (R120). -/
def portReadStats (p : Port) (s : State) : Ran (Nat × Nat) :=
  portOp opPortReadStats p s (.ok ((s.port p).inCount, (s.port p).outCount) s)

/-! ### The commands

Only the link sequencer (or a model that drives the port directly, R105) may issue them; from the host each is
F_ILLEGAL_COMMAND with no other effect (30_encoding.md R79). -/

/-- A unit 1 command: refused to the host (R79, the first check of R148). -/
def portCommand (op : Byte) (s : State) (k : Step) : Step :=
  match s.issuer with
  | .host => raising s (.illegalCommand op)
  | .sequencer => whenRunning s k

/-- PORT_BEGIN (R106). -/
def execPortBegin (p : Port) (s : State) : Step :=
  portCommand opPortBegin s ((portBegin p s).finish fun _ => .unit)

/-- PORT_RECEIVE (R107). -/
def execPortReceive (p : Port) (s : State) : Step :=
  portCommand opPortReceive s ((portReceive p s).finish .received)

/-- PORT_SEND (R114). -/
def execPortSend (p : Port) (a : Nib) (f : Frame) (s : State) : Step :=
  portCommand opPortSend s ((portSend p a f s).finish .flag)

/-- PORT_POWER_DOWN (R118). -/
def execPortPowerDown (p : Port) (s : State) : Step :=
  portCommand opPortPowerDown s ((portPowerDown p s).finish fun _ => .unit)

/-- PORT_IDLE (R119). -/
def execPortIdle (p : Port) (s : State) : Step :=
  portCommand opPortIdle s ((portIdle p s).finish .flag)

/-- PORT_READ_STATS (R120). -/
def execPortReadStats (p : Port) (s : State) : Step :=
  portCommand opPortReadStats s ((portReadStats p s).finish fun c => .stats c.1 c.2)

end Sys2Proof.Machine
end

