-- ==== Sys2Proof/Machine/LinkUnit.lean ====
section
/-! DEFINITION. The link operations, unit 2, but for the poll cycle (42_link.md R123, R124, R135 to R137). -/

namespace Sys2Proof.Machine

/-! ### Checks (R123, R148) -/

/-- LINK_LOOP or LINK_BEGIN while a cycle waits in a handler window: F_REENTRANT (R123 (1), R134, R148 (2)). -/
def notReentrant (op : Byte) (s : State) (k : Step) : Step :=
  match s.phase with
  | .idle => k
  | .waitPlug | .waitSocket | .three => .next (s.raise (.reentrant op s.phase))

/-- A link operation other than LINK_BEGIN before LINK_BEGIN: F_NOT_BEGUN (R123 (3), R148 (5)). -/
def whenBegun (op : Byte) (p : Option Port) (s : State) (k : Step) : Step :=
  if s.linkBegun then k else .next (s.raise (.notBegun op p))

/-- LINK_SEND or LINK_READ_STATS naming an absent position: F_ABSENT_PORT (R123 (4), R148 (7)). -/
def whenPresent (op : Byte) (p : Port) (s : State) (k : Step) : Step :=
  if (s.cfg.port p).present then k else .next (s.raise (.absentPort op p))

/-! ### Operations -/

/-- A port operation guarded by the position's presence, as the link issues it: nothing is done at an absent position (R150). -/
def ifPresent (p : Port) (s : State) (x : Ran Unit) : Ran Unit :=
  if (s.cfg.port p).present then x else .ok () s

/-- The port operations of LINK_BEGIN and its last write (R124): plug before socket. -/
def linkBeginOps (s : State) : Ran Unit :=
  (ifPresent .plug s (portBegin .plug s)).bind fun _ s1 =>
    (ifPresent .socket s1 (portBegin .socket s1)).bind fun _ s2 => .ok () { s2 with linkBegun := true }

/-- LINK_BEGIN (R124). -/
def execLinkBegin (s : State) : Step :=
  whenRunning s (notReentrant opLinkBegin s
    (if s.linkBegun then .next (s.raise (.beginTwice opLinkBegin)) else (linkBeginOps s).finish fun _ => .unit))

/-- The idle answer of one position: an absent one does not count (R135). -/
def idleOrAbsent (p : Port) (s : State) : Ran Bool :=
  if (s.cfg.port p).present then portIdle p s else .ok true s

/-- The port operations of LINK_IDLE (R135): the conjunction over the present ports, each reading the clock itself. -/
def linkIdleOps (s : State) : Ran Bool :=
  (idleOrAbsent .plug s).bind fun b1 s1 => (idleOrAbsent .socket s1).bind fun b2 s2 => .ok (b1 && b2) s2

/-- LINK_IDLE (R135). -/
def execLinkIdle (s : State) : Step :=
  whenRunning s (whenBegun opLinkIdle none s ((linkIdleOps s).finish .flag))

/-- LINK_SEND (R136). -/
def execLinkSend (p : Port) (a : Nib) (f : Frame) (s : State) : Step :=
  whenRunning s (whenBegun opLinkSend (some p) s (whenPresent opLinkSend p s ((portSend p a f s).finish .flag)))

/-- LINK_READ_STATS (R137). -/
def execLinkReadStats (p : Port) (s : State) : Step :=
  whenRunning s (whenBegun opLinkReadStats (some p) s
    (whenPresent opLinkReadStats p s ((portReadStats p s).finish fun c => .stats c.1 c.2)))

end Sys2Proof.Machine
end

