-- ==== Sys2Proof/Machine/Cycle.lean ====
section
/-! DEFINITION. The poll cycle of the link router (42_link.md R125 to R134): steps S1, S2 and S3 and the handler windows. A gap stands
before every port operation of the cycle (20_memory.md R59): `g` is what happens in the next one (Machine/Gap.lean). -/

namespace Sys2Proof.Machine

/-- A dispatch (R128, R131): latch source and frame, emit the event, and stop in the handler window `ph`. -/
def dispatch (src : Port) (f : Frame) (ph : Phase) (s : State) : Step :=
  .next { s.emit (.dispatch src f) with dispSrc := src, dispFrame := f, phase := ph, result := .unit }

/-- A power-down of S3: only at a present position (R132). -/
def powerDownPresent (g : State → Step) (p : Port) (s : State) (k : State → Step) : Step :=
  if (s.cfg.port p).present then inCycle (g s) fun s1 => (portPowerDown p s1).andThen fun _ s2 => k s2 else k s

/-- S3 (R132): power-down maintenance, plug before socket, and the end of the cycle. -/
def cycleS3 (g : State → Step) (s : State) : Step :=
  powerDownPresent g .plug s fun s1 =>
    powerDownPresent g .socket s1 fun s2 => .next { s2 with phase := .idle, result := .unit }

/-- A forward (R127, R130): the send's result is ignored (R138). -/
def forward (g : State → Step) (p : Port) (a : Nib) (f : Frame) (s : State) (k : State → Step) : Step :=
  inCycle (g s) fun s1 => (portSend p a f s1).andThen fun _ s2 => k s2

/-- A socket frame (R130, R131): forwarded to a present plug while its address is below 15, and always dispatched as received. -/
def routeSocketFrame (g : State → Step) (f : Frame) (s : State) : Step :=
  match s.cfg.plug.present, upAddress (addressNibble f) with
  | true, some a => forward g .plug a f s (dispatch .socket f .waitSocket)
  | _, _ => dispatch .socket f .waitSocket s

/-- S2 (R129). -/
def cycleS2 (g : State → Step) (s : State) : Step :=
  if s.cfg.socket.present then
    inCycle (g s) fun s1 => (portReceive .socket s1).andThen fun r s2 =>
      match r with
      | none => cycleS3 g s2
      | some f => routeSocketFrame g f s2
  else cycleS3 g s

/-- A plug frame (R127, R128): address 0 is dispatched here; otherwise it is forwarded to a present socket, and dropped if there
is none. -/
def routePlugFrame (g : State → Step) (f : Frame) (s : State) : Step :=
  match downAddress (addressNibble f) with
  | none => dispatch .plug f .waitPlug s
  | some a => if s.cfg.socket.present then forward g .socket a f s (cycleS2 g) else cycleS2 g s

/-- S1 (R126). -/
def cycleS1 (g : State → Step) (s : State) : Step :=
  if s.cfg.plug.present then
    inCycle (g s) fun s1 => (portReceive .plug s1).andThen fun r s2 =>
      match r with
      | none => cycleS2 g s2
      | some f => routePlugFrame g f s2
  else cycleS2 g s

/-- LINK_LOOP (R125) with the gaps `g`. -/
def linkLoopWith (g : State → Step) (s : State) : Step :=
  whenRunning s (notReentrant opLinkLoop s (whenBegun opLinkLoop none s (cycleS1 g s)))

/-- LINK_HANDLER_DONE (R133) with the gaps `g`, and its checks in R148's order. -/
def handlerDoneWith (g : State → Step) (s : State) : Step :=
  whenRunning s
    (match s.phase with
    | .idle => .next (s.raise (.noCycle opLinkHandlerDone))
    | .three => .next (s.raise (.illegalState .three))
    | .waitPlug => whenBegun opLinkHandlerDone none s (cycleS2 g s)
    | .waitSocket => whenBegun opLinkHandlerDone none s (cycleS3 g s))

end Sys2Proof.Machine
end

