-- ==== Sys2Proof/Machine/FrameArrival.lean ====
section
/-! DEFINITION. The frame rows of the table (30_encoding.md R64 to R70, R80): a frame of each kind on the line of a port. Its five
bytes arrive in wire order, one LINE_RX step each (20_memory.md R50, R52). The port does not look at the type nibble (41_port.md
R112), so the rows differ in their bytes alone. DESIGN CHOICE, log entry 7. -/

namespace Sys2Proof.Machine

/-- The five bytes of a frame arrive at port `p`. -/
def frameArrives (p : Port) (f : Frame) (s : State) : Step := whenRunning s (lineRxAll p (frameBytes f) s)

/-- FRAME_MIDI (R67): type 0, the payload in B1 to B4. -/
def execFrameMidi (p : Port) (a : Nib) (m : Midi) (s : State) : Step :=
  frameArrives p (frameOf (headerByte a 0) m) s

/-- FRAME_PULSE (R68 to R70): type 1. On the wire `B1[7:6]` may hold any value (R71). -/
def execFramePulse (p : Port) (a : Nib) (unused : BitVec 2) (fadeOut fadeIn : Bool) (port : Nib) (power duration : Raw)
    (s : State) : Step :=
  frameArrives p (pulseFrame (headerByte a 1) unused fadeOut fadeIn port power duration) s

/-- FRAME_RESERVED (R65): a type nibble from 2 to 15, the body not interpreted. -/
def execFrameReserved (p : Port) (a t : Nib) (body : Midi) (s : State) : Step :=
  frameArrives p (frameOf (headerByte a t) body) s

end Sys2Proof.Machine
end

