-- ==== Sys2Proof/Machine/Reserved.lean ====
section
/-! DEFINITION. The reserved opcodes (30_encoding.md R78): each adds F_ILLEGAL_COMMAND, with its opcode, to FAULTS and has no
other effect, whoever issues it (60_exceptions.md R145). -/

namespace Sys2Proof.Machine

/-- RESERVED_09 (R78). -/
def execReserved09 (s : State) : Step := raising s (.illegalCommand 0x09)

/-- RESERVED_0A (R78). -/
def execReserved0A (s : State) : Step := raising s (.illegalCommand 0x0A)

/-- RESERVED_0B (R78). -/
def execReserved0B (s : State) : Step := raising s (.illegalCommand 0x0B)

/-- RESERVED_0C (R78). -/
def execReserved0C (s : State) : Step := raising s (.illegalCommand 0x0C)

/-- RESERVED_0D (R78). -/
def execReserved0D (s : State) : Step := raising s (.illegalCommand 0x0D)

/-- RESERVED_0E (R78). -/
def execReserved0E (s : State) : Step := raising s (.illegalCommand 0x0E)

/-- RESERVED_0F (R78). -/
def execReserved0F (s : State) : Step := raising s (.illegalCommand 0x0F)

/-- RESERVED_16 (R78). -/
def execReserved16 (s : State) : Step := raising s (.illegalCommand 0x16)

/-- RESERVED_17 (R78). -/
def execReserved17 (s : State) : Step := raising s (.illegalCommand 0x17)

/-- RESERVED_18 (R78). -/
def execReserved18 (s : State) : Step := raising s (.illegalCommand 0x18)

/-- RESERVED_19 (R78). -/
def execReserved19 (s : State) : Step := raising s (.illegalCommand 0x19)

/-- RESERVED_1A (R78). -/
def execReserved1A (s : State) : Step := raising s (.illegalCommand 0x1A)

/-- RESERVED_1B (R78). -/
def execReserved1B (s : State) : Step := raising s (.illegalCommand 0x1B)

/-- RESERVED_1C (R78). -/
def execReserved1C (s : State) : Step := raising s (.illegalCommand 0x1C)

/-- RESERVED_1D (R78). -/
def execReserved1D (s : State) : Step := raising s (.illegalCommand 0x1D)

/-- RESERVED_1E (R78). -/
def execReserved1E (s : State) : Step := raising s (.illegalCommand 0x1E)

/-- RESERVED_1F (R78). -/
def execReserved1F (s : State) : Step := raising s (.illegalCommand 0x1F)

/-- RESERVED_26 (R78). -/
def execReserved26 (s : State) : Step := raising s (.illegalCommand 0x26)

/-- RESERVED_27 (R78). -/
def execReserved27 (s : State) : Step := raising s (.illegalCommand 0x27)

/-- RESERVED_28 (R78). -/
def execReserved28 (s : State) : Step := raising s (.illegalCommand 0x28)

/-- RESERVED_29 (R78). -/
def execReserved29 (s : State) : Step := raising s (.illegalCommand 0x29)

/-- RESERVED_2A (R78). -/
def execReserved2A (s : State) : Step := raising s (.illegalCommand 0x2A)

/-- RESERVED_2B (R78). -/
def execReserved2B (s : State) : Step := raising s (.illegalCommand 0x2B)

/-- RESERVED_2C (R78). -/
def execReserved2C (s : State) : Step := raising s (.illegalCommand 0x2C)

/-- RESERVED_2D (R78). -/
def execReserved2D (s : State) : Step := raising s (.illegalCommand 0x2D)

/-- RESERVED_2E (R78). -/
def execReserved2E (s : State) : Step := raising s (.illegalCommand 0x2E)

/-- RESERVED_2F (R78). -/
def execReserved2F (s : State) : Step := raising s (.illegalCommand 0x2F)

/-- RESERVED_UNITS_3_TO_15 (R78): the opcodes 0x30 to 0xFF. -/
def execReservedUnits3To15 (op : Byte) (s : State) : Step := raising s (.illegalCommand op)

end Sys2Proof.Machine
end

