-- ==== Sys2Proof/Machine/Gap.lean ====
section
/-! DEFINITION. What may happen between two port operations of a running poll cycle (20_memory.md R59, R50): line-agent steps,
commands of the host, the clock's `@T`, and a reset (70_reset_and_hazards.md R161). State.gaps lists, for each gap still to come,
the moves that fall into it; with them LINK_LOOP and LINK_HANDLER_DONE have their meaning. Log entry 6. -/

namespace Sys2Proof.Machine

/-- A command, or a frame's arrival, between two port operations of a cycle: its own meaning. The checks of LINK_LOOP and
LINK_HANDLER_DONE look at PHASE alone (R123, R148), so where PHASE lets them pass they run R125's steps there and then, with the
gaps `g` that are left, and the interrupted cycle goes on after them.

DESIGN CHOICE (log entry 22): each of the two cycles takes its own frames, so together they may take more than one frame of a port,
and a nested cycle before a forward pushes its own frame first. R168's bound and order are those of one cycle in which no other
is nested. -/
def gapCommand (g : State → Step) (i : Instr) (s : State) : Step :=
  match i with
  | .getType f => execGetType f s
  | .getAddress f => execGetAddress f s
  | .encodeHeader f a t => execEncodeHeader f a t s
  | .decodeMidi f => execDecodeMidi f s
  | .encodeMidi f m => execEncodeMidi f m s
  | .decodePulse f => execDecodePulse f s
  | .encodePulse f u => execEncodePulse f u s
  | .plEncode q v => execPlEncode q v s
  | .plDecode q r => execPlDecode q r s
  | .portBegin p => execPortBegin p s
  | .portReceive p => execPortReceive p s
  | .portSend p a f => execPortSend p a f s
  | .portPowerDown p => execPortPowerDown p s
  | .portIdle p => execPortIdle p s
  | .portReadStats p => execPortReadStats p s
  | .linkBegin => execLinkBegin s
  | .linkLoop => linkLoopWith g s
  | .linkHandlerDone => handlerDoneWith g s
  | .linkIdle => execLinkIdle s
  | .linkSend p a f => execLinkSend p a f s
  | .linkReadStats p => execLinkReadStats p s
  | .reserved09 => execReserved09 s
  | .reserved0A => execReserved0A s
  | .reserved0B => execReserved0B s
  | .reserved0C => execReserved0C s
  | .reserved0D => execReserved0D s
  | .reserved0E => execReserved0E s
  | .reserved0F => execReserved0F s
  | .reserved16 => execReserved16 s
  | .reserved17 => execReserved17 s
  | .reserved18 => execReserved18 s
  | .reserved19 => execReserved19 s
  | .reserved1A => execReserved1A s
  | .reserved1B => execReserved1B s
  | .reserved1C => execReserved1C s
  | .reserved1D => execReserved1D s
  | .reserved1E => execReserved1E s
  | .reserved1F => execReserved1F s
  | .reserved26 => execReserved26 s
  | .reserved27 => execReserved27 s
  | .reserved28 => execReserved28 s
  | .reserved29 => execReserved29 s
  | .reserved2A => execReserved2A s
  | .reserved2B => execReserved2B s
  | .reserved2C => execReserved2C s
  | .reserved2D => execReserved2D s
  | .reserved2E => execReserved2E s
  | .reserved2F => execReserved2F s
  | .reservedUnits3To15 op => execReservedUnits3To15 op s
  | .frameMidi p a m => execFrameMidi p a m s
  | .framePulse p a unused fadeOut fadeIn port power duration => execFramePulse p a unused fadeOut fadeIn port power duration s
  | .frameReserved p a t body => execFrameReserved p a t body s

/-- One move that falls into a gap. -/
def gapMove (g : State → Step) (m : Move) (s : State) : Step :=
  match m with
  | .word issuer w => gapCommand g (decodeWord w) { s with issuer := issuer }
  | .lineRx p b => lineRx p b s
  | .lineTx p => lineTx p s
  | .setClock n => setClock n s
  | .reset => .next s.restart

/-- The moves of one gap, in order. A fault ends them (R147), and so does a reset, which ends the cycle they stand in.

DESIGN CHOICE (log entry 22): a window that a nested LINK_LOOP or LINK_HANDLER_DONE leaves open (R133) does not hold the interrupted
cycle: it goes on, and its own dispatch or S3 writes PHASE, so that window may end without a LINK_HANDLER_DONE. -/
def gapMoves (g : State → Step) : List Move → State → Step
  | [], s => .next s
  | m :: ms, s => inCycle (gapMove g m s) (gapMoves g ms)

/-- The next gap of the running cycle: the moves listed first in State.gaps, or none when no more are listed. A cycle that a
move runs has the gaps after this one, so cycles nest at most as deep as gaps are listed: `depth` is at least their number. -/
def gap : Nat → State → Step
  | 0, s => .next s
  | depth + 1, s =>
    match s.gaps with
    | [] => .next s
    | ms :: rest => gapMoves (gap depth) ms { s with gaps := rest }

/-- LINK_LOOP (R125). -/
def execLinkLoop (s : State) : Step := linkLoopWith (gap s.gaps.length) s

/-- LINK_HANDLER_DONE (R133). -/
def execLinkHandlerDone (s : State) : Step := handlerDoneWith (gap s.gaps.length) s

end Sys2Proof.Machine
end

