-- ==== Sys2Proof/Machine/Dispatch.lean ====
section
/-! DEFINITION. One arm per constructor of Instr, each one direct call of its meaning. -/

namespace Sys2Proof.Machine

def exec (i : Instr) (s : State) : Host.Outcome State Fault Refusal :=
  match i with
  | .getType f => Sys2Proof.Machine.execGetType f s
  | .getAddress f => Sys2Proof.Machine.execGetAddress f s
  | .encodeHeader f a t => Sys2Proof.Machine.execEncodeHeader f a t s
  | .decodeMidi f => Sys2Proof.Machine.execDecodeMidi f s
  | .encodeMidi f m => Sys2Proof.Machine.execEncodeMidi f m s
  | .decodePulse f => Sys2Proof.Machine.execDecodePulse f s
  | .encodePulse f u => Sys2Proof.Machine.execEncodePulse f u s
  | .plEncode q v => Sys2Proof.Machine.execPlEncode q v s
  | .plDecode q r => Sys2Proof.Machine.execPlDecode q r s
  | .portBegin p => Sys2Proof.Machine.execPortBegin p s
  | .portReceive p => Sys2Proof.Machine.execPortReceive p s
  | .portSend p a f => Sys2Proof.Machine.execPortSend p a f s
  | .portPowerDown p => Sys2Proof.Machine.execPortPowerDown p s
  | .portIdle p => Sys2Proof.Machine.execPortIdle p s
  | .portReadStats p => Sys2Proof.Machine.execPortReadStats p s
  | .linkBegin => Sys2Proof.Machine.execLinkBegin s
  | .linkLoop => Sys2Proof.Machine.execLinkLoop s
  | .linkHandlerDone => Sys2Proof.Machine.execLinkHandlerDone s
  | .linkIdle => Sys2Proof.Machine.execLinkIdle s
  | .linkSend p a f => Sys2Proof.Machine.execLinkSend p a f s
  | .linkReadStats p => Sys2Proof.Machine.execLinkReadStats p s
  | .reserved09 => Sys2Proof.Machine.execReserved09 s
  | .reserved0A => Sys2Proof.Machine.execReserved0A s
  | .reserved0B => Sys2Proof.Machine.execReserved0B s
  | .reserved0C => Sys2Proof.Machine.execReserved0C s
  | .reserved0D => Sys2Proof.Machine.execReserved0D s
  | .reserved0E => Sys2Proof.Machine.execReserved0E s
  | .reserved0F => Sys2Proof.Machine.execReserved0F s
  | .reserved16 => Sys2Proof.Machine.execReserved16 s
  | .reserved17 => Sys2Proof.Machine.execReserved17 s
  | .reserved18 => Sys2Proof.Machine.execReserved18 s
  | .reserved19 => Sys2Proof.Machine.execReserved19 s
  | .reserved1A => Sys2Proof.Machine.execReserved1A s
  | .reserved1B => Sys2Proof.Machine.execReserved1B s
  | .reserved1C => Sys2Proof.Machine.execReserved1C s
  | .reserved1D => Sys2Proof.Machine.execReserved1D s
  | .reserved1E => Sys2Proof.Machine.execReserved1E s
  | .reserved1F => Sys2Proof.Machine.execReserved1F s
  | .reserved26 => Sys2Proof.Machine.execReserved26 s
  | .reserved27 => Sys2Proof.Machine.execReserved27 s
  | .reserved28 => Sys2Proof.Machine.execReserved28 s
  | .reserved29 => Sys2Proof.Machine.execReserved29 s
  | .reserved2A => Sys2Proof.Machine.execReserved2A s
  | .reserved2B => Sys2Proof.Machine.execReserved2B s
  | .reserved2C => Sys2Proof.Machine.execReserved2C s
  | .reserved2D => Sys2Proof.Machine.execReserved2D s
  | .reserved2E => Sys2Proof.Machine.execReserved2E s
  | .reserved2F => Sys2Proof.Machine.execReserved2F s
  | .reservedUnits3To15 op => Sys2Proof.Machine.execReservedUnits3To15 op s
  | .frameMidi p a m => Sys2Proof.Machine.execFrameMidi p a m s
  | .framePulse p a unused fadeOut fadeIn port power duration => Sys2Proof.Machine.execFramePulse p a unused fadeOut fadeIn port power duration s
  | .frameReserved p a t body => Sys2Proof.Machine.execFrameReserved p a t body s

end Sys2Proof.Machine
end

