-- ==== Sys2Proof/Machine/Fetch.lean ====
section
/-! DEFINITION. How a line of a program (30_encoding.md R83) reaches the block. The block itself fetches nothing
(20_memory.md R62): a line is what its environment does next. -/

namespace Sys2Proof.Machine

/-- The state in which a line's move runs: the line is taken, and its gaps and issuer are in place. -/
def State.begin (s : State) (rest : List Line) (gaps : List (List Move)) (issuer : Issuer) : State :=
  { s with program := rest, gaps := gaps, issuer := issuer }

/-- The line that issues a word as the host, with nothing in its gaps. -/
def hostLine (w : BusWord) : Line := { move := .word .host w }

/-- A program of lines placed before the lines still to come. -/
def State.load (s : State) (ls : List Line) : State := { s with program := ls ++ s.program }

/-- A state in which bytes may arrive at position `p`: the line agent takes a LINE_RX step only at a present port that has begun
(20_memory.md R50, 70_reset_and_hazards.md R163). -/
def State.openLine (s : State) (p : Port) : State :=
  let s1 := s.setPort p { s.port p with begun := true }
  match p with
  | .plug => { s1 with cfg := { s1.cfg with plug := { s1.cfg.plug with present := true } } }
  | .socket => { s1 with cfg := { s1.cfg with socket := { s1.cfg.socket with present := true } } }

end Sys2Proof.Machine
end

