-- ==== Sys2Proof/Machine/Step.lean ====
section
/-! DEFINITION. One step of the machine: it takes the next line (30_encoding.md R83). Without a line the host issues no command and
nothing happens (70_reset_and_hazards.md R161, R177). -/

namespace Sys2Proof.Machine

/-- One step. A command or frame line runs `exec` of the instruction its word decodes to; every other line runs its own
operation. -/
def step (s : State) : Host.Outcome State Fault Refusal :=
  match s.program with
  | [] => .next s
  | line :: rest =>
    match line.move with
    | .word issuer w => exec (decodeWord w) (s.begin rest line.gaps issuer)
    | .lineRx p b => lineRx p b (s.begin rest line.gaps s.issuer)
    | .lineTx p => lineTx p (s.begin rest line.gaps s.issuer)
    | .setClock n => setClock n (s.begin rest line.gaps s.issuer)
    | .reset => .next (s.begin rest line.gaps s.issuer).restart

/-- The state whose next step runs the word of a table row's bits. A command is the host's next line. A 40-bit frame arrives on
the plug's line, which delivers bytes only to a present port that has begun, so the plug is made so. Log entries 2 and 8. -/
def State.withFetchWord (s : State) (nbits w : Nat) : State :=
  match tableBusWord nbits w with
  | some (.command c) => s.load [hostLine (.command c)]
  | some (.frame p f) => (s.openLine p).load [hostLine (.frame p f)]
  | none => s

end Sys2Proof.Machine
end

