-- ==== Sys2Proof/Machine/Chain.lean ====
section
/-! DEFINITION. A daisy chain of devices (60_exceptions.md R158): each device is one block instance, and the socket line of a device
is the plug line of the next. Host/Core.lean's machine is one device; this file composes several. Log entry 17. -/

namespace Sys2Proof.Machine

/-- A byte that leaves while the sender's port has a TE pin and TE is deasserted is a draw: delivered or lost (R158). -/
def mayBeLost (s : State) (p : Port) : Bool := (s.cfg.port p).hasTe && !(s.port p).te

/-- A LINE_TX step of `a` at position `pa` hands its byte to a LINE_RX step of `b` at position `pb` (R158). -/
def wireByte (pa pb : Port) (lost : Bool) (a b : State) : Host.Outcome (State × State) Fault Refusal :=
  match (a.port pa).tx with
  | [] => .fault .lineTxEmpty
  | byte :: _ =>
    match lineTx pa a with
    | .fault f => .fault f
    | .refused r => .refused r
    | .next a' =>
      if lost && mayBeLost a pa then .next (a', b)
      else match lineRx pb byte b with
        | .fault f => .fault f
        | .refused r => .refused r
        | .next b' => .next (a', b')

/-- The other end of a wire: the socket of a device feeds the plug of the next, and the reverse (R158). -/
def oppositeEnd : Port → Port
  | .plug => .socket
  | .socket => .plug

/-- The device at the other end of the wire of position `p` of device `i`, with its place in the chain: none above the plug of
the first device, and none below the socket of the last (R158). -/
def neighbour (ds : List State) (i : Nat) (p : Port) : Option (Nat × State) :=
  match p, i with
  | .plug, 0 => none
  | .plug, j + 1 => ds[j]?.map fun d => (j, d)
  | .socket, i => ds[i + 1]?.map fun d => (i + 1, d)

/-- Line traffic at a wired position, which the wire alone brings and takes (R158). -/
def Move.overWire (wired : Port → Bool) : Move → Bool
  | .word _ (.frame p _) => wired p
  | .lineRx p _ | .lineTx p => wired p
  | .word _ (.command _) | .setClock _ | .reset => false

/-- A line without the traffic of wired positions in its gaps. -/
def Line.offWire (wired : Port → Bool) (l : Line) : Line :=
  { l with gaps := l.gaps.map fun ms => ms.filter fun m => !m.overWire wired }

/-- The next state through a function. -/
def mapNext {α β : Type} (f : α → β) : Host.Outcome α Fault Refusal → Host.Outcome β Fault Refusal
  | .next a => .next (f a)
  | .fault e => .fault e
  | .refused r => .refused r

/-- Device `i` takes its next line. A LINE_TX at a wired position hands its byte over the wire, where `lost` is the draw of R158,
read only when the byte may be lost. No byte enters a wired position but over its wire, so the line agent takes no other step
there. Everything else, traffic at the two open ends included (R50), is the device's own step. -/
def chainStep (ds : List State) (i : Fin ds.length) (lost : Bool) : Host.Outcome (List State) Fault Refusal :=
  match ds[i].program with
  | [] => .next ds
  | line :: rest =>
    let taken : State := { ds[i] with program := rest }
    let wired (p : Port) : Bool := (neighbour ds i p).isSome
    match line.move with
    | .lineTx p =>
      match neighbour ds i p with
      | some (j, e) => mapNext (fun x => (ds.set i x.1).set j x.2) (wireByte p (oppositeEnd p) lost taken e)
      | none => mapNext (ds.set i) (step ds[i])
    | m =>
      if m.overWire wired then .next (ds.set i taken)
      else mapNext (ds.set i) (step { ds[i] with program := line.offWire wired :: rest })

/-- A chain has 1 to CHAIN_MAX devices, each with a clock of its own (R158); neighbours have the ports the wire between them
needs.

DESIGN CHOICE (log entry 23): CHAIN_MAX is carried by each device (00_scope.md R9), and the spec does not say whose value bounds a
chain whose devices differ in it. Here the first device's value bounds the whole chain, and each later device's value bounds the
part of the chain from that device on. -/
def chainWf : List State → Bool
  | [] => false
  | [d] => 1 ≤ d.cfg.chainMax
  | a :: b :: ds => (ds.length + 2 ≤ a.cfg.chainMax) && a.cfg.socket.present && b.cfg.plug.present
    && (b :: ds).all (fun d => d.cfg.clockId != a.cfg.clockId) && chainWf (b :: ds)

end Sys2Proof.Machine
end

