-- ==== Sys2Proof/Machine/Pseudo.lean ====
section
/-! DEFINITION. The pseudo-instructions (30_encoding.md R84), as the commands they stand for, run one after the other. -/

namespace Sys2Proof.Machine

/-- The frame `[00 00 00 00 00]`. -/
def zeroFrame : Frame := ⟨0, 0, 0, 0, 0⟩

/-- `LINK_SEND p, a, f1`, where f1 is the frame the command before it returned. -/
def sendReturned (p : Port) (a : Nib) (s : State) : Step :=
  match s.result with
  | .frame f1 => execLinkSend p a f1 s
  | .unit | .nibble _ | .midi _ | .pulse _ | .raw _ | .value _ | .received _ | .flag _ | .stats _ _ => .next s

/-- `SEND_MIDI p, a, m`. -/
def sendMidi (p : Port) (a : Nib) (m : Midi) (s : State) : Step :=
  andThen (execEncodeMidi zeroFrame m s) (sendReturned p a)

/-- `SEND_PULSE p, a, u`. -/
def sendPulse (p : Port) (a : Nib) (u : Pulse) (s : State) : Step :=
  andThen (execEncodePulse zeroFrame u s) (sendReturned p a)

/-- `ENCODE_HEADER_ONLY a, t`. -/
def encodeHeaderOnly (a t : Nib) (s : State) : Step := execEncodeHeader zeroFrame a t s

/-- `LINK_HANDLER_DONE` each time PHASE is not IDLE, at most `n` times. A cycle has at most two windows (R133). -/
def closeWindows : Nat → State → Step
  | 0, s => .next s
  | n + 1, s => if s.phase = .idle then .next s else andThen (execLinkHandlerDone s) (closeWindows n)

/-- `CYCLE`: a poll cycle whose handlers do nothing. -/
def cycle (s : State) : Step := andThen (execLinkLoop s) (closeWindows 2)

end Sys2Proof.Machine
end

