-- ==== Sys2Proof/Safety.lean ====
section
/-! DEFINITION. What counts as a sound state and as a successful end, in the terms the statements use. -/

namespace Sys2Proof.Machine

/-- The registers of one port position are sound: the FIFO bounds (20_memory.md R46, R48), the pin agrees with the flag (10_state.md
R27, R39 (3)), stamps and counters are within their widths (R44), no partial frame is timed while none is pending (R39 (1)), and
a position that is absent or has not begun is as reset left it (R20, R26, R50). -/
structure PortOk (c : Config) (pc : PortConfig) (r : PortRegs) : Prop where
  rxBound : r.rx.length ≤ pc.rxCap
  txBound : r.tx.length ≤ pc.txCap
  pin : r.te = (pc.hasTe && r.active)
  lastActWidth : r.lastAct < 2 ^ c.clockWidth
  toStampWidth : r.toStamp < 2 ^ c.clockWidth
  inCountWidth : r.inCount < 2 ^ c.counterWidth
  outCountWidth : r.outCount < 2 ^ c.counterWidth
  untimed : r.rx = [] → r.toStamp = 0
  absent : pc.present = false → r = {}
  fresh : r.begun = false → r = {}

/-- The invariant of a block: both positions are sound, PHASE is never 3 (R30) and is IDLE until the link has begun (R39 (4)), a
begun link has begun every present port (R124, R125), and FAULTS holds at most one record (R147, R148). -/
structure Inv (s : State) : Prop where
  plug : PortOk s.cfg s.cfg.plug s.plug
  socket : PortOk s.cfg s.cfg.socket s.socket
  phaseLegal : s.phase ≠ .three
  phaseBegun : s.phase ≠ .idle → s.linkBegun = true
  portsBegun : s.linkBegun = true → ∀ p, (s.cfg.port p).present = true → (s.port p).begun = true
  oneFault : s.faults.length ≤ 1

/-- A port that the sequencer may operate (41_port.md R105, 30_encoding.md R79): no fault, the command is the sequencer's, the
position is present and has begun. -/
structure PortReady (s : State) (p : Port) : Prop where
  running : s.faults = []
  issuer : s.issuer = .sequencer
  present : (s.cfg.port p).present = true
  begun : (s.port p).begun = true

/-- A begun link whose present ports have begun, without a fault (42_link.md R123, R124). -/
structure LinkReady (s : State) : Prop where
  running : s.faults = []
  begun : s.linkBegun = true
  portsBegun : ∀ p, (s.cfg.port p).present = true → (s.port p).begun = true

/-- A link ready to run its poll cycle with nothing in the gaps between its port operations (42_link.md R125). -/
structure CycleReady (s : State) : Prop where
  link : LinkReady s
  gaps : s.gaps = []

/-- A word of the codec, unit 0: a command with an opcode from 0x00 to 0x08 (30_encoding.md R73, R75). -/
def isCodecWord : BusWord → Bool
  | .command c => c.op.toNat ≤ 0x08
  | .frame _ _ => false

/-- What no command undoes: the configuration stays (00_scope.md R11), FAULTS and EVENTS only grow at their ends (10_state.md R32,
R33), the clock's true time never decreases (60_exceptions.md R154), and the lines still to come stay. -/
structure Grows (s t : State) : Prop where
  cfg : t.cfg = s.cfg
  faults : s.faults <+: t.faults
  events : s.events <+: t.events
  time : s.time ≤ t.time
  program : t.program = s.program

/-- An event that dispatches a frame of position `p` to the host. -/
def Event.dispatches (p : Port) : Event → Bool
  | .dispatch src _ => src == p
  | .peripheralBegin _ _ | .teSet _ _ => false

/-- A command, which somebody issues, and not line traffic, a clock line or a reset. -/
def Move.isCommand : Move → Bool
  | .word _ (.command _) => true
  | .word _ (.frame _ _) | .lineRx _ _ | .lineTx _ | .setClock _ | .reset => false

/-- A run ends successfully (70_reset_and_hazards.md R177): no fault, no cycle in progress, and no further command among the lines
to come. What the line agents and the clock still do is no command. -/
def endsWell (s : State) : Bool := s.faults.isEmpty && s.phase == .idle && s.program.all fun l => !l.move.isCommand

end Sys2Proof.Machine
end

