-- ==== Sys2Proof/Certificates/Slice0/Obligations.lean ====
section
/-! DEFINITION. The statements about the model, for the provers. Each docstring names the rule of spec/ it formalises. -/

open Sys2Proof Sys2Proof.Machine

/-! ### Reset, the step, and the encodings -/

/-- 10_state.md R40: the reset values. The clock's value is a draw, here the free value `Config.clockDraw` of index 0. -/
def Obligations.ResetValues : Prop :=
  (∀ p, (State.reset.port p).begun = false ∧ (State.reset.port p).active = false ∧ (State.reset.port p).lastAct = 0
    ∧ (State.reset.port p).toStamp = 0 ∧ (State.reset.port p).inCount = 0 ∧ (State.reset.port p).outCount = 0
    ∧ (State.reset.port p).te = false ∧ (State.reset.port p).rx = [] ∧ (State.reset.port p).tx = [])
  ∧ State.reset.linkBegun = false ∧ State.reset.phase = .idle ∧ State.reset.dispSrc = .plug
  ∧ State.reset.dispFrame = ⟨0, 0, 0, 0, 0⟩ ∧ State.reset.faults = [] ∧ State.reset.events = []
  ∧ State.reset.time = Config.clockDraw State.reset.cfg.clockId 0

/-- 70_reset_and_hazards.md R161: a reset line sets every element to its value of R40 and empties FAULTS, in any state, a stopped
one included; after it the block does nothing until the host issues a command. The clock's value is a new draw. (That a reset is
a line of the tape, and that configuration and tape stay, is the model's form, log entries 2 and 20.) -/
def Obligations.ResetRestartsAnyState : Prop :=
  (∀ (s : State) (gaps : List (List Move)) (rest : List Line), s.program = ⟨.reset, gaps⟩ :: rest →
    ∃ t, step s = .next t ∧ (∀ p, t.port p = {}) ∧ t.linkBegun = false ∧ t.phase = .idle ∧ t.dispSrc = .plug
      ∧ t.dispFrame = ⟨0, 0, 0, 0, 0⟩ ∧ t.faults = [] ∧ t.events = [] ∧ t.time = Config.clockDraw s.cfg.clockId s.draws
      ∧ t.cfg = s.cfg ∧ t.program = rest)
  ∧ (∀ s : State, s.program = [] → step s = .next s)

/-- A step runs the decoded instruction (the model's own step, log entry 2): the line is taken, its gaps and issuer are put in
place, and the outcome is exec's. -/
def Obligations.StepRunsDecodedInstruction : Prop :=
  ∀ (s : State) (issuer : Issuer) (w : BusWord) (gaps : List (List Move)) (rest : List Line) (i : Instr),
    s.program = ⟨.word issuer w, gaps⟩ :: rest → decodeWord w = i → i.wf = true →
    step s = exec i { s with program := rest, gaps := gaps, issuer := issuer }

/-- A table row's bits, placed as log entries 2 and 8 say, are what the next step runs: eight bits as the host's next command, forty
as a frame on the line of the plug, made present and begun for it. -/
def Obligations.FetchedWordRunsNext : Prop :=
  ∀ (s : State) (w : Nat) (i : Instr),
    (decodeTableWord 8 w = some i → step (s.withFetchWord 8 w) = exec i { s with gaps := [], issuer := .host })
    ∧ (decodeTableWord 40 w = some i →
      step (s.withFetchWord 40 w) = exec i { s.openLine .plug with gaps := [], issuer := .host })

/-- Decode and encode agree, for every well-formed instruction and every operand value. -/
def Obligations.DecodeOfEncodeIsInstruction : Prop :=
  ∀ i : Instr, i.wf = true → decodeWord (encode i) = i

/-- Encode and decode agree the other way: a frame on a line is recovered byte for byte from the row it decodes to, and what it
decodes to is well formed. -/
def Obligations.EncodeOfDecodedFrameIsFrame : Prop :=
  ∀ (p : Port) (f : Frame), (decodeFrame p f).wf = true ∧ encode (decodeFrame p f) = .frame p f

/-- A few words written out from 30_encoding.md (R64, R67 to R70, R75 to R78) decode to the rows they stand for. -/
def Obligations.SpecWordsDecode : Prop :=
  decodeWord (.command { op := 0x01, args := { f := ⟨0x30, 0x09, 0x90, 0x3C, 0x7F⟩ } })
      = .getAddress ⟨0x30, 0x09, 0x90, 0x3C, 0x7F⟩
  ∧ decodeWord (.command { op := 0x12, args := { p := .socket, a := 2, f := ⟨0x30, 0x09, 0x90, 0x3C, 0x7F⟩ } })
      = .portSend .socket 2 ⟨0x30, 0x09, 0x90, 0x3C, 0x7F⟩
  ∧ decodeWord (.command { op := 0x25, args := { p := .socket } }) = .linkReadStats .socket
  ∧ decodeWord (.command { op := 0x1A }) = .reserved1A
  ∧ decodeWord (.command { op := 0xFF }) = .reservedUnits3To15 0xFF
  ∧ decodeWord (.frame .plug ⟨0x30, 0x09, 0x90, 0x3C, 0x7F⟩) = .frameMidi .plug 3 ⟨0x09, 0x90, 0x3C, 0x7F⟩
  ∧ decodeWord (.frame .socket ⟨0x51, 0x13, 0xCC, 0xB2, 0xB2⟩) = .framePulse .socket 5 0 false true 3 0xCB2 0xCB2
  ∧ decodeWord (.frame .plug ⟨0x02, 0xAA, 0xBB, 0xCC, 0xDD⟩) = .frameReserved .plug 0 2 ⟨0xAA, 0xBB, 0xCC, 0xDD⟩

/-- 30_encoding.md R80: the low nibble of B0 alone selects MIDI, Pulse or reserved. -/
def Obligations.TypeNibbleSelectsFrameRow : Prop :=
  ∀ (p : Port) (f : Frame),
    (f.b0.toNat % 16 = 0 ↔ ∃ a m, decodeFrame p f = .frameMidi p a m)
    ∧ (f.b0.toNat % 16 = 1 ↔ ∃ a u o i n x y, decodeFrame p f = .framePulse p a u o i n x y)
    ∧ (2 ≤ f.b0.toNat % 16 ↔ ∃ a t m, decodeFrame p f = .frameReserved p a t m)

/-! ### The codec -/

/-- 40_codec.md R86 and R87: the two header reads, for a frame of any type. -/
def Obligations.HeaderReadsReturnNibbles : Prop :=
  ∀ (f : Frame) (s : State), s.faults = [] →
    ∃ t a : Nib, t.toNat = f.b0.toNat % 16 ∧ a.toNat = f.b0.toNat / 16
      ∧ exec (.getType f) s = .next { s with result := .nibble t }
      ∧ exec (.getAddress f) s = .next { s with result := .nibble a }

/-- 40_codec.md R88: ENCODE_HEADER writes `a * 16 + t` into B0 and leaves the body. -/
def Obligations.EncodeHeaderWritesB0 : Prop :=
  ∀ (f : Frame) (a t : Nib) (s : State), s.faults = [] →
    ∃ b : Byte, b.toNat = a.toNat * 16 + t.toNat
      ∧ exec (.encodeHeader f a t) s = .next { s with result := .frame ⟨b, f.b1, f.b2, f.b3, f.b4⟩ }

/-- 40_codec.md R89: DECODE_MIDI copies the body of a frame of type 0 and faults on every other type. -/
def Obligations.DecodeMidiCopiesOrFaults : Prop :=
  ∀ (f : Frame) (s : State), s.faults = [] →
    exec (.decodeMidi f) s =
      if f.b0.toNat % 16 = 0 then .next { s with result := .midi ⟨f.b1, f.b2, f.b3, f.b4⟩ }
      else .next { s with faults := s.faults ++ [.wrongTypeDecode 0x03 f.b0] }

/-- 40_codec.md R90: ENCODE_MIDI keeps the address nibble, sets type 0 and copies the payload. -/
def Obligations.EncodeMidiKeepsAddress : Prop :=
  ∀ (f : Frame) (m : Midi) (s : State), s.faults = [] →
    ∃ b : Byte, b.toNat = f.b0.toNat / 16 * 16
      ∧ exec (.encodeMidi f m) s = .next { s with result := .frame ⟨b, m.m0, m.m1, m.m2, m.m3⟩ }

/-- 40_codec.md R97: DECODE_PULSE reads every field of a frame of type 1, and faults on every other type. -/
def Obligations.DecodePulseReadsFields : Prop :=
  ∀ (f : Frame) (s : State), s.faults = [] →
    (f.b0.toNat % 16 = 1 →
      ∃ d : DecodedPulse, d.pulse.port.toNat = f.b1.toNat % 16 ∧ d.pulse.fadeIn = decide (f.b1.toNat / 16 % 2 = 1)
        ∧ d.pulse.fadeOut = decide (f.b1.toNat / 32 % 2 = 1)
        ∧ d.powerRaw.toNat = f.b2.toNat / 16 * 256 + f.b3.toNat
        ∧ d.durationRaw.toNat = f.b2.toNat % 16 * 256 + f.b4.toNat
        ∧ d.pulse.power = 100 * (d.powerRaw.toNat : Rat) ^ 3 / 4095 ^ 3
        ∧ d.pulse.duration = (match s.cfg.variant with
            | .a => 10 * (d.durationRaw.toNat : Rat) ^ 3 / 4095 ^ 3
            | .b => 100 * (d.durationRaw.toNat : Rat) ^ 8 / 4095 ^ 8)
        ∧ exec (.decodePulse f) s = .next { s with result := .pulse d })
    ∧ (f.b0.toNat % 16 ≠ 1 →
      exec (.decodePulse f) s = .next { s with faults := s.faults ++ [.wrongTypeDecode 0x05 f.b0] })

/-- 40_codec.md R98: ENCODE_PULSE packs the quantized magnitudes, sets type 1, keeps the address nibble and clears B1[7:6]. -/
def Obligations.EncodePulsePacksFields : Prop :=
  ∀ (f : Frame) (u : Pulse) (s : State), s.faults = [] →
    ∃ b0 b1 b2 b3 b4 : Byte,
      exec (.encodePulse f u) s = .next { s with result := .frame ⟨b0, b1, b2, b3, b4⟩ }
      ∧ b0.toNat = f.b0.toNat / 16 * 16 + 1
      ∧ b1.toNat = u.fadeOut.toNat * 32 + u.fadeIn.toNat * 16 + u.port.toNat
      ∧ b2.toNat = (quantize s.cfg .power u.power).toNat / 256 * 16 + (quantize s.cfg .duration u.duration).toNat / 256
      ∧ b3.toNat = (quantize s.cfg .power u.power).toNat % 256
      ∧ b4.toNat = (quantize s.cfg .duration u.duration).toNat % 256

/-- 40_codec.md R91: PL_DECODE returns `MAX * r^EXP / 4095^EXP` exactly; 0 at 0 and MAX at 4095. -/
def Obligations.PlDecodeIsExactPower : Prop :=
  ∀ (q : Quantity) (r : Raw) (s : State), s.faults = [] →
    (∃ x : Rat, x = (s.cfg.quantityMax q : Rat) * (r.toNat : Rat) ^ s.cfg.quantityExp q / 4095 ^ s.cfg.quantityExp q
      ∧ exec (.plDecode q r) s = .next { s with result := .value x })
    ∧ dequantize s.cfg q 0 = 0 ∧ dequantize s.cfg q 4095 = s.cfg.quantityMax q

/-- 40_codec.md R92: PL_ENCODE returns `floor(4095 * (c / MAX)^(1/EXP) + 1/2)` over the reals, c the clamped input. -/
def Obligations.PlEncodeIsRoundedRoot : Prop :=
  ∀ (q : Quantity) (v : Rat) (s : State), s.faults = [] →
    ∃ r : Raw, exec (.plEncode q v) s = .next { s with result := .raw r }
      ∧ (r.toNat : Int) = ⌊(4095 : Real) * ((min (max v 0) (s.cfg.quantityMax q) / s.cfg.quantityMax q : Rat) : Real)
          ^ ((1 : Real) / s.cfg.quantityExp q) + 1 / 2⌋

/-- The spec's inference 40_codec.md R93 from R92: the result is the largest r in 0..4095 with `r = 0` or the integer inequality. -/
def Obligations.PlEncodeIsLargestReached : Prop :=
  ∀ (q : Quantity) (v : Rat) (c : Config) (x : Rat), x = min (max v 0) (c.quantityMax q) →
    ((quantize c q v).toNat = 0 ∨
      ((2 * (quantize c q v).toNat - 1 : Int)) ^ c.quantityExp q * c.quantityMax q * x.den ≤ 8190 ^ c.quantityExp q * x.num)
    ∧ ∀ k : Nat, 1 ≤ k → k ≤ 4095 →
        ((2 * k - 1 : Int)) ^ c.quantityExp q * c.quantityMax q * x.den ≤ 8190 ^ c.quantityExp q * x.num →
        k ≤ (quantize c q v).toNat

/-- The spec's inference 40_codec.md R94: the dequantizer is strictly increasing, the quantizer non-decreasing, and constant
outside `[0, MAX]`. -/
def Obligations.QuantizerIsMonotone : Prop :=
  ∀ (c : Config) (q : Quantity),
    (∀ r r' : Raw, r.toNat < r'.toNat → dequantize c q r < dequantize c q r')
    ∧ (∀ v v' : Rat, v ≤ v' → (quantize c q v).toNat ≤ (quantize c q v').toNat)
    ∧ (∀ v : Rat, v ≤ 0 → quantize c q v = 0)
    ∧ (∀ v : Rat, (c.quantityMax q : Rat) ≤ v → quantize c q v = 4095)

/-- The spec's inference 40_codec.md R95: every raw value is recovered from its decoded magnitude. -/
def Obligations.QuantizerLeftInverse : Prop :=
  ∀ (c : Config) (q : Quantity) (r : Raw), quantize c q (dequantize c q r) = r

/-- The spec's inference 40_codec.md R96: the round-trip error is at most `MAX * (1 - (8189/8190)^EXP)`. -/
def Obligations.QuantizerErrorBound : Prop :=
  ∀ (c : Config) (q : Quantity) (v : Rat),
    |dequantize c q (quantize c q v) - min (max v 0) (c.quantityMax q)|
      ≤ (c.quantityMax q : Rat) * (1 - (8189 / 8190) ^ c.quantityExp q)

/-- The spec's inference 40_codec.md R100: the pulse round trip, both ways. -/
def Obligations.PulseRoundTrip : Prop :=
  (∀ (c : Config) (f : Frame) (u : Pulse),
    typeNibble (encodePulseFrame c f u) = 1
    ∧ (decodePulseFrame c (encodePulseFrame c f u)).pulse.port = u.port
    ∧ (decodePulseFrame c (encodePulseFrame c f u)).pulse.fadeIn = u.fadeIn
    ∧ (decodePulseFrame c (encodePulseFrame c f u)).pulse.fadeOut = u.fadeOut
    ∧ (decodePulseFrame c (encodePulseFrame c f u)).powerRaw = quantize c .power u.power
    ∧ (decodePulseFrame c (encodePulseFrame c f u)).durationRaw = quantize c .duration u.duration)
  ∧ (∀ (c : Config) (f : Frame), typeNibble f = 1 →
    encodePulseFrame c f (decodePulseFrame c f).pulse = { f with b1 := f.b1 &&& 0x3F })

/-- 40_codec.md R101: the header and MIDI round trips, for every type and whatever the frame operand; DECODE_MIDI raises no fault
on the result of ENCODE_MIDI. -/
def Obligations.HeaderAndMidiRoundTrips : Prop :=
  ∀ (f : Frame) (a t : Nib) (m : Midi) (s : State), s.faults = [] →
    ∃ g h : Frame,
      exec (.encodeHeader f a t) s = .next { s with result := .frame g }
      ∧ exec (.getAddress g) s = .next { s with result := .nibble a }
      ∧ exec (.getType g) s = .next { s with result := .nibble t }
      ∧ exec (.encodeMidi f m) s = .next { s with result := .frame h }
      ∧ exec (.decodeMidi h) s = .next { s with result := .midi m }

/-- 40_codec.md R102: a power of 150 encodes as 100 and a duration of -5 as 0; ENCODE_PULSE depends on power and duration only
through their clamped values. -/
def Obligations.EncodePulseClamps : Prop :=
  ∀ (f : Frame) (u : Pulse) (s : State),
    exec (.encodePulse f { u with power := 150 }) s = exec (.encodePulse f { u with power := 100 }) s
    ∧ exec (.encodePulse f { u with duration := -5 }) s = exec (.encodePulse f { u with duration := 0 }) s
    ∧ exec (.encodePulse f u) s
        = exec (.encodePulse f { u with
            power := min (max u.power 0) 100
            duration := min (max u.duration 0) (s.cfg.quantityMax .duration) }) s

/-- 40_codec.md R85: a codec command completes whenever the block is not faulted, with no begin, no present port and in any phase.
It changes no register and no event; only FAULTS may differ (beside the result, log entry 4), and that only by a decode. -/
def Obligations.CodecChangesNoRegister : Prop :=
  ∀ (i : Instr) (s : State), i.wf = true → isCodecWord (encode i) = true → s.faults = [] →
    ∃ t, exec i s = .next t ∧ t = { s with result := t.result, faults := t.faults }
      ∧ (t.faults = [] ∨ ∃ f, i = .decodeMidi f ∨ i = .decodePulse f)

/-! ### Faults and privilege -/

/-- 30_encoding.md R78: every reserved opcode adds F_ILLEGAL_COMMAND, with the opcode, to FAULTS and has no other effect. The
rows RESERVED_09 to RESERVED_2F and RESERVED_UNITS_3_TO_15, by their opcodes and by their constructors. -/
def Obligations.ReservedOpcodesFault : Prop :=
  (∀ (op : Byte) (args : Operands) (s : State), s.faults = [] →
    (0x09 ≤ op.toNat ∧ op.toNat ≤ 0x0F) ∨ (0x16 ≤ op.toNat ∧ op.toNat ≤ 0x1F) ∨ (0x26 ≤ op.toNat ∧ op.toNat ≤ 0x2F)
      ∨ 0x30 ≤ op.toNat →
    exec (decodeWord (.command { op := op, args := args })) s
      = .next { s with faults := s.faults ++ [.illegalCommand op] })
  ∧ ∀ s : State, s.faults = [] →
    (∀ x ∈ [(Instr.reserved09, (0x09 : Byte)), (.reserved0A, 0x0A), (.reserved0B, 0x0B), (.reserved0C, 0x0C),
        (.reserved0D, 0x0D), (.reserved0E, 0x0E), (.reserved0F, 0x0F), (.reserved16, 0x16), (.reserved17, 0x17),
        (.reserved18, 0x18), (.reserved19, 0x19), (.reserved1A, 0x1A), (.reserved1B, 0x1B), (.reserved1C, 0x1C),
        (.reserved1D, 0x1D), (.reserved1E, 0x1E), (.reserved1F, 0x1F), (.reserved26, 0x26), (.reserved27, 0x27),
        (.reserved28, 0x28), (.reserved29, 0x29), (.reserved2A, 0x2A), (.reserved2B, 0x2B), (.reserved2C, 0x2C),
        (.reserved2D, 0x2D), (.reserved2E, 0x2E), (.reserved2F, 0x2F)],
      exec x.1 s = .next { s with faults := s.faults ++ [.illegalCommand x.2] })
    ∧ ∀ op : Byte, exec (.reservedUnits3To15 op) s = .next { s with faults := s.faults ++ [.illegalCommand op] }

/-- 30_encoding.md R79: a unit 1 command from the host adds F_ILLEGAL_COMMAND and has no other effect. -/
def Obligations.HostMayNotOperatePorts : Prop :=
  ∀ (p : Port) (a : Nib) (f : Frame) (s : State), s.faults = [] → s.issuer = .host →
    exec (.portBegin p) s = .next { s with faults := s.faults ++ [.illegalCommand 0x10] }
    ∧ exec (.portReceive p) s = .next { s with faults := s.faults ++ [.illegalCommand 0x11] }
    ∧ exec (.portSend p a f) s = .next { s with faults := s.faults ++ [.illegalCommand 0x12] }
    ∧ exec (.portPowerDown p) s = .next { s with faults := s.faults ++ [.illegalCommand 0x13] }
    ∧ exec (.portIdle p) s = .next { s with faults := s.faults ++ [.illegalCommand 0x14] }
    ∧ exec (.portReadStats p) s = .next { s with faults := s.faults ++ [.illegalCommand 0x15] }

/-- 60_exceptions.md R147: once FAULTS is non-empty the block takes no further step, and neither its line agents nor the host have
a move; the state is never a successful end. -/
def Obligations.FaultedBlockIsStopped : Prop :=
  ∀ s : State, s.faults ≠ [] →
    (∀ i : Instr, exec i s = .fault .stopped)
    ∧ (∀ (m : Move) (gaps : List (List Move)) (rest : List Line), s.program = ⟨m, gaps⟩ :: rest →
        m ≠ .reset → (∀ n, m ≠ .setClock n) → step s = .fault .stopped)
    ∧ endsWell s = false

/-- 42_link.md R123: the checks before a link operation, in its order, with the one of PHASE = 3 that 60_exceptions.md R148 places
among them; an operation that faults has no other effect. -/
def Obligations.LinkChecksInOrder : Prop :=
  ∀ (p : Port) (a : Nib) (f : Frame) (s : State), s.faults = [] →
    (s.phase ≠ .idle →
      exec .linkLoop s = .next { s with faults := s.faults ++ [.reentrant 0x21 s.phase] }
      ∧ exec .linkBegin s = .next { s with faults := s.faults ++ [.reentrant 0x20 s.phase] })
    ∧ (s.phase = .idle → exec .linkHandlerDone s = .next { s with faults := s.faults ++ [.noCycle 0x22] })
    ∧ (s.phase = .three → exec .linkHandlerDone s = .next { s with faults := s.faults ++ [.illegalState .three] })
    ∧ (s.linkBegun = false →
      (s.phase = .idle → exec .linkLoop s = .next { s with faults := s.faults ++ [.notBegun 0x21 none] })
      ∧ (s.phase = .waitPlug ∨ s.phase = .waitSocket →
          exec .linkHandlerDone s = .next { s with faults := s.faults ++ [.notBegun 0x22 none] })
      ∧ exec .linkIdle s = .next { s with faults := s.faults ++ [.notBegun 0x23 none] }
      ∧ exec (.linkSend p a f) s = .next { s with faults := s.faults ++ [.notBegun 0x24 (some p)] }
      ∧ exec (.linkReadStats p) s = .next { s with faults := s.faults ++ [.notBegun 0x25 (some p)] })
    ∧ (s.linkBegun = true → (s.cfg.port p).present = false →
      exec (.linkSend p a f) s = .next { s with faults := s.faults ++ [.absentPort 0x24 p] }
      ∧ exec (.linkReadStats p) s = .next { s with faults := s.faults ++ [.absentPort 0x25 p] })

/-- 41_port.md R105: an absent position, then a port that has not begun; the operation has no other effect. -/
def Obligations.PortChecksInOrder : Prop :=
  ∀ (p : Port) (a : Nib) (f : Frame) (s : State), s.faults = [] → s.issuer = .sequencer →
    ((s.cfg.port p).present = false →
      exec (.portBegin p) s = .next { s with faults := s.faults ++ [.absentPort 0x10 p] }
      ∧ exec (.portReceive p) s = .next { s with faults := s.faults ++ [.absentPort 0x11 p] }
      ∧ exec (.portSend p a f) s = .next { s with faults := s.faults ++ [.absentPort 0x12 p] }
      ∧ exec (.portPowerDown p) s = .next { s with faults := s.faults ++ [.absentPort 0x13 p] }
      ∧ exec (.portIdle p) s = .next { s with faults := s.faults ++ [.absentPort 0x14 p] }
      ∧ exec (.portReadStats p) s = .next { s with faults := s.faults ++ [.absentPort 0x15 p] })
    ∧ ((s.cfg.port p).present = true → (s.port p).begun = false →
      exec (.portReceive p) s = .next { s with faults := s.faults ++ [.notBegun 0x11 (some p)] }
      ∧ exec (.portSend p a f) s = .next { s with faults := s.faults ++ [.notBegun 0x12 (some p)] }
      ∧ exec (.portPowerDown p) s = .next { s with faults := s.faults ++ [.notBegun 0x13 (some p)] }
      ∧ exec (.portIdle p) s = .next { s with faults := s.faults ++ [.notBegun 0x14 (some p)] }
      ∧ exec (.portReadStats p) s = .next { s with faults := s.faults ++ [.notBegun 0x15 (some p)] })

/-! ### The clock and the line agents -/

/-- 60_exceptions.md R154: `Now()` returns `T mod 2^CLOCK_WIDTH`, T never decreases, and a read changes nothing else; elapsed time is
`(t1 - t0) mod 2^CLOCK_WIDTH` (00_scope.md R14). 30_encoding.md R83: `@T=n` sets T to n, at least the previous value, and every
read then returns `n mod 2^CLOCK_WIDTH`; an n below it stops by name (log entry 12). -/
def Obligations.ClockReadsTrueTime : Prop :=
  (∀ s : State, s.now.1 = s.now.2.time % 2 ^ s.cfg.clockWidth ∧ s.time ≤ s.now.2.time
    ∧ s.now.2 = { s with time := s.now.2.time, draws := s.now.2.draws })
  ∧ (∀ w t0 t1 : Nat, (elapsed w t0 t1 : Int) = ((t1 : Int) - t0) % 2 ^ w)
  ∧ ∀ (s : State) (n : Nat) (gaps : List (List Move)) (rest : List Line), s.program = ⟨.setClock n, gaps⟩ :: rest →
    (s.time ≤ n → ∃ t, step s = .next t ∧ t.now = (n % 2 ^ s.cfg.clockWidth, t)
      ∧ t = { s with program := rest, gaps := gaps, time := n, held := true })
    ∧ (n < s.time → step s = .fault .clockBackward)

/-- 20_memory.md R50 and R51: LINE_RX appends the byte at a present, begun port with room, and records F_RX_OVERRUN at a full one. -/
def Obligations.LineRxAppendsOrOverruns : Prop :=
  ∀ (s : State) (p : Port) (b : Byte) (gaps : List (List Move)) (rest : List Line),
    s.program = ⟨.lineRx p b, gaps⟩ :: rest → s.faults = [] → (s.cfg.port p).present = true → (s.port p).begun = true →
    ((s.port p).rx.length < (s.cfg.port p).rxCap →
      step s = .next (({ s with program := rest, gaps := gaps } : State).setPort p { s.port p with rx := (s.port p).rx ++ [b] }))
    ∧ ((s.cfg.port p).rxCap ≤ (s.port p).rx.length →
      step s = .next { s with program := rest, gaps := gaps, faults := s.faults ++ [.rxOverrun p b] })

/-- 20_memory.md R49 and R50: LINE_TX removes the oldest byte of a non-empty TX FIFO and nothing else. The line agent takes no step
at an absent port, no LINE_RX step at a port that has not begun and no LINE_TX step at an empty FIFO: such a line, and a frame
that would have to arrive so, stops by name (log entry 12). -/
def Obligations.LineTxRemovesOldest : Prop :=
  (∀ (s : State) (p : Port) (b : Byte) (bs : List Byte) (gaps : List (List Move)) (rest : List Line),
    s.program = ⟨.lineTx p, gaps⟩ :: rest → s.faults = [] → (s.cfg.port p).present = true → (s.port p).tx = b :: bs →
    step s = .next (({ s with program := rest, gaps := gaps } : State).setPort p { s.port p with tx := bs }))
  ∧ ∀ (s : State) (p : Port) (b : Byte) (gaps : List (List Move)) (rest : List Line), s.faults = [] →
    ((s.cfg.port p).present = false →
      (s.program = ⟨.lineRx p b, gaps⟩ :: rest ∨ s.program = ⟨.lineTx p, gaps⟩ :: rest → step s = .fault .lineAbsent)
      ∧ ∀ (f : Frame), exec (decodeWord (.frame p f)) s = .fault .lineAbsent)
    ∧ ((s.cfg.port p).present = true → (s.port p).begun = false →
      (s.program = ⟨.lineRx p b, gaps⟩ :: rest → step s = .fault .lineNotBegun)
      ∧ ∀ (f : Frame), exec (decodeWord (.frame p f)) s = .fault .lineNotBegun)
    ∧ ((s.cfg.port p).present = true → (s.port p).tx = [] → s.program = ⟨.lineTx p, gaps⟩ :: rest →
      step s = .fault .lineTxEmpty)

/-- Frames on the line (30_encoding.md R64 to R71, 20_memory.md R51 and R52, 60_exceptions.md R147; that a frame row is the arrival
of its bytes is the model's choice, log entry 7): at a present, begun port RX gains the frame's five bytes in wire order. Where
RX has room for fewer, those that fit are appended, the first that does not is recorded as F_RX_OVERRUN, and the rest do not
arrive. Nothing else changes. FRAME_MIDI, FRAME_PULSE, FRAME_RESERVED. -/
def Obligations.FramesArriveInWireOrder : Prop :=
  ∀ (p : Port) (s : State), s.faults = [] → (s.cfg.port p).present = true → (s.port p).begun = true →
    let room := (s.cfg.port p).rxCap - (s.port p).rx.length
    let arrive (bs : List Byte) : State := s.setPort p { s.port p with rx := (s.port p).rx ++ bs.take room }
    let arrived (bs : List Byte) : State := match bs.drop room with
      | [] => arrive bs
      | b :: _ => { arrive bs with faults := s.faults ++ [.rxOverrun p b] }
    (∀ (a : Nib) (m : Midi), ∃ b0 : Byte, b0.toNat = a.toNat * 16
      ∧ exec (.frameMidi p a m) s = .next (arrived [b0, m.m0, m.m1, m.m2, m.m3]))
    ∧ (∀ (a : Nib) (u : BitVec 2) (fo fi : Bool) (port : Nib) (x y : Raw), ∃ b0 b1 b2 b3 b4 : Byte,
      b0.toNat = a.toNat * 16 + 1 ∧ b1.toNat = u.toNat * 64 + fo.toNat * 32 + fi.toNat * 16 + port.toNat
      ∧ b2.toNat = x.toNat / 256 * 16 + y.toNat / 256 ∧ b3.toNat = x.toNat % 256 ∧ b4.toNat = y.toNat % 256
      ∧ exec (.framePulse p a u fo fi port x y) s = .next (arrived [b0, b1, b2, b3, b4]))
    ∧ (∀ (a t : Nib) (m : Midi), ∃ b0 : Byte, b0.toNat = a.toNat * 16 + t.toNat
      ∧ exec (.frameReserved p a t m) s = .next (arrived [b0, m.m0, m.m1, m.m2, m.m3]))

/-! ### The port operations -/

/-- 41_port.md R106: PORT_BEGIN starts the peripheral, deasserts TE and marks the port begun; a second one faults. -/
def Obligations.PortBeginStartsPort : Prop :=
  ∀ (p : Port) (s : State), s.faults = [] → s.issuer = .sequencer → (s.cfg.port p).present = true →
    ((s.port p).begun = false →
      ∃ t, exec (.portBegin p) s = .next t
        ∧ t.events = s.events ++ [.peripheralBegin p s.cfg.baud]
            ++ (if (s.cfg.port p).hasTe then [.teSet p false] else [])
        ∧ t = { s.setPort p { s.port p with
                  begun := true, active := false, te := if (s.cfg.port p).hasTe then false else (s.port p).te } with
                events := t.events, result := .unit })
    ∧ ((s.port p).begun = true →
      exec (.portBegin p) s = .next { s with faults := s.faults ++ [.beginTwice 0x10] })

/-- 41_port.md R108 and R109: with no byte pending PORT_RECEIVE returns none and changes nothing; with 1 to 4 bytes and an unarmed
timer it records the clock. -/
def Obligations.ReceiveIdleOrArms : Prop :=
  ∀ (p : Port) (s : State), PortReady s p →
    ((s.port p).rx = [] → exec (.portReceive p) s = .next { s with result := .received none })
    ∧ (1 ≤ (s.port p).rx.length → (s.port p).rx.length ≤ 4 → (s.port p).toStamp = 0 →
      exec (.portReceive p) s
        = .next { s.now.2.setPort p { s.port p with toStamp := s.now.1 } with result := .received none })

/-- 41_port.md R110: past the budget, the 1 to 4 pending bytes are dropped and the timer cleared; nothing is counted and no event
or fault is produced. -/
def Obligations.ReceiveDropsLatePartialFrame : Prop :=
  ∀ (p : Port) (s : State), PortReady s p → 1 ≤ (s.port p).rx.length → (s.port p).rx.length ≤ 4 → (s.port p).toStamp ≠ 0 →
    s.cfg.partialTimeoutUs < elapsed s.cfg.clockWidth (s.port p).toStamp s.now.1 →
    exec (.portReceive p) s
      = .next { s.now.2.setPort p { s.port p with rx := [], toStamp := 0 } with result := .received none }

/-- The spec's inference 41_port.md R111: within the budget PORT_RECEIVE returns none and changes no register. -/
def Obligations.ReceiveWaitsWithinBudget : Prop :=
  ∀ (p : Port) (s : State), PortReady s p → 1 ≤ (s.port p).rx.length → (s.port p).rx.length ≤ 4 → (s.port p).toStamp ≠ 0 →
    elapsed s.cfg.clockWidth (s.port p).toStamp s.now.1 ≤ s.cfg.partialTimeoutUs →
    exec (.portReceive p) s = .next { s.now.2 with result := .received none }

/-- 41_port.md R112: with five or more bytes pending PORT_RECEIVE pops the five oldest as B0 to B4, whatever their values, clears the
timer, counts the frame, and refreshes LAST_ACT. -/
def Obligations.ReceiveTakesWholeFrame : Prop :=
  ∀ (p : Port) (s : State) (b0 b1 b2 b3 b4 : Byte) (rest : List Byte), PortReady s p →
    (s.port p).rx = b0 :: b1 :: b2 :: b3 :: b4 :: rest →
    exec (.portReceive p) s
      = .next { s.now.2.setPort p { s.port p with
                  rx := rest
                  toStamp := 0
                  inCount := ((s.port p).inCount + 1) % 2 ^ s.cfg.counterWidth
                  lastAct := s.now.1 } with
                result := .received (some ⟨b0, b1, b2, b3, b4⟩) }

/-- 41_port.md R115 to R117: PORT_SEND asserts TE first and refreshes LAST_ACT with the clock word it reads, the one of the time
it leaves, whether or not there is room; with room for five
bytes it pushes the header `a * 16 + type` and the body and counts the frame, and without it writes nothing and returns false. -/
def Obligations.SendAssertsTeThenWrites : Prop :=
  ∀ (p : Port) (a : Nib) (f : Frame) (s : State), PortReady s p →
    ∃ t, exec (.portSend p a f) s = .next t
      ∧ (t.port p).active = true ∧ ((s.cfg.port p).hasTe = true → (s.port p).active = false → (t.port p).te = true)
      ∧ (t.port p).lastAct = t.time % 2 ^ s.cfg.clockWidth ∧ s.time ≤ t.time ∧ (s.held = true → t.time = s.time)
      ∧ t.events = s.events ++ (if (s.port p).active = false ∧ (s.cfg.port p).hasTe = true then [.teSet p true] else [])
      ∧ (t.port p).rx = (s.port p).rx
      ∧ ((s.port p).tx.length + 5 ≤ (s.cfg.port p).txCap →
          ∃ h : Byte, h.toNat = a.toNat * 16 + f.b0.toNat % 16
            ∧ (t.port p).tx = (s.port p).tx ++ [h, f.b1, f.b2, f.b3, f.b4]
            ∧ (t.port p).outCount = ((s.port p).outCount + 1) % 2 ^ s.cfg.counterWidth ∧ t.result = .flag true)
      ∧ ((s.cfg.port p).txCap < (s.port p).tx.length + 5 →
          (t.port p).tx = (s.port p).tx ∧ (t.port p).outCount = (s.port p).outCount ∧ t.result = .flag false)

/-- 41_port.md R118: PORT_POWER_DOWN deasserts exactly when the port is active and at least POWERDOWN_US have elapsed since LAST_ACT,
with bytes queued in TX or not. -/
def Obligations.PowerDownAfterInactivity : Prop :=
  ∀ (p : Port) (s : State), PortReady s p →
    ((s.port p).active = true → s.cfg.powerdownUs ≤ elapsed s.cfg.clockWidth (s.port p).lastAct s.now.1 →
      exec (.portPowerDown p) s = .next { s.now.2.setPort p { s.port p with
          active := false, te := if (s.cfg.port p).hasTe then false else (s.port p).te } with
        events := s.events ++ (if (s.cfg.port p).hasTe then [.teSet p false] else []), result := .unit })
    ∧ ((s.port p).active = true → elapsed s.cfg.clockWidth (s.port p).lastAct s.now.1 < s.cfg.powerdownUs →
      exec (.portPowerDown p) s = .next { s.now.2 with result := .unit })
    ∧ ((s.port p).active = false → exec (.portPowerDown p) s = .next { s with result := .unit })

/-- 41_port.md R119 and R120: PORT_IDLE answers its three-part test and PORT_READ_STATS the two counters; neither writes a register. -/
def Obligations.PortQueriesAnswer : Prop :=
  ∀ (p : Port) (s : State), PortReady s p →
    (∃ b : Bool, exec (.portIdle p) s = .next { s.now.2 with result := .flag b }
      ∧ (b = true ↔ (s.port p).rx = [] ∧ (s.port p).toStamp = 0
          ∧ s.cfg.quietUs ≤ elapsed s.cfg.clockWidth (s.port p).lastAct s.now.1))
    ∧ exec (.portReadStats p) s = .next { s with result := .stats (s.port p).inCount (s.port p).outCount }

/-- 10_state.md R42: what each port operation may write. The other position's registers (R43), the link's registers and FAULTS (from
a ready port) stay; of the position's own registers only the named ones may change. -/
def Obligations.PortOperationsFrame : Prop :=
  ∀ (p q : Port) (a : Nib) (f : Frame) (i : Instr) (s t : State), PortReady s p → q ≠ p →
    i ∈ [.portReceive p, .portSend p a f, .portPowerDown p, .portIdle p, .portReadStats p] → exec i s = .next t →
    t.port q = s.port q ∧ t.linkBegun = s.linkBegun ∧ t.phase = s.phase ∧ t.dispSrc = s.dispSrc ∧ t.dispFrame = s.dispFrame
    ∧ t.faults = s.faults ∧ t.cfg = s.cfg ∧ t.issuer = s.issuer ∧ t.program = s.program ∧ t.gaps = s.gaps
    ∧ (t.port p).begun = (s.port p).begun
    ∧ (i = .portReceive p → t.port p = { s.port p with
        rx := (t.port p).rx, toStamp := (t.port p).toStamp, inCount := (t.port p).inCount, lastAct := (t.port p).lastAct }
        ∧ t.events = s.events)
    ∧ (i = .portSend p a f → t.port p = { s.port p with
        active := (t.port p).active, te := (t.port p).te, lastAct := (t.port p).lastAct, tx := (t.port p).tx,
        outCount := (t.port p).outCount })
    ∧ (i = .portPowerDown p → t.port p = { s.port p with active := (t.port p).active, te := (t.port p).te })
    ∧ (i = .portIdle p ∨ i = .portReadStats p → t.port p = s.port p ∧ t.events = s.events)

/-! ### The link -/

/-- 42_link.md R124: LINK_BEGIN begins every present port, plug before socket, and then the link; a second one faults. With no
port present only LINK_BEGUN changes. -/
def Obligations.LinkBeginBeginsPorts : Prop :=
  ∀ s : State, s.faults = [] → s.phase = .idle →
    (s.linkBegun = false → (∀ p, (s.port p).begun = false) →
      ∃ t, exec .linkBegin s = .next t ∧ t.linkBegun = true ∧ t.faults = []
        ∧ (∀ p, t.port p = if (s.cfg.port p).present then
            { s.port p with begun := true, active := false, te := if (s.cfg.port p).hasTe then false else (s.port p).te }
            else s.port p)
        ∧ t.events = s.events
            ++ (if s.cfg.plug.present then
                  .peripheralBegin .plug s.cfg.baud :: (if s.cfg.plug.hasTe then [.teSet .plug false] else []) else [])
            ++ (if s.cfg.socket.present then
                  .peripheralBegin .socket s.cfg.baud :: (if s.cfg.socket.hasTe then [.teSet .socket false] else []) else [])
        ∧ t = { s with linkBegun := true, plug := t.plug, socket := t.socket, events := t.events, result := .unit })
    ∧ (s.linkBegun = true → exec .linkBegin s = .next { s with faults := s.faults ++ [.beginTwice 0x20] })

/-- 42_link.md R127 and R138: a plug frame with address a > 0 is taken from RX[plug], counted, and sent on a present socket with
address a - 1 and its type and body unchanged; without room there, or without a socket, it is lost; it is not dispatched. LAST_ACT
of a present socket is a word read during this cycle, room or not (R115). With less than a frame at the socket S3 ends the cycle
(R132): each active port is powered down exactly when POWERDOWN_US have elapsed since its LAST_ACT, refreshed in this cycle, and
the TeSet events come in order, the forward's before S3's. -/
def Obligations.PlugFrameForwardsDown : Prop :=
  ∀ (s : State) (f : Frame) (rest : List Byte), CycleReady s → s.phase = .idle → s.cfg.plug.present = true →
    s.plug.rx = f.b0 :: f.b1 :: f.b2 :: f.b3 :: f.b4 :: rest → 0 < f.b0.toNat / 16 →
    ∃ t, exec .linkLoop s = .next t ∧ t.faults = [] ∧ t.plug.rx = rest
      ∧ t.plug.inCount = (s.plug.inCount + 1) % 2 ^ s.cfg.counterWidth
      ∧ (∃ es, t.events = s.events ++ es ∧ es.all (fun e => !e.dispatches .plug) = true)
      ∧ (s.cfg.socket.present = true → s.socket.tx.length + 5 ≤ s.cfg.socket.txCap →
          ∃ h : Byte, h.toNat = (f.b0.toNat / 16 - 1) * 16 + f.b0.toNat % 16
            ∧ t.socket.tx = s.socket.tx ++ [h, f.b1, f.b2, f.b3, f.b4]
            ∧ t.socket.outCount = (s.socket.outCount + 1) % 2 ^ s.cfg.counterWidth)
      ∧ (s.cfg.socket.present = true → s.cfg.socket.txCap < s.socket.tx.length + 5 →
          t.socket.tx = s.socket.tx ∧ t.socket.outCount = s.socket.outCount)
      ∧ (s.cfg.socket.present = true → ∃ T, s.time ≤ T ∧ T ≤ t.time ∧ (s.held = true → T = s.time)
          ∧ t.socket.lastAct = T % 2 ^ s.cfg.clockWidth)
      ∧ (s.cfg.socket.present = false → t.socket = s.socket)
      ∧ ((s.cfg.socket.present = true → s.socket.rx.length < 5) → t.phase = .idle ∧ t.dispSrc = s.dispSrc ∧ t.dispFrame = s.dispFrame
        ∧ ∃ (T : Port → Nat) (off : Port → Bool), s.time ≤ T .plug ∧ T .plug ≤ T .socket ∧ T .socket ≤ t.time
          ∧ (s.held = true → t.time = s.time)
          ∧ (off .plug = true ↔ s.plug.active = true
            ∧ s.cfg.powerdownUs ≤ elapsed s.cfg.clockWidth t.plug.lastAct (T .plug % 2 ^ s.cfg.clockWidth))
          ∧ (off .socket = true ↔ s.cfg.socket.present = true
            ∧ s.cfg.powerdownUs ≤ elapsed s.cfg.clockWidth t.socket.lastAct (T .socket % 2 ^ s.cfg.clockWidth))
          ∧ t.plug.active = (s.plug.active && !off .plug)
          ∧ t.plug.te = (if off .plug && s.cfg.plug.hasTe then false else s.plug.te)
          ∧ (s.cfg.socket.present = true → t.socket.active = !off .socket
            ∧ t.socket.te = (if s.cfg.socket.hasTe && off .socket then false
                else if s.cfg.socket.hasTe && !s.socket.active then true else s.socket.te))
          ∧ t.events = s.events
            ++ (if s.cfg.socket.present && s.cfg.socket.hasTe && !s.socket.active then [.teSet .socket true] else [])
            ++ (if off .plug && s.cfg.plug.hasTe then [.teSet .plug false] else [])
            ++ (if off .socket && s.cfg.socket.hasTe then [.teSet .socket false] else []))

/-- 42_link.md R128: a plug frame with address 0 is latched and dispatched, never forwarded, and the cycle stops in WAIT_PLUG. -/
def Obligations.PlugFrameForThisDevice : Prop :=
  ∀ (s : State) (f : Frame) (rest : List Byte), CycleReady s → s.phase = .idle → s.cfg.plug.present = true →
    s.plug.rx = f.b0 :: f.b1 :: f.b2 :: f.b3 :: f.b4 :: rest → f.b0.toNat / 16 = 0 →
    exec .linkLoop s = .next { s.now.2 with
      plug := { s.plug with
        rx := rest
        toStamp := 0
        inCount := (s.plug.inCount + 1) % 2 ^ s.cfg.counterWidth
        lastAct := s.now.1 }
      events := s.events ++ [.dispatch .plug f], dispSrc := .plug, dispFrame := f, phase := .waitPlug, result := .unit }

/-- 42_link.md R130, R131 and R138: a socket frame is taken and counted; with a present plug, an address below 15 and room it is sent
on the plug with address plus one; whatever its address and type it is dispatched as received, and the cycle stops in
WAIT_SOCKET. Reached by LINK_LOOP with less than a frame at the plug or with a plug frame to forward down (R125, R127), and by
LINK_HANDLER_DONE from the plug's window. A forward, room or not, makes the plug active and sets its LAST_ACT to the clock (R115). -/
def Obligations.SocketFrameForwardsUpAndDispatches : Prop :=
  ∀ (i : Instr) (s : State) (f : Frame) (rest : List Byte), CycleReady s → s.cfg.socket.present = true →
    (i = .linkLoop ∧ s.phase = .idle
        ∧ (s.cfg.plug.present = true → s.plug.rx.length < 5 ∨ ∃ b bs, s.plug.rx = b :: bs ∧ 0 < b.toNat / 16)
      ∨ i = .linkHandlerDone ∧ s.phase = .waitPlug) →
    s.socket.rx = f.b0 :: f.b1 :: f.b2 :: f.b3 :: f.b4 :: rest →
    ∃ t, exec i s = .next t ∧ t.faults = [] ∧ t.socket.rx = rest
      ∧ t.socket.inCount = (s.socket.inCount + 1) % 2 ^ s.cfg.counterWidth
      ∧ t.phase = .waitSocket ∧ t.dispSrc = .socket ∧ t.dispFrame = f
      ∧ (∃ es, t.events = s.events ++ es ++ [.dispatch .socket f] ∧ es.all (fun e => !e.dispatches .socket) = true)
      ∧ (s.cfg.plug.present = true → f.b0.toNat / 16 < 15 → s.plug.tx.length + 5 ≤ s.cfg.plug.txCap →
          ∃ h : Byte, h.toNat = (f.b0.toNat / 16 + 1) * 16 + f.b0.toNat % 16
            ∧ t.plug.tx = s.plug.tx ++ [h, f.b1, f.b2, f.b3, f.b4]
            ∧ t.plug.outCount = (s.plug.outCount + 1) % 2 ^ s.cfg.counterWidth)
      ∧ (s.cfg.plug.present = true → f.b0.toNat / 16 < 15 →
          t.plug.active = true ∧ t.plug.lastAct = t.time % 2 ^ s.cfg.clockWidth)
      ∧ (s.cfg.plug.present = false ∨ f.b0.toNat / 16 = 15 ∨ s.cfg.plug.txCap < s.plug.tx.length + 5 →
          t.plug.tx = s.plug.tx ∧ t.plug.outCount = s.plug.outCount)

/-- 42_link.md R132 and R133: S3, by every way into it without a forward. LINK_LOOP polls each present port, LINK_HANDLER_DONE in the
plug's window a present socket and in the socket's window none (R125). Each polled port, at the time R its clock is read, starts
the timer of a first partial frame or drops a late one (41_port.md R108 to R111). Then each present port that is active is powered
down exactly when POWERDOWN_US have elapsed since its LAST_ACT at the time T its clock is read; PHASE becomes IDLE, and the TeSet
events come plug before socket. Nothing else changes; with no port present no register but PHASE (R142). -/
def Obligations.CycleEndsWithPowerDown : Prop :=
  ∀ (i : Instr) (s : State) (polled : Port → Bool), CycleReady s →
    i = .linkLoop ∧ s.phase = .idle ∧ (∀ p, polled p = (s.cfg.port p).present)
      ∨ i = .linkHandlerDone ∧ s.phase = .waitPlug ∧ polled .plug = false ∧ polled .socket = s.cfg.socket.present
      ∨ i = .linkHandlerDone ∧ s.phase = .waitSocket ∧ (∀ p, polled p = false) →
    (∀ p, polled p = true → (s.port p).rx.length < 5) →
    ∃ (t : State) (R T : Port → Nat) (arms drops off : Port → Bool), exec i s = .next t
      ∧ s.time ≤ R .plug ∧ R .plug ≤ R .socket ∧ R .socket ≤ T .plug ∧ T .plug ≤ T .socket ∧ T .socket ≤ t.time
      ∧ (s.held = true → t.time = s.time)
      ∧ (∀ p, arms p = true ↔ polled p = true ∧ (s.port p).rx ≠ [] ∧ (s.port p).toStamp = 0)
      ∧ (∀ p, drops p = true ↔ polled p = true ∧ (s.port p).rx ≠ [] ∧ (s.port p).toStamp ≠ 0
          ∧ s.cfg.partialTimeoutUs < elapsed s.cfg.clockWidth (s.port p).toStamp (R p % 2 ^ s.cfg.clockWidth))
      ∧ (∀ p, off p = true ↔ (s.cfg.port p).present = true ∧ (s.port p).active = true
          ∧ s.cfg.powerdownUs ≤ elapsed s.cfg.clockWidth (s.port p).lastAct (T p % 2 ^ s.cfg.clockWidth))
      ∧ (∀ p, t.port p = { s.port p with
          rx := if drops p then [] else (s.port p).rx
          toStamp := if arms p then R p % 2 ^ s.cfg.clockWidth else if drops p then 0 else (s.port p).toStamp
          active := (s.port p).active && !off p
          te := if off p && (s.cfg.port p).hasTe then false else (s.port p).te })
      ∧ t.events = s.events ++ (if off .plug && s.cfg.plug.hasTe then [.teSet .plug false] else [])
          ++ (if off .socket && s.cfg.socket.hasTe then [.teSet .socket false] else [])
      ∧ t = { s with
          plug := t.plug, socket := t.socket, phase := .idle, events := t.events, time := t.time, draws := t.draws, result := .unit }

/-- 42_link.md R135: LINK_IDLE is true exactly when every present port passes its idle test at the time T it reads, plug before
socket, and true with no port present; it writes no register. -/
def Obligations.LinkIdleIsConjunction : Prop :=
  ∀ s : State, LinkReady s →
    ∃ (t : State) (b : Bool) (T : Port → Nat), exec .linkIdle s = .next t ∧ t.result = .flag b
      ∧ s.time ≤ T .plug ∧ T .plug ≤ T .socket ∧ T .socket ≤ t.time ∧ (s.held = true → t.time = s.time)
      ∧ (b = true ↔ ∀ p, (s.cfg.port p).present = true → (s.port p).rx = [] ∧ (s.port p).toStamp = 0
          ∧ s.cfg.quietUs ≤ elapsed s.cfg.clockWidth (s.port p).lastAct (T p % 2 ^ s.cfg.clockWidth))
      ∧ t = { s with time := t.time, draws := t.draws, result := .flag b }

/-- 42_link.md R136: LINK_SEND on a present port has the whole effect of PORT_SEND and returns its success flag, inside a handler
window too; on an absent position it faults. -/
def Obligations.LinkSendIsPortSend : Prop :=
  ∀ (p : Port) (a : Nib) (f : Frame) (s : State), LinkReady s →
    ((s.cfg.port p).present = true →
      ∃ t, exec (.linkSend p a f) s = .next t
        ∧ exec (.portSend p a f) { s with issuer := .sequencer } = .next { t with issuer := .sequencer }
        ∧ t.issuer = s.issuer
        ∧ (t.result = .flag true ↔ (s.port p).tx.length + 5 ≤ (s.cfg.port p).txCap)
        ∧ (t.result = .flag false ↔ (s.cfg.port p).txCap < (s.port p).tx.length + 5))
    ∧ ((s.cfg.port p).present = false →
      exec (.linkSend p a f) s = .next { s with faults := s.faults ++ [.absentPort 0x24 p] })

/-- 42_link.md R137: LINK_READ_STATS returns the two counters of a present port and writes no register; on an absent position it
faults. -/
def Obligations.LinkReadStatsReturnsCounters : Prop :=
  ∀ (p : Port) (s : State), LinkReady s →
    exec (.linkReadStats p) s =
      if (s.cfg.port p).present then .next { s with result := .stats (s.port p).inCount (s.port p).outCount }
      else .next { s with faults := s.faults ++ [.absentPort 0x25 p] }

/-- 30_encoding.md R84 and 42_link.md R133: from a ready link with no cycle open, a poll cycle whose handlers do nothing ends with
PHASE IDLE and no fault, after at most two handler windows. -/
def Obligations.PollCycleEndsIdle : Prop :=
  ∀ s : State, CycleReady s → s.phase = .idle →
    ∃ t, cycle s = .next t ∧ t.phase = .idle ∧ t.faults = [] ∧ t.result = .unit

/-- The spec's inference 70_reset_and_hazards.md R168 and 41_port.md R113: a poll cycle takes at most one frame from each port. What it
takes from RX[p] is five bytes in front, or a partial frame of 1 to 4 bytes that is all of it, or nothing. -/
def Obligations.OneFramePerPortPerCycle : Prop :=
  ∀ (s t : State) (p : Port), CycleReady s → s.phase = .idle → cycle s = .next t →
    (t.port p).rx = (s.port p).rx ∨ (t.port p).rx = (s.port p).rx.drop 5

/-- 10_state.md R42 and 20_memory.md R47, R49, of LINK_LOOP and LINK_HANDLER_DONE with nothing in the gaps: LINK_BEGUN stays, an absent
position and every PORT_BEGUN stay, bytes leave RX[p] at its old end only and enter TX[p] at its young end only, and the
dispatch latch changes only where the cycle stops in a window. -/
def Obligations.CycleFrame : Prop :=
  ∀ (i : Instr) (s t : State), CycleReady s → i = .linkLoop ∨ i = .linkHandlerDone → exec i s = .next t →
    t.linkBegun = s.linkBegun ∧ t.cfg = s.cfg ∧ t.issuer = s.issuer ∧ t.program = s.program ∧ t.gaps = s.gaps
    ∧ (∀ p, (s.cfg.port p).present = false → t.port p = s.port p)
    ∧ (∀ p, (t.port p).begun = (s.port p).begun ∧ (t.port p).rx <:+ (s.port p).rx ∧ (s.port p).tx <+: (t.port p).tx)
    ∧ (t.phase = .idle → t.dispSrc = s.dispSrc ∧ t.dispFrame = s.dispFrame)

/-- What falls into a gap (20_memory.md R59, 70_reset_and_hazards.md R161; the gaps are the model's form, log entry 6). A move in the
gap before the first port operation of LINK_LOOP or LINK_HANDLER_DONE acts as the same move on the line before it; a fault it
raises, or a reset, ends the cycle there. A byte that arrives at the socket between S1's and S2's receive is there for S2.

The second clause is the model's choice, no rule of the spec: that a LINK_LOOP in that gap runs its own cycle is DEDUCED from R123 and
R148 (log entry 6), and that the interrupted cycle then goes on with receives of its own is a DESIGN CHOICE (log entry 22).
D17 says that the source does not define re-entry, and I14 and R168 can be read otherwise. -/
def Obligations.GapMovesFallBetweenPortOperations : Prop :=
  ∀ (i : Instr) (s : State) (m : Move) (ms : List Move) (gs : List (List Move)), LinkReady s →
    i = .linkLoop ∧ s.phase = .idle ∧ s.cfg.plug.present = true
      ∨ i = .linkHandlerDone ∧ (s.phase = .waitPlug ∧ s.cfg.socket.present = true
          ∨ s.phase = .waitSocket ∧ s.cfg.plug.present = true) →
    (∀ u, (∀ issuer w, m = .word issuer w → decodeWord w ≠ .linkLoop ∧ decodeWord w ≠ .linkHandlerDone) →
      step { s with program := ⟨m, gs⟩ :: s.program } = .next u →
      exec i { s with gaps := (m :: ms) :: gs }
        = if u.faults = [] ∧ m ≠ .reset then exec i { u with gaps := ms :: u.gaps } else .next u)
    ∧ (∀ (issuer : Issuer) (c : Command) (u : State), m = .word issuer (.command c) → c.op = 0x21 → i = .linkLoop →
      exec .linkLoop { s with issuer := issuer, gaps := [] } = .next u → u.phase = .idle →
      exec .linkLoop { s with gaps := [m :: ms] } = exec .linkLoop { u with gaps := [ms] })
    ∧ (∀ b : Byte, i = .linkLoop → s.cfg.socket.present = true → s.plug.rx = [] → s.socket.rx.length < s.cfg.socket.rxCap →
      exec .linkLoop { s with gaps := [] :: [.lineRx .socket b] :: gs }
        = exec .linkLoop { s with socket := { s.socket with rx := s.socket.rx ++ [b] }, gaps := [] :: [] :: gs })

/-- 30_encoding.md R84: SEND_MIDI and SEND_PULSE on a present port of a begun link queue the frame of type MIDI or Pulse with the given
address and report the send's success. -/
def Obligations.PseudoSendsQueueFrames : Prop :=
  ∀ (p : Port) (a : Nib) (m : Midi) (u : Pulse) (s : State), LinkReady s → (s.cfg.port p).present = true →
    (s.port p).tx.length + 5 ≤ (s.cfg.port p).txCap →
    (∃ (t : State) (h : Byte), sendMidi p a m s = .next t ∧ t.result = .flag true ∧ h.toNat = a.toNat * 16
      ∧ (t.port p).tx = (s.port p).tx ++ [h, m.m0, m.m1, m.m2, m.m3])
    ∧ (∃ (t : State) (h b1 b2 b3 b4 : Byte), sendPulse p a u s = .next t ∧ t.result = .flag true
      ∧ h.toNat = a.toNat * 16 + 1
      ∧ b1.toNat = u.fadeOut.toNat * 32 + u.fadeIn.toNat * 16 + u.port.toNat
      ∧ b2.toNat * 256 + b3.toNat
          = (quantize s.cfg .power u.power).toNat / 256 * 4096 + (quantize s.cfg .duration u.duration).toNat / 256 * 256
            + (quantize s.cfg .power u.power).toNat % 256
      ∧ b4.toNat = (quantize s.cfg .duration u.duration).toNat % 256
      ∧ (t.port p).tx = (s.port p).tx ++ [h, b1, b2, b3, b4])

/-- The spec's inference 42_link.md R141: a frame injected with address a is relayed at most a times downstream and at most 15 - a
times upstream. -/
def Obligations.RelaysAreBounded : Prop :=
  ∀ (a : Nib) (n : Nat), 16 ≤ n → relays downAddress n a = a.toNat ∧ relays upAddress n a = 15 - a.toNat

/-- 60_exceptions.md R158 (of a chain of several devices; log entry 17): on every wire of a chain, downward (socket of a device to
plug of the next) and upward (plug to socket of the one before), a byte that leaves the one end arrives at the other, behind
what is there, unless the draw loses it, which it may only while the sending position has a TE pin and TE is deasserted. -/
def Obligations.ChainWiresHandBytesOver : Prop :=
  ∀ (ds : List State) (i j : Fin ds.length) (p q : Port) (x : Byte) (xs : List Byte) (gaps : List (List Move)) (rest : List Line)
      (lost : Bool),
    p = .socket ∧ q = .plug ∧ j.val = i.val + 1 ∨ p = .plug ∧ q = .socket ∧ i.val = j.val + 1 →
    ds[i].program = ⟨.lineTx p, gaps⟩ :: rest → ds[i].faults = [] → ds[j].faults = [] →
    (ds[i].cfg.port p).present = true → (ds[j].cfg.port q).present = true → (ds[j].port q).begun = true →
    (ds[i].port p).tx = x :: xs → (ds[j].port q).rx.length < (ds[j].cfg.port q).rxCap →
    chainStep ds i lost
      = .next ((ds.set i (({ ds[i] with program := rest } : State).setPort p { ds[i].port p with tx := xs })).set j
          (if lost = true ∧ (ds[i].cfg.port p).hasTe = true ∧ (ds[i].port p).te = false then ds[j]
            else ds[j].setPort q { ds[j].port q with rx := (ds[j].port q).rx ++ [x] }))

/-! ### The machine as a whole -/

/-- The invariant holds at reset, for every configuration. -/
def Obligations.ResetMeetsInvariant : Prop := Inv State.reset

/-- Every step keeps the invariant: the FIFO bounds, the TE pin's agreement with ACTIVE, the widths of stamps and counters, the idle
timer of an empty RX, the reset values of absent and unbegun positions, PHASE never 3 and IDLE until the link has begun, a
begun link's ports begun, and at most one fault record (10_state.md R39, R44; 60_exceptions.md R148). -/
def Obligations.EveryStepKeepsInvariant : Prop :=
  ∀ s t : State, Inv s → step s = .next t → Inv t

/-- 10_state.md R32 and R33: FAULTS only grows and EVENTS is appended to, never rewritten; the configuration stays and time never
goes back, whatever the command and whatever falls into a cycle's gaps, but for a reset there (R161), past which only the
configuration and the lines still to come stay. -/
def Obligations.RecordsOnlyGrow : Prop :=
  ∀ (i : Instr) (s t : State), exec i s = .next t →
    t.cfg = s.cfg ∧ t.program = s.program ∧ ((∀ ms ∈ s.gaps, Move.reset ∉ ms) → Grows s t)
end

