-- ==== Sys2Proof/Laws/State.lean ====
section
/-! SUPPORT. One lemma per field per update of the state, so that no proof unfolds a record update. -/

namespace Sys2Proof.Machine

/-! ### Positions -/

@[simp] theorem State.port_plug (s : State) : s.port .plug = s.plug := rfl
@[simp] theorem State.port_socket (s : State) : s.port .socket = s.socket := rfl
@[simp] theorem Config_port_plug (c : Config) : c.port .plug = c.plug := rfl
@[simp] theorem Config_port_socket (c : Config) : c.port .socket = c.socket := rfl
@[simp] theorem State.setPort_plug_plug (s : State) (r : PortRegs) : (s.setPort .plug r).plug = r := rfl
@[simp] theorem State.setPort_plug_socket (s : State) (r : PortRegs) : (s.setPort .plug r).socket = s.socket := rfl
@[simp] theorem State.setPort_socket_socket (s : State) (r : PortRegs) : (s.setPort .socket r).socket = r := rfl
@[simp] theorem State.setPort_socket_plug (s : State) (r : PortRegs) : (s.setPort .socket r).plug = s.plug := rfl
@[simp] theorem State.setPort_port_self (s : State) (p : Port) (r : PortRegs) : (s.setPort p r).port p = r := by
  cases p <;> rfl
theorem State.setPort_port_other (s : State) {p q : Port} (r : PortRegs) (h : q ≠ p) : (s.setPort p r).port q = s.port q := by
  cases p <;> cases q <;> first | rfl | exact absurd rfl h
@[simp] theorem State.setPort_setPort (s : State) (p : Port) (r r' : PortRegs) :
    (s.setPort p r).setPort p r' = s.setPort p r' := by
  cases p <;> rfl

/-! ### setPort -/

@[simp] theorem State.setPort_cfg (s : State) (p : Port) (r : PortRegs) : (s.setPort p r).cfg = s.cfg := by
  cases p <;> rfl
@[simp] theorem State.setPort_linkBegun (s : State) (p : Port) (r : PortRegs) : (s.setPort p r).linkBegun = s.linkBegun := by
  cases p <;> rfl
@[simp] theorem State.setPort_phase (s : State) (p : Port) (r : PortRegs) : (s.setPort p r).phase = s.phase := by
  cases p <;> rfl
@[simp] theorem State.setPort_dispSrc (s : State) (p : Port) (r : PortRegs) : (s.setPort p r).dispSrc = s.dispSrc := by
  cases p <;> rfl
@[simp] theorem State.setPort_dispFrame (s : State) (p : Port) (r : PortRegs) : (s.setPort p r).dispFrame = s.dispFrame := by
  cases p <;> rfl
@[simp] theorem State.setPort_faults (s : State) (p : Port) (r : PortRegs) : (s.setPort p r).faults = s.faults := by
  cases p <;> rfl
@[simp] theorem State.setPort_events (s : State) (p : Port) (r : PortRegs) : (s.setPort p r).events = s.events := by
  cases p <;> rfl
@[simp] theorem State.setPort_time (s : State) (p : Port) (r : PortRegs) : (s.setPort p r).time = s.time := by
  cases p <;> rfl
@[simp] theorem State.setPort_held (s : State) (p : Port) (r : PortRegs) : (s.setPort p r).held = s.held := by
  cases p <;> rfl
@[simp] theorem State.setPort_draws (s : State) (p : Port) (r : PortRegs) : (s.setPort p r).draws = s.draws := by
  cases p <;> rfl
@[simp] theorem State.setPort_result (s : State) (p : Port) (r : PortRegs) : (s.setPort p r).result = s.result := by
  cases p <;> rfl
@[simp] theorem State.setPort_issuer (s : State) (p : Port) (r : PortRegs) : (s.setPort p r).issuer = s.issuer := by
  cases p <;> rfl
@[simp] theorem State.setPort_program (s : State) (p : Port) (r : PortRegs) : (s.setPort p r).program = s.program := by
  cases p <;> rfl
@[simp] theorem State.setPort_gaps (s : State) (p : Port) (r : PortRegs) : (s.setPort p r).gaps = s.gaps := by
  cases p <;> rfl

/-! ### emit -/

@[simp] theorem State.emit_cfg (s : State) (e : Event) : (s.emit e).cfg = s.cfg := rfl
@[simp] theorem State.emit_linkBegun (s : State) (e : Event) : (s.emit e).linkBegun = s.linkBegun := rfl
@[simp] theorem State.emit_phase (s : State) (e : Event) : (s.emit e).phase = s.phase := rfl
@[simp] theorem State.emit_dispSrc (s : State) (e : Event) : (s.emit e).dispSrc = s.dispSrc := rfl
@[simp] theorem State.emit_dispFrame (s : State) (e : Event) : (s.emit e).dispFrame = s.dispFrame := rfl
@[simp] theorem State.emit_faults (s : State) (e : Event) : (s.emit e).faults = s.faults := rfl
@[simp] theorem State.emit_time (s : State) (e : Event) : (s.emit e).time = s.time := rfl
@[simp] theorem State.emit_held (s : State) (e : Event) : (s.emit e).held = s.held := rfl
@[simp] theorem State.emit_draws (s : State) (e : Event) : (s.emit e).draws = s.draws := rfl
@[simp] theorem State.emit_result (s : State) (e : Event) : (s.emit e).result = s.result := rfl
@[simp] theorem State.emit_issuer (s : State) (e : Event) : (s.emit e).issuer = s.issuer := rfl
@[simp] theorem State.emit_program (s : State) (e : Event) : (s.emit e).program = s.program := rfl
@[simp] theorem State.emit_gaps (s : State) (e : Event) : (s.emit e).gaps = s.gaps := rfl
@[simp] theorem State.emit_plug (s : State) (e : Event) : (s.emit e).plug = s.plug := rfl
@[simp] theorem State.emit_socket (s : State) (e : Event) : (s.emit e).socket = s.socket := rfl
@[simp] theorem State.emit_port (s : State) (e : Event) (p : Port) : (s.emit e).port p = s.port p := by
  cases p <;> rfl
@[simp] theorem State.emit_events (s : State) (e : Event) : (s.emit e).events = s.events ++ [e] := rfl

/-! ### raise -/

@[simp] theorem State.raise_cfg (s : State) (r : FaultRecord) : (s.raise r).cfg = s.cfg := rfl
@[simp] theorem State.raise_linkBegun (s : State) (r : FaultRecord) : (s.raise r).linkBegun = s.linkBegun := rfl
@[simp] theorem State.raise_phase (s : State) (r : FaultRecord) : (s.raise r).phase = s.phase := rfl
@[simp] theorem State.raise_dispSrc (s : State) (r : FaultRecord) : (s.raise r).dispSrc = s.dispSrc := rfl
@[simp] theorem State.raise_dispFrame (s : State) (r : FaultRecord) : (s.raise r).dispFrame = s.dispFrame := rfl
@[simp] theorem State.raise_events (s : State) (r : FaultRecord) : (s.raise r).events = s.events := rfl
@[simp] theorem State.raise_time (s : State) (r : FaultRecord) : (s.raise r).time = s.time := rfl
@[simp] theorem State.raise_held (s : State) (r : FaultRecord) : (s.raise r).held = s.held := rfl
@[simp] theorem State.raise_draws (s : State) (r : FaultRecord) : (s.raise r).draws = s.draws := rfl
@[simp] theorem State.raise_result (s : State) (r : FaultRecord) : (s.raise r).result = s.result := rfl
@[simp] theorem State.raise_issuer (s : State) (r : FaultRecord) : (s.raise r).issuer = s.issuer := rfl
@[simp] theorem State.raise_program (s : State) (r : FaultRecord) : (s.raise r).program = s.program := rfl
@[simp] theorem State.raise_gaps (s : State) (r : FaultRecord) : (s.raise r).gaps = s.gaps := rfl
@[simp] theorem State.raise_plug (s : State) (r : FaultRecord) : (s.raise r).plug = s.plug := rfl
@[simp] theorem State.raise_socket (s : State) (r : FaultRecord) : (s.raise r).socket = s.socket := rfl
@[simp] theorem State.raise_port (s : State) (r : FaultRecord) (p : Port) : (s.raise r).port p = s.port p := by
  cases p <;> rfl
@[simp] theorem State.raise_faults (s : State) (r : FaultRecord) : (s.raise r).faults = s.faults ++ [r] := rfl

/-! ### now -/

@[simp] theorem State.now_cfg (s : State) : s.now.2.cfg = s.cfg := by
  unfold State.now; split <;> rfl
@[simp] theorem State.now_linkBegun (s : State) : s.now.2.linkBegun = s.linkBegun := by
  unfold State.now; split <;> rfl
@[simp] theorem State.now_phase (s : State) : s.now.2.phase = s.phase := by
  unfold State.now; split <;> rfl
@[simp] theorem State.now_dispSrc (s : State) : s.now.2.dispSrc = s.dispSrc := by
  unfold State.now; split <;> rfl
@[simp] theorem State.now_dispFrame (s : State) : s.now.2.dispFrame = s.dispFrame := by
  unfold State.now; split <;> rfl
@[simp] theorem State.now_faults (s : State) : s.now.2.faults = s.faults := by
  unfold State.now; split <;> rfl
@[simp] theorem State.now_events (s : State) : s.now.2.events = s.events := by
  unfold State.now; split <;> rfl
@[simp] theorem State.now_held (s : State) : s.now.2.held = s.held := by
  unfold State.now; split <;> rfl
@[simp] theorem State.now_result (s : State) : s.now.2.result = s.result := by
  unfold State.now; split <;> rfl
@[simp] theorem State.now_issuer (s : State) : s.now.2.issuer = s.issuer := by
  unfold State.now; split <;> rfl
@[simp] theorem State.now_program (s : State) : s.now.2.program = s.program := by
  unfold State.now; split <;> rfl
@[simp] theorem State.now_gaps (s : State) : s.now.2.gaps = s.gaps := by
  unfold State.now; split <;> rfl
@[simp] theorem State.now_plug (s : State) : s.now.2.plug = s.plug := by
  unfold State.now; split <;> rfl
@[simp] theorem State.now_socket (s : State) : s.now.2.socket = s.socket := by
  unfold State.now; split <;> rfl
@[simp] theorem State.now_port (s : State) (p : Port) : s.now.2.port p = s.port p := by
  cases p <;> simp
/-- A clock read returns the time after it, modulo the clock's width, and time has not gone back. -/
theorem State.now_word (s : State) : s.now.1 = s.now.2.time % 2 ^ s.cfg.clockWidth := by
  unfold State.now; split <;> rfl
theorem State.now_time_le (s : State) : s.time ≤ s.now.2.time := by
  unfold State.now; split <;> simp
theorem State.now_lt (s : State) : s.now.1 < 2 ^ s.cfg.clockWidth := by
  rw [State.now_word]; exact Nat.mod_lt _ (Nat.two_pow_pos _)
/-- A held clock stands. -/
theorem State.now_of_held (s : State) (h : s.held = true) : s.now = (s.time % 2 ^ s.cfg.clockWidth, s) := by
  unfold State.now; rw [h]

/-! ### setActive and assertTe -/

@[simp] theorem State.setActive_cfg (s : State) (p : Port) (b : Bool) : (s.setActive p b).cfg = s.cfg := by
  unfold State.setActive; split <;> simp
@[simp] theorem State.setActive_linkBegun (s : State) (p : Port) (b : Bool) : (s.setActive p b).linkBegun = s.linkBegun := by
  unfold State.setActive; split <;> simp
@[simp] theorem State.setActive_phase (s : State) (p : Port) (b : Bool) : (s.setActive p b).phase = s.phase := by
  unfold State.setActive; split <;> simp
@[simp] theorem State.setActive_dispSrc (s : State) (p : Port) (b : Bool) : (s.setActive p b).dispSrc = s.dispSrc := by
  unfold State.setActive; split <;> simp
@[simp] theorem State.setActive_dispFrame (s : State) (p : Port) (b : Bool) : (s.setActive p b).dispFrame = s.dispFrame := by
  unfold State.setActive; split <;> simp
@[simp] theorem State.setActive_faults (s : State) (p : Port) (b : Bool) : (s.setActive p b).faults = s.faults := by
  unfold State.setActive; split <;> simp
@[simp] theorem State.setActive_time (s : State) (p : Port) (b : Bool) : (s.setActive p b).time = s.time := by
  unfold State.setActive; split <;> simp
@[simp] theorem State.setActive_held (s : State) (p : Port) (b : Bool) : (s.setActive p b).held = s.held := by
  unfold State.setActive; split <;> simp
@[simp] theorem State.setActive_draws (s : State) (p : Port) (b : Bool) : (s.setActive p b).draws = s.draws := by
  unfold State.setActive; split <;> simp
@[simp] theorem State.setActive_result (s : State) (p : Port) (b : Bool) : (s.setActive p b).result = s.result := by
  unfold State.setActive; split <;> simp
@[simp] theorem State.setActive_issuer (s : State) (p : Port) (b : Bool) : (s.setActive p b).issuer = s.issuer := by
  unfold State.setActive; split <;> simp
@[simp] theorem State.setActive_program (s : State) (p : Port) (b : Bool) : (s.setActive p b).program = s.program := by
  unfold State.setActive; split <;> simp
@[simp] theorem State.setActive_gaps (s : State) (p : Port) (b : Bool) : (s.setActive p b).gaps = s.gaps := by
  unfold State.setActive; split <;> simp
@[simp] theorem State.assertTe_cfg (s : State) (p : Port) : (s.assertTe p).cfg = s.cfg := by
  unfold State.assertTe; split <;> simp
@[simp] theorem State.assertTe_linkBegun (s : State) (p : Port) : (s.assertTe p).linkBegun = s.linkBegun := by
  unfold State.assertTe; split <;> simp
@[simp] theorem State.assertTe_phase (s : State) (p : Port) : (s.assertTe p).phase = s.phase := by
  unfold State.assertTe; split <;> simp
@[simp] theorem State.assertTe_dispSrc (s : State) (p : Port) : (s.assertTe p).dispSrc = s.dispSrc := by
  unfold State.assertTe; split <;> simp
@[simp] theorem State.assertTe_dispFrame (s : State) (p : Port) : (s.assertTe p).dispFrame = s.dispFrame := by
  unfold State.assertTe; split <;> simp
@[simp] theorem State.assertTe_faults (s : State) (p : Port) : (s.assertTe p).faults = s.faults := by
  unfold State.assertTe; split <;> simp
@[simp] theorem State.assertTe_time (s : State) (p : Port) : (s.assertTe p).time = s.time := by
  unfold State.assertTe; split <;> simp
@[simp] theorem State.assertTe_held (s : State) (p : Port) : (s.assertTe p).held = s.held := by
  unfold State.assertTe; split <;> simp
@[simp] theorem State.assertTe_draws (s : State) (p : Port) : (s.assertTe p).draws = s.draws := by
  unfold State.assertTe; split <;> simp
@[simp] theorem State.assertTe_result (s : State) (p : Port) : (s.assertTe p).result = s.result := by
  unfold State.assertTe; split <;> simp
@[simp] theorem State.assertTe_issuer (s : State) (p : Port) : (s.assertTe p).issuer = s.issuer := by
  unfold State.assertTe; split <;> simp
@[simp] theorem State.assertTe_program (s : State) (p : Port) : (s.assertTe p).program = s.program := by
  unfold State.assertTe; split <;> simp
@[simp] theorem State.assertTe_gaps (s : State) (p : Port) : (s.assertTe p).gaps = s.gaps := by
  unfold State.assertTe; split <;> simp
@[simp] theorem State.setActive_port_self (s : State) (p : Port) (b : Bool) :
    (s.setActive p b).port p
      = { s.port p with active := b, te := if (s.cfg.port p).hasTe then b else (s.port p).te } := by
  unfold State.setActive; split <;> simp_all
theorem State.setActive_port_other (s : State) {p q : Port} (b : Bool) (h : q ≠ p) :
    (s.setActive p b).port q = s.port q := by
  unfold State.setActive; split <;> simp [State.setPort_port_other, h]
theorem State.setActive_events (s : State) (p : Port) (b : Bool) :
    (s.setActive p b).events = s.events ++ (if (s.cfg.port p).hasTe then [.teSet p b] else []) := by
  unfold State.setActive; split <;> simp_all
@[simp] theorem State.assertTe_port_self (s : State) (p : Port) :
    (s.assertTe p).port p
      = { s.port p with
          active := true
          te := if (s.port p).active then (s.port p).te else if (s.cfg.port p).hasTe then true else (s.port p).te } := by
  unfold State.assertTe; split
  · rename_i h; rw [← h]
  · simp
theorem State.assertTe_port_other (s : State) {p q : Port} (h : q ≠ p) : (s.assertTe p).port q = s.port q := by
  unfold State.assertTe; split
  · rfl
  · exact State.setActive_port_other s true h
theorem State.assertTe_events (s : State) (p : Port) :
    (s.assertTe p).events
      = s.events ++ (if (s.port p).active then [] else if (s.cfg.port p).hasTe then [.teSet p true] else []) := by
  unfold State.assertTe; split
  · simp
  · rw [State.setActive_events]

/-! ### begin and load -/

@[simp] theorem State.begin_cfg (s : State) (ls : List Line) (g : List (List Move)) (i : Issuer) :
    (s.begin ls g i).cfg = s.cfg := rfl
@[simp] theorem State.begin_linkBegun (s : State) (ls : List Line) (g : List (List Move)) (i : Issuer) :
    (s.begin ls g i).linkBegun = s.linkBegun := rfl
@[simp] theorem State.begin_phase (s : State) (ls : List Line) (g : List (List Move)) (i : Issuer) :
    (s.begin ls g i).phase = s.phase := rfl
@[simp] theorem State.begin_dispSrc (s : State) (ls : List Line) (g : List (List Move)) (i : Issuer) :
    (s.begin ls g i).dispSrc = s.dispSrc := rfl
@[simp] theorem State.begin_dispFrame (s : State) (ls : List Line) (g : List (List Move)) (i : Issuer) :
    (s.begin ls g i).dispFrame = s.dispFrame := rfl
@[simp] theorem State.begin_faults (s : State) (ls : List Line) (g : List (List Move)) (i : Issuer) :
    (s.begin ls g i).faults = s.faults := rfl
@[simp] theorem State.begin_events (s : State) (ls : List Line) (g : List (List Move)) (i : Issuer) :
    (s.begin ls g i).events = s.events := rfl
@[simp] theorem State.begin_time (s : State) (ls : List Line) (g : List (List Move)) (i : Issuer) :
    (s.begin ls g i).time = s.time := rfl
@[simp] theorem State.begin_held (s : State) (ls : List Line) (g : List (List Move)) (i : Issuer) :
    (s.begin ls g i).held = s.held := rfl
@[simp] theorem State.begin_draws (s : State) (ls : List Line) (g : List (List Move)) (i : Issuer) :
    (s.begin ls g i).draws = s.draws := rfl
@[simp] theorem State.begin_result (s : State) (ls : List Line) (g : List (List Move)) (i : Issuer) :
    (s.begin ls g i).result = s.result := rfl
@[simp] theorem State.begin_plug (s : State) (ls : List Line) (g : List (List Move)) (i : Issuer) :
    (s.begin ls g i).plug = s.plug := rfl
@[simp] theorem State.begin_socket (s : State) (ls : List Line) (g : List (List Move)) (i : Issuer) :
    (s.begin ls g i).socket = s.socket := rfl
@[simp] theorem State.begin_program (s : State) (ls : List Line) (g : List (List Move)) (i : Issuer) :
    (s.begin ls g i).program = ls := rfl
@[simp] theorem State.begin_gaps (s : State) (ls : List Line) (g : List (List Move)) (i : Issuer) :
    (s.begin ls g i).gaps = g := rfl
@[simp] theorem State.begin_issuer (s : State) (ls : List Line) (g : List (List Move)) (i : Issuer) :
    (s.begin ls g i).issuer = i := rfl
@[simp] theorem State.load_program (s : State) (ls : List Line) : (s.load ls).program = ls ++ s.program := rfl

/-! ### restart -/

@[simp] theorem State.restart_cfg (s : State) : s.restart.cfg = s.cfg := rfl
@[simp] theorem State.restart_port (s : State) (p : Port) : s.restart.port p = {} := by cases p <;> rfl
@[simp] theorem State.restart_plug (s : State) : s.restart.plug = {} := rfl
@[simp] theorem State.restart_socket (s : State) : s.restart.socket = {} := rfl
@[simp] theorem State.restart_linkBegun (s : State) : s.restart.linkBegun = false := rfl
@[simp] theorem State.restart_phase (s : State) : s.restart.phase = .idle := rfl
@[simp] theorem State.restart_dispSrc (s : State) : s.restart.dispSrc = .plug := rfl
@[simp] theorem State.restart_dispFrame (s : State) : s.restart.dispFrame = ⟨0, 0, 0, 0, 0⟩ := rfl
@[simp] theorem State.restart_faults (s : State) : s.restart.faults = [] := rfl
@[simp] theorem State.restart_events (s : State) : s.restart.events = [] := rfl
@[simp] theorem State.restart_time (s : State) : s.restart.time = Config.clockDraw s.cfg.clockId s.draws := rfl
@[simp] theorem State.restart_held (s : State) : s.restart.held = false := rfl
@[simp] theorem State.restart_draws (s : State) : s.restart.draws = s.draws + 1 := rfl
@[simp] theorem State.restart_result (s : State) : s.restart.result = .unit := rfl
@[simp] theorem State.restart_issuer (s : State) : s.restart.issuer = .host := rfl
@[simp] theorem State.restart_program (s : State) : s.restart.program = s.program := rfl
@[simp] theorem State.restart_gaps (s : State) : s.restart.gaps = [] := rfl

end Sys2Proof.Machine
end

