-- ==== Sys2Proof/Laws/Ops.lean ====
section
/-! SUPPORT. For each shared operation, what it can do: cited instead of unfolding it. -/

namespace Sys2Proof.Machine

/-! ### How operations follow one another -/

theorem whenRunning_of_running {s : State} (h : s.faults = []) (k : Step) : whenRunning s k = k := by
  unfold whenRunning; rw [h]

theorem whenRunning_stopped {s : State} (h : s.faults ≠ []) (k : Step) : whenRunning s k = .fault .stopped := by
  unfold whenRunning; split
  · exact absurd ‹_› h
  · rfl

theorem whenRunning_next {s t : State} {k : Step} (h : whenRunning s k = .next t) : s.faults = [] ∧ k = .next t := by
  unfold whenRunning at h; split at h
  · exact ⟨‹_›, h⟩
  · cases h

theorem answer_of_running {s : State} (h : s.faults = []) (r : Result) : answer s r = .next { s with result := r } :=
  whenRunning_of_running h _

theorem raising_of_running {s : State} (h : s.faults = []) (r : FaultRecord) : raising s r = .next (s.raise r) :=
  whenRunning_of_running h _

theorem andThen_of_running {s : State} (h : s.faults = []) (k : State → Step) : andThen (.next s) k = k s := by
  unfold andThen; simp only [h]

/-- Going on: either the first part left no fault and the rest ran, or the first part recorded a fault and that was all. -/
theorem andThen_next {o : Step} {k : State → Step} {t : State} (h : andThen o k = .next t) :
    (∃ u, o = .next u ∧ u.faults = [] ∧ k u = .next t) ∨ (o = .next t ∧ t.faults ≠ []) := by
  unfold andThen at h
  split at h
  · split at h
    · exact .inl ⟨_, rfl, ‹_›, h⟩
    · rename_i hf; cases h; exact .inr ⟨rfl, by simp [hf]⟩
  · cases h
  · cases h

theorem Ran.andThen_ok {α : Type} (a : α) (s : State) (k : α → State → Step) : (Ran.ok a s).andThen k = k a s := rfl

theorem Ran.bind_ok {α β : Type} (a : α) (s : State) (k : α → State → Ran β) : (Ran.ok a s).bind k = k a s := rfl

theorem Ran.finish_ok {α : Type} (a : α) (s : State) (f : α → Result) :
    (Ran.ok a s).finish f = .next { s with result := f a } := rfl

/-- A port operation inside a cycle: it returned a value and the rest ran, or it raised a fault and that was all. -/
theorem Ran.andThen_next {α : Type} {x : Ran α} {k : α → State → Step} {t : State} (h : x.andThen k = .next t) :
    (∃ a, x.val = some a ∧ k a x.state = .next t) ∨ (x.val = none ∧ t = x.state) := by
  unfold Ran.andThen at h
  split at h
  · exact .inl ⟨_, ‹_›, h⟩
  · cases h; exact .inr ⟨‹_›, rfl⟩

/-! ### The clock -/

/-- `elapsed` is the difference modulo the clock's width (R14). -/
theorem elapsed_lt (w t0 t1 : Nat) : elapsed w t0 t1 < 2 ^ w := Nat.mod_lt _ (Nat.two_pow_pos _)

/-- Straight after a stamp nothing has elapsed. -/
theorem elapsed_self (w t : Nat) : elapsed w t t = 0 := by
  unfold elapsed
  have h := Nat.mod_lt t (Nat.two_pow_pos w)
  have e := Nat.div_add_mod t (2 ^ w)
  have : t + (2 ^ w - t % 2 ^ w) = 2 ^ w * (t / 2 ^ w + 1) := by rw [Nat.mul_add]; omega
  rw [this, Nat.mul_mod_right]

/-! ### FIFOs and line agents -/

theorem popFrame_some {l rest : List Byte} {f : Frame} (h : popFrame l = some (f, rest)) : l = frameBytes f ++ rest := by
  unfold popFrame at h; split at h
  · cases h; rfl
  · cases h

theorem popFrame_bytes (f : Frame) (rest : List Byte) : popFrame (frameBytes f ++ rest) = some (f, rest) := rfl

theorem popFrame_none_iff (l : List Byte) : popFrame l = none ↔ l.length < 5 := by
  unfold popFrame; split
  · simp
  · rename_i h
    simp only [true_iff]
    rcases l with _ | ⟨a, _ | ⟨b, _ | ⟨c, _ | ⟨d, _ | ⟨e, r⟩⟩⟩⟩⟩
    case cons.cons.cons.cons.cons => exact absurd rfl (h a b c d e r)
    all_goals simp

/-- LINE_RX: it ran without a fault on a present, begun port, and either appended the byte or recorded the overrun. -/
theorem lineRx_next {p : Port} {b : Byte} {s t : State} (h : lineRx p b s = .next t) :
    s.faults = [] ∧ (s.cfg.port p).present = true ∧ (s.port p).begun = true
      ∧ (((s.cfg.port p).rxCap ≤ (s.port p).rx.length ∧ t = s.raise (.rxOverrun p b))
        ∨ ((s.port p).rx.length < (s.cfg.port p).rxCap
          ∧ t = s.setPort p { s.port p with rx := (s.port p).rx ++ [b] })) := by
  obtain ⟨hf, h⟩ := whenRunning_next h
  split at h
  · split at h
    · split at h
      · cases h; exact ⟨hf, ‹_›, ‹_›, .inl ⟨‹_›, rfl⟩⟩
      · cases h; exact ⟨hf, ‹_›, ‹_›, .inr ⟨by omega, rfl⟩⟩
    · cases h
  · cases h

/-- LINE_TX: it ran without a fault on a present port, and removed the oldest byte. -/
theorem lineTx_next {p : Port} {s t : State} (h : lineTx p s = .next t) :
    s.faults = [] ∧ (s.cfg.port p).present = true
      ∧ ∃ b rest, (s.port p).tx = b :: rest ∧ t = s.setPort p { s.port p with tx := rest } := by
  obtain ⟨hf, h⟩ := whenRunning_next h
  split at h
  · split at h
    · cases h
    · cases h; exact ⟨hf, ‹_›, _, _, ‹_›, rfl⟩
  · cases h

theorem lineRx_room {p : Port} {b : Byte} {s : State} (hf : s.faults = []) (hp : (s.cfg.port p).present = true)
    (hb : (s.port p).begun = true) (hr : (s.port p).rx.length < (s.cfg.port p).rxCap) :
    lineRx p b s = .next (s.setPort p { s.port p with rx := (s.port p).rx ++ [b] }) := by
  unfold lineRx
  rw [whenRunning_of_running hf, if_pos hp, if_pos hb, if_neg (by omega)]

/-! ### Port operations -/

/-- The checks of a port operation: passed, or the record of the one that failed. -/
theorem portOp_cases {α : Type} (op : Byte) (p : Port) (s : State) (k : Ran α) :
    ((s.cfg.port p).present = true ∧ (s.port p).begun = true ∧ portOp op p s k = k)
      ∨ (∃ r, portOp op p s k = .raised s r) := by
  unfold portOp; split
  · split
    · exact .inl ⟨‹_›, ‹_›, rfl⟩
    · exact .inr ⟨_, rfl⟩
  · exact .inr ⟨_, rfl⟩

theorem portOp_of_ready {α : Type} {op : Byte} {p : Port} {s : State} (hp : (s.cfg.port p).present = true)
    (hb : (s.port p).begun = true) (k : Ran α) : portOp op p s k = k := by
  unfold portOp; rw [if_pos hp, if_pos hb]

theorem portCommand_sequencer {op : Byte} {s : State} (hf : s.faults = []) (hi : s.issuer = .sequencer) (k : Step) :
    portCommand op s k = k := by
  unfold portCommand; rw [hi]; exact whenRunning_of_running hf k

theorem portCommand_next {op : Byte} {s t : State} {k : Step} (h : portCommand op s k = .next t) :
    s.faults = [] ∧ (k = .next t ∨ t = s.raise (.illegalCommand op)) := by
  unfold portCommand at h; split at h
  · obtain ⟨hf, h⟩ := whenRunning_next h; cases h; exact ⟨hf, .inr rfl⟩
  · obtain ⟨hf, h⟩ := whenRunning_next h; exact ⟨hf, .inl h⟩

/-- PORT_RECEIVE past its checks always returns a value: a frame exactly when five bytes are pending. -/
theorem receiveStep_val (p : Port) (s : State) :
    (receiveStep p s).val = some ((popFrame (s.port p).rx).map (·.1)) := by
  unfold receiveStep
  cases h : popFrame (s.port p).rx with
  | some x => rfl
  | none => dsimp only; repeat (first | split | rfl)

/-- What PORT_RECEIVE leaves: nothing changed but the clock, or one of the three writes of R109, R110 and R112. -/
theorem receiveStep_state (p : Port) (s : State) :
    (∃ f rest, popFrame (s.port p).rx = some (f, rest) ∧ (receiveStep p s).state = s.now.2.setPort p
        { s.port p with rx := rest, toStamp := 0, inCount := s.countUp (s.port p).inCount, lastAct := s.now.1 })
      ∨ (popFrame (s.port p).rx = none ∧
        ((receiveStep p s).state = s
          ∨ ((s.port p).rx ≠ [] ∧ (receiveStep p s).state = s.now.2.setPort p { s.port p with toStamp := s.now.1 })
          ∨ ((receiveStep p s).state = s.now.2.setPort p { s.port p with rx := [], toStamp := 0 })
          ∨ ((receiveStep p s).state = s.now.2))) := by
  unfold receiveStep
  cases h : popFrame (s.port p).rx with
  | some x => exact .inl ⟨x.1, x.2, rfl, rfl⟩
  | none =>
    refine .inr ⟨rfl, ?_⟩
    dsimp only
    split
    · exact .inl rfl
    · split
      · exact .inr (.inl ⟨‹_›, rfl⟩)
      · split
        · exact .inr (.inr (.inl rfl))
        · exact .inr (.inr (.inr rfl))

/-- PORT_POWER_DOWN past its checks: the clock may have been read, and an active port may have been made passive. -/
theorem powerDownStep_cases (p : Port) (s : State) :
    powerDownStep p s = .ok () s ∨ powerDownStep p s = .ok () s.now.2
      ∨ powerDownStep p s = .ok () (s.now.2.setActive p false) := by
  unfold powerDownStep; split
  · split
    · exact .inr (.inr rfl)
    · exact .inr (.inl rfl)
  · exact .inl rfl

/-- The end of PORT_SEND: nothing written, or five bytes pushed where there was room for them. -/
theorem sendWrite_cases (p : Port) (a : Nib) (f : Frame) (s : State) :
    ((s.cfg.port p).txCap < (s.port p).tx.length + 5 ∧ sendWrite p a f s = .ok false s)
      ∨ ((s.port p).tx.length + 5 ≤ (s.cfg.port p).txCap ∧ sendWrite p a f s = .ok true (s.setPort p
        { s.port p with tx := (s.port p).tx ++ frameBytes (sentFrame a f), outCount := s.countUp (s.port p).outCount })) := by
  unfold sendWrite State.txSpace frameLen; split
  · exact .inl ⟨by omega, rfl⟩
  · exact .inr ⟨by omega, rfl⟩

/-! ### The link's checks -/

theorem notReentrant_next {op : Byte} {s t : State} {k : Step} (h : notReentrant op s k = .next t) :
    (s.phase = .idle ∧ k = .next t) ∨ t = s.raise (.reentrant op s.phase) := by
  unfold notReentrant at h; split at h
  · exact .inl ⟨‹_›, h⟩
  all_goals (cases h; right; simp_all)

theorem notReentrant_idle {op : Byte} {s : State} (h : s.phase = .idle) (k : Step) : notReentrant op s k = k := by
  unfold notReentrant; rw [h]

theorem whenBegun_next {op : Byte} {q : Option Port} {s t : State} {k : Step} (h : whenBegun op q s k = .next t) :
    (s.linkBegun = true ∧ k = .next t) ∨ t = s.raise (.notBegun op q) := by
  unfold whenBegun at h; split at h
  · exact .inl ⟨‹_›, h⟩
  · cases h; exact .inr rfl

theorem whenBegun_of {op : Byte} {q : Option Port} {s : State} (h : s.linkBegun = true) (k : Step) :
    whenBegun op q s k = k := by
  unfold whenBegun; rw [if_pos h]

theorem whenPresent_next {op : Byte} {p : Port} {s t : State} {k : Step} (h : whenPresent op p s k = .next t) :
    ((s.cfg.port p).present = true ∧ k = .next t) ∨ t = s.raise (.absentPort op p) := by
  unfold whenPresent at h; split at h
  · exact .inl ⟨‹_›, h⟩
  · cases h; exact .inr rfl

/-! ### Inside a poll cycle -/

/-- Nothing happens in a gap when none is listed. -/
theorem gap_quiet {s : State} (h : s.gaps = []) (n : Nat) : gap n s = .next s := by
  cases n with
  | zero => rfl
  | succ n => unfold gap; rw [h]

/-- Inside a cycle the rest runs, unless a fault or a reset ended it. -/
theorem inCycle_next {o : Step} {k : State → Step} {t : State} (h : inCycle o k = .next t) :
    (∃ u, o = .next u ∧ u.faults = [] ∧ u.linkBegun = true ∧ k u = .next t) ∨ o = .next t := by
  rcases andThen_next h with ⟨u, h1, h2, h3⟩ | ⟨h1, _⟩
  · split at h3
    · exact .inl ⟨u, h1, h2, ‹_›, h3⟩
    · cases h3; exact .inr h1
  · exact .inr h1

theorem inCycle_running {s : State} (hf : s.faults = []) (hb : s.linkBegun = true) (k : State → Step) :
    inCycle (.next s) k = k s := by
  unfold inCycle; rw [andThen_of_running hf, if_pos hb]

/-- A fault or a reset ends the cycle in the state it leaves. -/
theorem inCycle_ended {s : State} (h : s.faults ≠ [] ∨ s.linkBegun = false) (k : State → Step) :
    inCycle (.next s) k = .next s := by
  cases hf : s.faults with
  | nil =>
    have hb : s.linkBegun = false := h.resolve_left (fun h => h hf)
    simp [inCycle, andThen, hf, hb]
  | cons => simp [inCycle, andThen, hf]

theorem inCycle_assoc (o : Step) (j k : State → Step) :
    inCycle (inCycle o j) k = inCycle o fun u => inCycle (j u) k := by
  cases o with
  | next s =>
    by_cases hf : s.faults = []
    · by_cases hb : s.linkBegun = true
      · rw [inCycle_running hf hb, inCycle_running hf hb]
      · have h : s.faults ≠ [] ∨ s.linkBegun = false := .inr (by simpa using hb)
        rw [inCycle_ended h, inCycle_ended h, inCycle_ended h]
    · rw [inCycle_ended (.inl hf), inCycle_ended (.inl hf), inCycle_ended (.inl hf)]
  | fault => rfl
  | refused => rfl

theorem setClock_next {n : Nat} {s t : State} (h : setClock n s = .next t) :
    s.time ≤ n ∧ t = { s with time := n, held := true } := by
  unfold setClock at h; split at h
  · cases h; exact ⟨‹_›, rfl⟩
  · cases h

end Sys2Proof.Machine
end

