-- ==== Sys2Proof/Laws/Touch.lean ====
section
/-! SUPPORT. What a port operation past its checks leaves alone, and what it writes, field by field. -/

namespace Sys2Proof.Machine

/-- From `s` to `t` nothing changed but registers of position `p` (PORT_BEGUN not among them), the clock's time, events added at
the end, and the result. -/
structure Touches (p : Port) (s t : State) : Prop where
  cfg : t.cfg = s.cfg
  linkBegun : t.linkBegun = s.linkBegun
  phase : t.phase = s.phase
  dispSrc : t.dispSrc = s.dispSrc
  dispFrame : t.dispFrame = s.dispFrame
  faults : t.faults = s.faults
  held : t.held = s.held
  issuer : t.issuer = s.issuer
  program : t.program = s.program
  gaps : t.gaps = s.gaps
  other : ∀ q, q ≠ p → t.port q = s.port q
  begun : (t.port p).begun = (s.port p).begun
  time : s.time ≤ t.time ∧ (s.held = true → t.time = s.time)

theorem State.now_held_time (s : State) : s.held = true → s.now.2.time = s.time := by
  intro h; rw [State.now_of_held s h]

theorem Touches.refl {p : Port} {s : State} : Touches p s s := by
  constructor <;> simp

theorem Touches.trans {p : Port} {s t u : State} (h : Touches p s t) (k : Touches p t u) : Touches p s u where
  cfg := k.cfg.trans h.cfg
  linkBegun := k.linkBegun.trans h.linkBegun
  phase := k.phase.trans h.phase
  dispSrc := k.dispSrc.trans h.dispSrc
  dispFrame := k.dispFrame.trans h.dispFrame
  faults := k.faults.trans h.faults
  held := k.held.trans h.held
  issuer := k.issuer.trans h.issuer
  program := k.program.trans h.program
  gaps := k.gaps.trans h.gaps
  other := fun q hq => (k.other q hq).trans (h.other q hq)
  begun := k.begun.trans h.begun
  time := ⟨h.time.1.trans k.time.1, fun e => (k.time.2 (h.held.trans e)).trans (h.time.2 e)⟩

/-- The clock over two stretches that touch different positions. -/
theorem Touches.trans_time {p q : Port} {s t u : State} (h : Touches p s t) (k : Touches q t u) :
    s.time ≤ u.time ∧ (s.held = true → u.time = s.time) :=
  ⟨h.time.1.trans k.time.1, fun e => (k.time.2 (h.held.trans e)).trans (h.time.2 e)⟩

theorem Touches.now (p : Port) (s : State) : Touches p s s.now.2 := by
  constructor <;> simp [State.now_time_le]
  exact s.now_held_time

theorem Touches.setPort (p : Port) (s : State) (r : PortRegs) (h : r.begun = (s.port p).begun) :
    Touches p s (s.setPort p r) := by
  constructor <;> simp [h]
  exact fun q hq => State.setPort_port_other s r hq

theorem Touches.setActive (p : Port) (s : State) (b : Bool) : Touches p s (s.setActive p b) := by
  constructor <;> simp
  exact fun q hq => State.setActive_port_other s b hq

theorem Touches.assertTe (p : Port) (s : State) : Touches p s (s.assertTe p) := by
  unfold State.assertTe; split
  · exact .refl
  · exact .setActive p s true

theorem Touches.result (p : Port) (s : State) (r : Result) : Touches p s { s with result := r } := by
  refine ⟨rfl, rfl, rfl, rfl, rfl, rfl, rfl, rfl, rfl, rfl, fun q _ => ?_, ?_, le_rfl, fun _ => rfl⟩
  · cases q <;> rfl
  · cases p <;> rfl

theorem receiveStep_touches (p : Port) (s : State) : Touches p s (receiveStep p s).state := by
  rcases receiveStep_state p s with ⟨_, _, _, e⟩ | ⟨_, e | ⟨_, e⟩ | e | e⟩ <;> rw [e]
  · exact (Touches.now p s).trans (.setPort p _ _ (by simp))
  · exact .refl
  · exact (Touches.now p s).trans (.setPort p _ _ (by simp))
  · exact (Touches.now p s).trans (.setPort p _ _ (by simp))
  · exact .now p s

theorem sendActivity_touches (p : Port) (s : State) : Touches p s (sendActivity p s) :=
  ((Touches.assertTe p s).trans (.now p _)).trans (.setPort p _ _ (by simp))

theorem sendWrite_touches (p : Port) (a : Nib) (f : Frame) (s : State) : Touches p s (sendWrite p a f s).state := by
  rcases sendWrite_cases p a f s with ⟨_, e⟩ | ⟨_, e⟩ <;> rw [e]
  · exact .refl
  · exact Touches.setPort p s _ (by rfl)

theorem powerDownStep_touches (p : Port) (s : State) : Touches p s (powerDownStep p s).state := by
  rcases powerDownStep_cases p s with e | e | e <;> rw [e]
  · exact .refl
  · exact .now p s
  · exact (Touches.now p s).trans (.setActive p _ _)

/-! ### The registers of the position itself, and the events -/

theorem receiveStep_events (p : Port) (s : State) : (receiveStep p s).state.events = s.events := by
  rcases receiveStep_state p s with ⟨_, _, _, e⟩ | ⟨_, e | ⟨_, e⟩ | e | e⟩ <;> rw [e] <;> simp

/-- PORT_RECEIVE writes RX, TO_STAMP, IN_COUNT and LAST_ACT (R42). -/
theorem receiveStep_port (p : Port) (s : State) :
    (receiveStep p s).state.port p = { s.port p with
      rx := ((receiveStep p s).state.port p).rx, toStamp := ((receiveStep p s).state.port p).toStamp,
      inCount := ((receiveStep p s).state.port p).inCount, lastAct := ((receiveStep p s).state.port p).lastAct } := by
  rcases receiveStep_state p s with ⟨_, _, _, e⟩ | ⟨_, e | ⟨_, e⟩ | e | e⟩ <;> rw [e] <;> simp

/-- A whole frame: the five oldest bytes leave RX (R112). -/
theorem receiveStep_frame {p : Port} {s : State} {f : Frame} {rest : List Byte} (h : (s.port p).rx = frameBytes f ++ rest) :
    receiveStep p s = .ok (some f) (s.now.2.setPort p { s.port p with
      rx := rest, toStamp := 0, inCount := s.countUp (s.port p).inCount, lastAct := s.now.1 }) := by
  unfold receiveStep; rw [h, popFrame_bytes]

/-- PORT_RECEIVE refreshes LAST_ACT with the clock word it reads, or leaves it (R109 to R112). -/
theorem receiveStep_lastAct (p : Port) (s : State) :
    ((receiveStep p s).state.port p).lastAct = (s.port p).lastAct
      ∨ ((receiveStep p s).state.port p).lastAct = (receiveStep p s).state.time % 2 ^ s.cfg.clockWidth := by
  rcases receiveStep_state p s with ⟨_, _, _, e⟩ | ⟨_, e | ⟨_, e⟩ | e | e⟩ <;> rw [e] <;> simp [State.now_word]

/-- The first part of PORT_SEND: ACTIVE and LAST_ACT, and TE on the rising edge (R115). -/
theorem sendActivity_port (p : Port) (s : State) :
    (sendActivity p s).port p = { s.port p with
      active := true
      te := if (s.port p).active then (s.port p).te else if (s.cfg.port p).hasTe then true else (s.port p).te
      lastAct := (s.assertTe p).now.1 } := by
  unfold sendActivity; simp

/-- LAST_ACT holds the clock word of the time PORT_SEND leaves (R115). -/
theorem sendActivity_lastAct (p : Port) (s : State) :
    ((sendActivity p s).port p).lastAct = (sendActivity p s).time % 2 ^ s.cfg.clockWidth := by
  unfold sendActivity; simp [State.now_word]

theorem sendActivity_events (p : Port) (s : State) :
    (sendActivity p s).events
      = s.events ++ (if (s.port p).active then [] else if (s.cfg.port p).hasTe then [.teSet p true] else []) := by
  unfold sendActivity; simp [State.assertTe_events]

theorem sendWrite_events (p : Port) (a : Nib) (f : Frame) (s : State) : (sendWrite p a f s).state.events = s.events := by
  rcases sendWrite_cases p a f s with ⟨_, e⟩ | ⟨_, e⟩ <;> rw [e] <;> simp [Ran.ok]

/-- PORT_POWER_DOWN writes ACTIVE and TE (R42). -/
theorem powerDownStep_port (p : Port) (s : State) :
    (powerDownStep p s).state.port p = { s.port p with
      active := ((powerDownStep p s).state.port p).active, te := ((powerDownStep p s).state.port p).te } := by
  rcases powerDownStep_cases p s with e | e | e <;> rw [e] <;> simp [Ran.ok]

end Sys2Proof.Machine
end

