-- ==== Sys2Proof/Laws/Cycle.lean ====
section
/-! SUPPORT. The poll cycle of a ready link with nothing in its gaps: each stage as an equation, and what its second and third steps
leave alone. -/

namespace Sys2Proof.Machine

theorem CycleReady.touch {p : Port} {s t : State} (h : CycleReady s) (k : Touches p s t) : CycleReady t where
  link :=
    { running := k.faults.trans h.link.running
      begun := k.linkBegun.trans h.link.begun
      portsBegun := fun q hq => by
        rw [k.cfg] at hq
        by_cases e : q = p
        · subst e; rw [k.begun]; exact h.link.portsBegun q hq
        · rw [k.other q e]; exact h.link.portsBegun q hq }
  gaps := k.gaps.trans h.gaps

theorem portOp_of_link {α : Type} {op : Byte} {p : Port} {s : State} (h : LinkReady s) (hp : (s.cfg.port p).present = true)
    (k : Ran α) : portOp op p s k = k := portOp_of_ready hp (h.portsBegun p hp) k

variable {n : Nat}

theorem gap_inCycle {s : State} (h : CycleReady s) (k : State → Step) : inCycle (gap n s) k = k s := by
  rw [gap_quiet h.gaps, inCycle_running h.link.running h.link.begun]

/-- Both parts of PORT_SEND. -/
def sent (p : Port) (a : Nib) (f : Frame) (s : State) : State := (sendWrite p a f (sendActivity p s)).state

theorem sent_touches (p : Port) (a : Nib) (f : Frame) (s : State) : Touches p s (sent p a f s) :=
  (sendActivity_touches p s).trans (sendWrite_touches p a f _)

/-- A send with room: the frame is queued and counted (R117). -/
theorem sent_room {p : Port} {a : Nib} {f : Frame} {s : State} (h : (s.port p).tx.length + 5 ≤ (s.cfg.port p).txCap) :
    (sent p a f s).port p = { (sendActivity p s).port p with
      tx := (s.port p).tx ++ frameBytes (sentFrame a f), outCount := s.countUp (s.port p).outCount } := by
  unfold sent
  have T := sendActivity_touches p s
  have P := sendActivity_port p s
  rcases sendWrite_cases p a f (sendActivity p s) with ⟨hr, _⟩ | ⟨_, e⟩
  · rw [T.cfg, P] at hr; dsimp only at hr; omega
  · rw [e]; simp [Ran.ok, P, State.countUp, T.cfg]

/-- A send without room writes neither TX nor OUT_COUNT (R116). -/
theorem sent_full {p : Port} {a : Nib} {f : Frame} {s : State} (h : (s.cfg.port p).txCap < (s.port p).tx.length + 5) :
    sent p a f s = sendActivity p s := by
  unfold sent
  have T := sendActivity_touches p s
  have P := sendActivity_port p s
  rcases sendWrite_cases p a f (sendActivity p s) with ⟨_, e⟩ | ⟨hr, _⟩
  · rw [e]; rfl
  · rw [T.cfg, P] at hr; dsimp only at hr; omega

theorem sent_events (p : Port) (a : Nib) (f : Frame) (s : State) :
    (sent p a f s).events
      = s.events ++ (if (s.port p).active then [] else if (s.cfg.port p).hasTe then [.teSet p true] else []) := by
  unfold sent; rw [sendWrite_events, sendActivity_events]

/-- PORT_SEND writes ACTIVE, TE, LAST_ACT, TX and OUT_COUNT (R42), TX at its young end only. -/
theorem sent_port (p : Port) (a : Nib) (f : Frame) (s : State) :
    (sent p a f s).port p = { s.port p with
        active := true
        te := ((sent p a f s).port p).te
        lastAct := ((sent p a f s).port p).lastAct
        tx := ((sent p a f s).port p).tx
        outCount := ((sent p a f s).port p).outCount }
      ∧ (s.port p).tx <+: ((sent p a f s).port p).tx := by
  have P := sendActivity_port p s
  by_cases h : (s.port p).tx.length + 5 ≤ (s.cfg.port p).txCap
  · rw [sent_room h, P]; exact ⟨rfl, List.prefix_append _ _⟩
  · rw [sent_full (by omega), P]; exact ⟨rfl, List.prefix_rfl⟩

theorem sent_lastAct (p : Port) (a : Nib) (f : Frame) (s : State) :
    ((sent p a f s).port p).lastAct = (sent p a f s).time % 2 ^ s.cfg.clockWidth := by
  have L := sendActivity_lastAct p s
  unfold sent
  rcases sendWrite_cases p a f (sendActivity p s) with ⟨_, e⟩ | ⟨_, e⟩ <;> rw [e] <;> simpa [Ran.ok] using L

theorem portSend_ready {p : Port} {s : State} (h : LinkReady s) (hp : (s.cfg.port p).present = true) (a : Nib) (f : Frame) :
    portSend p a f s = sendWrite p a f (sendActivity p s) := portOp_of_link h hp _

theorem sendWrite_val (p : Port) (a : Nib) (f : Frame) (s : State) : ∃ b, (sendWrite p a f s).val = some b := by
  rcases sendWrite_cases p a f s with ⟨_, e⟩ | ⟨_, e⟩ <;> rw [e] <;> exact ⟨_, rfl⟩

theorem forward_quiet {p : Port} {s : State} (h : CycleReady s) (hp : (s.cfg.port p).present = true) (a : Nib) (f : Frame)
    (k : State → Step) : forward (gap n) p a f s k = k (sent p a f s) := by
  unfold forward
  rw [gap_inCycle h, portSend_ready h.link hp]
  obtain ⟨b, e⟩ := sendWrite_val p a f (sendActivity p s)
  unfold Ran.andThen sent; rw [e]

/-- PORT_POWER_DOWN at a present position, nothing at an absent one. -/
def maintained (p : Port) (s : State) : State := if (s.cfg.port p).present then (powerDownStep p s).state else s

theorem maintained_touches (p : Port) (s : State) : Touches p s (maintained p s) := by
  unfold maintained; split
  · exact powerDownStep_touches p s
  · exact .refl

theorem maintained_port (p : Port) (s : State) :
    (maintained p s).port p = { s.port p with
      active := ((maintained p s).port p).active, te := ((maintained p s).port p).te } := by
  unfold maintained; split
  · exact powerDownStep_port p s
  · rfl

theorem powerDownPresent_quiet {p : Port} {s : State} (h : CycleReady s) (k : State → Step) :
    powerDownPresent (gap n) p s k = k (maintained p s) := by
  unfold powerDownPresent maintained
  split
  · rename_i hp
    rw [gap_inCycle h]
    unfold portPowerDown
    rw [portOp_of_link h.link hp]
    rcases powerDownStep_cases p s with e | e | e <;> rw [e] <;> rfl
  · rfl

theorem cycleS3_quiet {s : State} (h : CycleReady s) :
    cycleS3 (gap n) s = .next { maintained .socket (maintained .plug s) with phase := .idle, result := .unit } := by
  unfold cycleS3
  rw [powerDownPresent_quiet h, powerDownPresent_quiet (h.touch (maintained_touches .plug s))]

theorem receive_quiet {p : Port} {s : State} (h : CycleReady s) (hp : (s.cfg.port p).present = true)
    (k : Option Frame → State → Step) :
    (inCycle (gap n s) fun s1 => (portReceive p s1).andThen k)
      = k ((popFrame (s.port p).rx).map (·.1)) (receiveStep p s).state := by
  rw [gap_inCycle h]
  unfold portReceive
  rw [portOp_of_link h.link hp]
  unfold Ran.andThen
  rw [receiveStep_val]

theorem cycleS2_none {s : State} (h : CycleReady s) (hp : s.cfg.socket.present = true) (hr : s.socket.rx.length < 5) :
    cycleS2 (gap n) s = cycleS3 (gap n) (receiveStep .socket s).state := by
  unfold cycleS2
  rw [if_pos hp, receive_quiet (p := .socket) h hp, (popFrame_none_iff (s.port .socket).rx).mpr hr]; rfl

theorem cycleS2_some {s : State} (h : CycleReady s) (hp : s.cfg.socket.present = true) {f : Frame} {rest : List Byte}
    (hr : s.socket.rx = frameBytes f ++ rest) :
    cycleS2 (gap n) s = routeSocketFrame (gap n) f (receiveStep .socket s).state := by
  unfold cycleS2
  rw [if_pos hp, receive_quiet (p := .socket) h hp, show (s.port .socket).rx = _ from hr, popFrame_bytes]; rfl

theorem cycleS2_absent {s : State} (hp : s.cfg.socket.present = false) : cycleS2 (gap n) s = cycleS3 (gap n) s := by
  unfold cycleS2; rw [if_neg (by simp [hp])]

theorem cycleS1_none {s : State} (h : CycleReady s) (hp : s.cfg.plug.present = true) (hr : s.plug.rx.length < 5) :
    cycleS1 (gap n) s = cycleS2 (gap n) (receiveStep .plug s).state := by
  unfold cycleS1
  rw [if_pos hp, receive_quiet (p := .plug) h hp, (popFrame_none_iff (s.port .plug).rx).mpr hr]; rfl

theorem cycleS1_some {s : State} (h : CycleReady s) (hp : s.cfg.plug.present = true) {f : Frame} {rest : List Byte}
    (hr : s.plug.rx = frameBytes f ++ rest) :
    cycleS1 (gap n) s = routePlugFrame (gap n) f (receiveStep .plug s).state := by
  unfold cycleS1
  rw [if_pos hp, receive_quiet (p := .plug) h hp, show (s.port .plug).rx = _ from hr, popFrame_bytes]; rfl

theorem cycleS1_absent {s : State} (hp : s.cfg.plug.present = false) : cycleS1 (gap n) s = cycleS2 (gap n) s := by
  unfold cycleS1; rw [if_neg (by simp [hp])]

/-- A list of at least five bytes begins with a frame. -/
theorem frame_or_short (l : List Byte) : l.length < 5 ∨ ∃ f rest, l = frameBytes f ++ rest := by
  cases h : popFrame l with
  | none => exact .inl ((popFrame_none_iff l).mp h)
  | some x => exact .inr ⟨x.1, x.2, popFrame_some h⟩

theorem execLinkLoop_ready {s : State} (h : CycleReady s) (hp : s.phase = .idle) :
    execLinkLoop s = cycleS1 (gap s.gaps.length) s := by
  unfold execLinkLoop linkLoopWith
  rw [whenRunning_of_running h.link.running, notReentrant_idle hp, whenBegun_of h.link.begun]

theorem execLinkHandlerDone_plug {s : State} (h : CycleReady s) (hp : s.phase = .waitPlug) :
    execLinkHandlerDone s = cycleS2 (gap s.gaps.length) s := by
  unfold execLinkHandlerDone handlerDoneWith
  rw [whenRunning_of_running h.link.running, hp]; exact whenBegun_of h.link.begun _

theorem execLinkHandlerDone_socket {s : State} (h : CycleReady s) (hp : s.phase = .waitSocket) :
    execLinkHandlerDone s = cycleS3 (gap s.gaps.length) s := by
  unfold execLinkHandlerDone handlerDoneWith
  rw [whenRunning_of_running h.link.running, hp]; exact whenBegun_of h.link.begun _

/-- What PORT_RECEIVE does to RX: nothing, all of a partial frame, or five bytes. -/
theorem receiveStep_rx (p : Port) (s : State) :
    ((receiveStep p s).state.port p).rx = (s.port p).rx ∨ ((receiveStep p s).state.port p).rx = (s.port p).rx.drop 5 := by
  rcases receiveStep_state p s with ⟨f, rest, h, e⟩ | ⟨h, e | ⟨_, e⟩ | e | e⟩ <;> rw [e]
  · right; rw [popFrame_some h]; simp [frameBytes]
  · exact .inl rfl
  · left; simp
  · right
    have := (popFrame_none_iff _).mp h
    simp [List.drop_eq_nil_of_le (show (s.port p).rx.length ≤ 5 by omega)]
  · left; simp

/-- The clock word `w` was read between `s` and `t`. -/
def ReadWithin (s t : State) (w : Nat) : Prop :=
  ∃ T, s.time ≤ T ∧ T ≤ t.time ∧ (s.held = true → T = s.time) ∧ w = T % 2 ^ s.cfg.clockWidth

theorem ReadWithin.at_mid {p : Port} {s u t : State} {w : Nat} (T : Touches p s u) (h : u.time ≤ t.time)
    (e : w = u.time % 2 ^ s.cfg.clockWidth) : ReadWithin s t w := ⟨u.time, T.time.1, h, T.time.2, e⟩

theorem ReadWithin.after {p : Port} {s u t : State} {w : Nat} (T : Touches p s u) (r : ReadWithin u t w) :
    ReadWithin s t w := by
  obtain ⟨x, a, b, c, d⟩ := r
  exact ⟨x, T.time.1.trans a, b, fun e => (c (T.held.trans e)).trans (T.time.2 e), by rw [d, T.cfg]⟩

/-- What S2 and S3 leave of a ready link, from the state before S2. -/
structure AfterS2 (s t : State) : Prop where
  ready : CycleReady t
  cfg : t.cfg = s.cfg
  issuer : t.issuer = s.issuer
  program : t.program = s.program
  plug : t.plug = { s.plug with
    active := t.plug.active, te := t.plug.te, lastAct := t.plug.lastAct, tx := t.plug.tx, outCount := t.plug.outCount }
  socket : t.socket = { s.socket with
    rx := t.socket.rx, toStamp := t.socket.toStamp, inCount := t.socket.inCount, lastAct := t.socket.lastAct,
    active := t.socket.active, te := t.socket.te }
  plugTx : s.plug.tx <+: t.plug.tx
  socketRx : t.socket.rx = s.socket.rx ∨ t.socket.rx = s.socket.rx.drop 5
  absentPlug : s.cfg.plug.present = false → t.plug = s.plug
  absentSocket : s.cfg.socket.present = false → t.socket = s.socket
  events : ∃ es, t.events = s.events ++ es ∧ es.all (fun e => !e.dispatches .plug) = true
  result : t.result = .unit
  time : s.time ≤ t.time ∧ (s.held = true → t.time = s.time)
  socketAct : t.socket.lastAct = s.socket.lastAct ∨ ReadWithin s t t.socket.lastAct
  stop : t.phase = .waitSocket ∨ t.phase = .idle ∧ t.dispSrc = s.dispSrc ∧ t.dispFrame = s.dispFrame

theorem powerDownStep_events (p : Port) (s : State) :
    ∃ es, (powerDownStep p s).state.events = s.events ++ es ∧ ∀ q, es.all (fun e => !e.dispatches q) = true := by
  rcases powerDownStep_cases p s with e | e | e <;> rw [e]
  · exact ⟨[], by simp [Ran.ok], by simp⟩
  · exact ⟨[], by simp [Ran.ok], by simp⟩
  · refine ⟨_, State.setActive_events _ p false |>.trans (by rw [State.now_events]), ?_⟩
    intro q; split <;> rfl

theorem maintained_events (p : Port) (s : State) :
    ∃ es, (maintained p s).events = s.events ++ es ∧ ∀ q, es.all (fun e => !e.dispatches q) = true := by
  unfold maintained; split
  · exact powerDownStep_events p s
  · exact ⟨[], by simp, by simp⟩

theorem cycleS3_after {s : State} (h : CycleReady s) :
    ∃ t, cycleS3 (gap n) s = .next t ∧ AfterS2 s t ∧ t.phase = .idle ∧ t.plug.tx = s.plug.tx ∧ t.socket.rx = s.socket.rx
      ∧ t.dispSrc = s.dispSrc ∧ t.dispFrame = s.dispFrame := by
  refine ⟨_, cycleS3_quiet h, ?_⟩
  have T1 := maintained_touches .plug s
  have P1 := maintained_port .plug s
  obtain ⟨e1, E1, N1⟩ := maintained_events .plug s
  have A1 : s.cfg.plug.present = false → maintained .plug s = s := fun hp => by
    unfold maintained; rw [if_neg (by simp [Config.port, hp])]
  generalize maintained .plug s = u at *
  have T2 := maintained_touches .socket u
  have P2 := maintained_port .socket u
  obtain ⟨e2, E2, N2⟩ := maintained_events .socket u
  have A2 : u.cfg.socket.present = false → maintained .socket u = u := fun hp => by
    unfold maintained; rw [if_neg (by simp [Config.port, hp])]
  generalize maintained .socket u = v at *
  have vp : v.plug = u.plug := T2.other .plug (by decide)
  have us : u.socket = s.socket := T1.other .socket (by decide)
  have R := (h.touch T1).touch T2
  simp only [State.port] at P1 P2
  have rp : v.plug.tx = s.plug.tx := by rw [vp, P1]
  have rs : v.socket.rx = s.socket.rx := by rw [P2, us]
  have TT := T1.trans_time T2
  have ra : v.socket.lastAct = s.socket.lastAct := by rw [P2, us]
  refine ⟨⟨⟨⟨R.link.running, R.link.begun, fun p hp => R.link.portsBegun p hp⟩, R.gaps⟩, T2.cfg.trans T1.cfg,
    T2.issuer.trans T1.issuer, T2.program.trans T1.program, ?_, ?_, ?_, .inl rs, ?_, ?_, ?_, rfl,
    TT, .inl ra, .inr ⟨rfl, ?_, ?_⟩⟩,
    rfl, rp, rs, T2.dispSrc.trans T1.dispSrc, T2.dispFrame.trans T1.dispFrame⟩
  · show v.plug = _; rw [vp, P1]
  · show v.socket = _; rw [P2, us]
  · show s.plug.tx <+: v.plug.tx; rw [rp]
  · intro hp; show v.plug = _; rw [vp, A1 hp]
  · intro hp; show v.socket = _; rw [A2 (by rw [T1.cfg]; exact hp), us]
  · exact ⟨e1 ++ e2, by rw [← List.append_assoc, ← E1]; exact E2, by rw [List.all_append, N1, N2]; rfl⟩
  · exact T2.dispSrc.trans T1.dispSrc
  · exact T2.dispFrame.trans T1.dispFrame

/-- S2 and S3 of a ready link always end, in IDLE or in the socket's window. -/
theorem cycleS2_after {s : State} (h : CycleReady s) : ∃ t, cycleS2 (gap n) s = .next t ∧ AfterS2 s t := by
  by_cases hp : s.cfg.socket.present = true
  swap
  · obtain ⟨t, e, A, _⟩ := cycleS3_after h
    exact ⟨t, (cycleS2_absent (by simpa using hp)).trans e, A⟩
  have T1 := receiveStep_touches .socket s
  have P1 := receiveStep_port .socket s
  have E1 := receiveStep_events .socket s
  have X1 := receiveStep_rx .socket s
  have L1 := receiveStep_lastAct .socket s
  rcases frame_or_short s.socket.rx with hr | ⟨f, rest, hr⟩
  · rw [cycleS2_none h hp hr]
    generalize (receiveStep .socket s).state = u at *
    obtain ⟨t, e, A, _, k1, k2, k3, k4⟩ := cycleS3_after (h.touch T1)
    have up : u.plug = s.plug := T1.other .plug (by decide)
    simp only [State.port] at P1 X1
    obtain ⟨es, b1, b2⟩ := A.events
    refine ⟨t, e, A.ready, A.cfg.trans T1.cfg, A.issuer.trans T1.issuer, A.program.trans T1.program, ?_, ?_, ?_, ?_, ?_, ?_,
      ⟨es, b1.trans (by rw [E1]), b2⟩, A.result, ⟨T1.time.1.trans A.time.1, ?_⟩, ?_, ?_⟩
    · rw [A.plug, up]
    · rw [A.socket, P1]
    · rw [k1, up]
    · rw [k2]; exact X1
    · intro hq; rw [A.absentPlug (by rw [T1.cfg]; exact hq), up]
    · intro hq; rw [hp] at hq; cases hq
    · exact fun e => (A.time.2 (T1.held.trans e)).trans (T1.time.2 e)
    · rcases A.socketAct with a | a
      · rw [a]; exact L1.imp_right (.at_mid T1 A.time.1)
      · exact .inr (.after T1 a)
    · exact .inr ⟨A.stop.resolve_left (by rename_i z; rw [z]; decide) |>.1, k3.trans T1.dispSrc, k4.trans T1.dispFrame⟩
  · rw [cycleS2_some h hp hr]
    generalize (receiveStep .socket s).state = u at *
    have R := h.touch T1
    have up : u.plug = s.plug := T1.other .plug (by decide)
    simp only [State.port] at P1 X1
    unfold routeSocketFrame
    split
    · rename_i a hq ha
      rw [forward_quiet R (by exact hq)]
      have T2 := sent_touches .plug a f u
      have P2 := sent_port .plug a f u
      have E2 := sent_events .plug a f u
      generalize sent .plug a f u = v at *
      have R2 := R.touch T2
      have vs : v.socket = u.socket := T2.other .socket (by decide)
      have TT := T1.trans_time T2
      simp only [State.port] at P2
      refine ⟨_, rfl, ⟨⟨R2.link.running, R2.link.begun, fun p hp => R2.link.portsBegun p hp⟩, R2.gaps⟩, T2.cfg.trans T1.cfg,
        T2.issuer.trans T1.issuer, T2.program.trans T1.program, ?_, ?_, ?_, ?_, ?_, ?_, ?_, rfl, TT, ?_, .inl rfl⟩
      · exact (show v.plug = { s.plug with
          active := v.plug.active, te := v.plug.te, lastAct := v.plug.lastAct, tx := v.plug.tx, outCount := v.plug.outCount }
          by rw [P2.1, up])
      · exact (show v.socket = { s.socket with
          rx := v.socket.rx, toStamp := v.socket.toStamp, inCount := v.socket.inCount, lastAct := v.socket.lastAct,
          active := v.socket.active, te := v.socket.te } by rw [vs, P1])
      · show s.plug.tx <+: v.plug.tx; rw [← up]; exact P2.2
      · show v.socket.rx = _ ∨ v.socket.rx = _; rw [vs]; exact X1
      · intro hn; rw [T1.cfg, hn] at hq; cases hq
      · intro hn; rw [hp] at hn; cases hn
      · refine ⟨_, (congrArg (· ++ [Event.dispatch .socket f]) (E2.trans (by rw [E1]))).trans (List.append_assoc ..), ?_⟩
        split
        · rfl
        · split <;> rfl
      · show v.socket.lastAct = _ ∨ ReadWithin s _ v.socket.lastAct
        rw [vs]; exact L1.imp_right (.at_mid T1 T2.time.1)
    · refine ⟨_, rfl, ⟨⟨R.link.running, R.link.begun, fun p hp => R.link.portsBegun p hp⟩, R.gaps⟩, T1.cfg,
        T1.issuer, T1.program, ?_, ?_, ?_, ?_, ?_, ?_, ?_, rfl, T1.time, L1.imp_right (.at_mid T1 le_rfl), .inl rfl⟩
      · exact (show u.plug = { s.plug with
          active := u.plug.active, te := u.plug.te, lastAct := u.plug.lastAct, tx := u.plug.tx, outCount := u.plug.outCount }
          by rw [up])
      · exact (show u.socket = { s.socket with
          rx := u.socket.rx, toStamp := u.socket.toStamp, inCount := u.socket.inCount, lastAct := u.socket.lastAct,
          active := u.socket.active, te := u.socket.te } by rw [P1])
      · show s.plug.tx <+: u.plug.tx; rw [up]
      · exact X1
      · intro hn; exact up
      · intro hn; rw [hp] at hn; cases hn
      · exact ⟨[.dispatch .socket f], congrArg (· ++ [Event.dispatch .socket f]) E1, rfl⟩

end Sys2Proof.Machine
end

