-- ==== Sys2Proof/Laws/Fields.lean ====
section
/-! SUPPORT. The bit fields of a frame as numbers, and how reading a field undoes packing it. -/

namespace Sys2Proof

theorem typeNibble_toNat (f : Frame) : (typeNibble f).toNat = f.b0.toNat % 16 := by
  simp [typeNibble, BitVec.extractLsb'_toNat]

theorem addressNibble_toNat (f : Frame) : (addressNibble f).toNat = f.b0.toNat / 16 := by
  simp only [addressNibble, BitVec.extractLsb'_toNat, Nat.shiftRight_eq_div_pow]
  have := f.b0.isLt; omega

theorem append_toNat {n m : Nat} (x : BitVec n) (y : BitVec m) : (x ++ y).toNat = x.toNat * 2 ^ m + y.toNat := by
  rw [BitVec.toNat_append, ← Nat.shiftLeft_add_eq_or_of_lt y.isLt, Nat.shiftLeft_eq]

theorem headerByte_toNat (a t : Nib) : (headerByte a t).toNat = a.toNat * 16 + t.toNat := append_toNat a t

theorem typeNibble_headerByte (a t : Nib) (m : Midi) : typeNibble (frameOf (headerByte a t) m) = t := by
  apply BitVec.eq_of_toNat_eq
  rw [typeNibble_toNat]
  simp only [frameOf, headerByte_toNat]
  have := t.isLt; omega

theorem addressNibble_headerByte (a t : Nib) (m : Midi) : addressNibble (frameOf (headerByte a t) m) = a := by
  apply BitVec.eq_of_toNat_eq
  rw [addressNibble_toNat]
  simp only [frameOf, headerByte_toNat]
  have := t.isLt; omega

theorem headerByte_of_nibbles (f : Frame) : headerByte (addressNibble f) (typeNibble f) = f.b0 := by
  apply BitVec.eq_of_toNat_eq
  rw [headerByte_toNat, addressNibble_toNat, typeNibble_toNat]
  omega

theorem bool_toNat_ofBool (b : Bool) : (BitVec.ofBool b).toNat = b.toNat := by cases b <;> rfl

theorem pulseB1_toNat (u : BitVec 2) (fo fi : Bool) (p : Nib) :
    (pulseB1 u fo fi p).toNat = u.toNat * 64 + fo.toNat * 32 + fi.toNat * 16 + p.toNat := by
  simp only [pulseB1, append_toNat, bool_toNat_ofBool]; omega

theorem high_toNat (x : Raw) : (x.extractLsb' 8 4).toNat = x.toNat / 256 := by
  simp only [BitVec.extractLsb'_toNat, Nat.shiftRight_eq_div_pow]
  have := x.isLt; omega

theorem low_toNat (x : Raw) : (x.extractLsb' 0 8).toNat = x.toNat % 256 := by
  simp [BitVec.extractLsb'_toNat]

theorem pulseB2_toNat (x y : Raw) : (pulseB2 x y).toNat = x.toNat / 256 * 16 + y.toNat / 256 := by
  rw [pulseB2, append_toNat, high_toNat, high_toNat]; norm_num

theorem powerRaw_toNat (f : Frame) : (powerRaw f).toNat = f.b2.toNat / 16 * 256 + f.b3.toNat := by
  simp only [powerRaw, append_toNat, BitVec.extractLsb'_toNat, Nat.shiftRight_eq_div_pow]
  have := f.b2.isLt; omega

theorem durationRaw_toNat (f : Frame) : (durationRaw f).toNat = f.b2.toNat % 16 * 256 + f.b4.toNat := by
  rw [durationRaw, append_toNat, BitVec.extractLsb'_toNat, Nat.shiftRight_zero]; norm_num

theorem pulsePort_toNat (f : Frame) : (pulsePort f).toNat = f.b1.toNat % 16 := by
  simp [pulsePort, BitVec.extractLsb'_toNat]

theorem pulseFadeIn_eq (f : Frame) : pulseFadeIn f = decide (f.b1.toNat / 16 % 2 = 1) := by
  simp [pulseFadeIn, BitVec.getLsbD, Nat.testBit_eq_decide_div_mod_eq]

theorem pulseFadeOut_eq (f : Frame) : pulseFadeOut f = decide (f.b1.toNat / 32 % 2 = 1) := by
  simp [pulseFadeOut, BitVec.getLsbD, Nat.testBit_eq_decide_div_mod_eq]

/-! ### Reading a pulse row's fields back -/

variable (b0 : Byte) (u : BitVec 2) (fo fi : Bool) (p : Nib) (x y : Raw)

theorem pulsePort_pulseFrame : pulsePort (pulseFrame b0 u fo fi p x y) = p := by
  apply BitVec.eq_of_toNat_eq
  rw [pulsePort_toNat]
  simp only [pulseFrame, pulseB1_toNat]
  have := p.isLt; omega

theorem pulseFadeIn_pulseFrame : pulseFadeIn (pulseFrame b0 u fo fi p x y) = fi := by
  rw [pulseFadeIn_eq]
  simp only [pulseFrame, pulseB1_toNat]
  have := p.isLt
  cases fi <;> simp <;> omega

theorem pulseFadeOut_pulseFrame : pulseFadeOut (pulseFrame b0 u fo fi p x y) = fo := by
  rw [pulseFadeOut_eq]
  simp only [pulseFrame, pulseB1_toNat]
  have := p.isLt; have := fi.toNat_le
  cases fo <;> simp <;> omega

theorem pulseUnused_pulseFrame : (pulseFrame b0 u fo fi p x y).b1.extractLsb' 6 2 = u := by
  apply BitVec.eq_of_toNat_eq
  simp only [pulseFrame, BitVec.extractLsb'_toNat, Nat.shiftRight_eq_div_pow, pulseB1_toNat]
  have := p.isLt; have := fi.toNat_le; have := fo.toNat_le; have := u.isLt; omega

theorem powerRaw_pulseFrame : powerRaw (pulseFrame b0 u fo fi p x y) = x := by
  apply BitVec.eq_of_toNat_eq
  rw [powerRaw_toNat]
  simp only [pulseFrame, pulseB2_toNat, low_toNat]
  have := x.isLt; have := y.isLt; omega

theorem durationRaw_pulseFrame : durationRaw (pulseFrame b0 u fo fi p x y) = y := by
  apply BitVec.eq_of_toNat_eq
  rw [durationRaw_toNat]
  simp only [pulseFrame, pulseB2_toNat, low_toNat]
  have := x.isLt; have := y.isLt; omega

theorem pulseFrame_of_fields (f : Frame) :
    pulseFrame f.b0 (f.b1.extractLsb' 6 2) (pulseFadeOut f) (pulseFadeIn f) (pulsePort f) (powerRaw f) (durationRaw f) = f := by
  have hb (n : Nat) : (decide (n % 2 = 1)).toNat = n % 2 := by
    rcases Nat.mod_two_eq_zero_or_one n with h | h <;> simp [h]
  have e1 : pulseB1 (f.b1.extractLsb' 6 2) (pulseFadeOut f) (pulseFadeIn f) (pulsePort f) = f.b1 := by
    apply BitVec.eq_of_toNat_eq
    rw [pulseB1_toNat, pulseFadeOut_eq, pulseFadeIn_eq, pulsePort_toNat, hb, hb]
    simp only [BitVec.extractLsb'_toNat, Nat.shiftRight_eq_div_pow]
    have := f.b1.isLt; omega
  have e2 : pulseB2 (powerRaw f) (durationRaw f) = f.b2 := by
    apply BitVec.eq_of_toNat_eq
    rw [pulseB2_toNat, powerRaw_toNat, durationRaw_toNat]
    have := f.b3.isLt; have := f.b4.isLt; omega
  have e3 : (powerRaw f).extractLsb' 0 8 = f.b3 := by
    apply BitVec.eq_of_toNat_eq; rw [low_toNat, powerRaw_toNat]; have := f.b3.isLt; omega
  have e4 : (durationRaw f).extractLsb' 0 8 = f.b4 := by
    apply BitVec.eq_of_toNat_eq; rw [low_toNat, durationRaw_toNat]; have := f.b4.isLt; omega
  simp only [pulseFrame, e1, e2, e3, e4]

end Sys2Proof
end

