-- ==== Sys2Proof/Laws/Moves.lean ====
section
/-! SUPPORT. Everything a command can do to the state, said once: exec, and whatever falls into the gaps of a cycle it runs, is a
sequence of the elementary changes below. A property that every elementary change keeps, every command keeps. A change names
what it comes from where not every command makes it: `C` says that a poll cycle may run, `R` that a reset may fall into it. -/

namespace Sys2Proof.Machine

/-- The elementary changes of the state, each under what the operation making it has checked. -/
inductive Change (C R : Prop) : State → State → Prop where
  | result (s : State) (r : Result) : Change C R s { s with result := r }
  | issuer (s : State) (i : Issuer) : Change C R s { s with issuer := i }
  | gap (s : State) (hc : C) (ms : List Move) (rest : List (List Move)) (h : s.gaps = ms :: rest) :
      Change C R s { s with gaps := rest }
  | raise (s : State) (r : FaultRecord) (h : s.faults = []) : Change C R s (s.raise r)
  | clock (s : State) : Change C R s s.now.2
  | setClock (s : State) (n : Nat) (h : s.time ≤ n) : Change C R s { s with time := n, held := true }
  | restart (s : State) (hc : C) (hr : R) : Change C R s s.restart
  | portBegin (s : State) (p : Port) (hp : (s.cfg.port p).present = true) (hb : (s.port p).begun = false) :
      Change C R s (portBegin p s).state
  | receive (s : State) (p : Port) (hp : (s.cfg.port p).present = true) (hb : (s.port p).begun = true) :
      Change C R s (receiveStep p s).state
  | activity (s : State) (p : Port) (hp : (s.cfg.port p).present = true) (hb : (s.port p).begun = true) :
      Change C R s (sendActivity p s)
  | write (s : State) (p : Port) (a : Nib) (f : Frame) (hp : (s.cfg.port p).present = true)
      (hb : (s.port p).begun = true) : Change C R s (sendWrite p a f s).state
  | powerDown (s : State) (p : Port) (hp : (s.cfg.port p).present = true) (hb : (s.port p).begun = true) :
      Change C R s (powerDownStep p s).state
  | lineRx (s : State) (p : Port) (b : Byte) (hp : (s.cfg.port p).present = true) (hb : (s.port p).begun = true)
      (hr : (s.port p).rx.length < (s.cfg.port p).rxCap) :
      Change C R s (s.setPort p { s.port p with rx := (s.port p).rx ++ [b] })
  | lineTx (s : State) (p : Port) (b : Byte) (rest : List Byte) (hp : (s.cfg.port p).present = true)
      (ht : (s.port p).tx = b :: rest) : Change C R s (s.setPort p { s.port p with tx := rest })
  | linkBegun (s : State) (h : ∀ p, (s.cfg.port p).present = true → (s.port p).begun = true) :
      Change C R s { s with linkBegun := true }
  | dispatch (s : State) (hc : C) (src : Port) (f : Frame) (ph : Phase) (hb : s.linkBegun = true) (hph : ph ≠ .three) :
      Change C R s { s.emit (.dispatch src f) with dispSrc := src, dispFrame := f, phase := ph, result := .unit }
  | endCycle (s : State) (hc : C) : Change C R s { s with phase := .idle, result := .unit }

/-- A sequence of elementary changes. -/
abbrev Changes (C R : Prop) : State → State → Prop := Relation.ReflTransGen (Change C R)

variable {C R : Prop}

/-- A property kept by every elementary change is kept by every sequence of them. -/
theorem Changes.keeps {P : State → Prop} (hP : ∀ s t, Change C R s t → P s → P t) {s t : State} (h : Changes C R s t) (hs : P s) :
    P t := by
  induction h with
  | refl => exact hs
  | tail _ hc ih => exact hP _ _ hc ih

theorem Change.one {s t : State} (h : Change C R s t) : Changes C R s t := .single h

/-! ### What no change undoes, needed on the way -/

theorem sendActivity_facts (p : Port) (s : State) :
    (sendActivity p s).cfg = s.cfg ∧ (sendActivity p s).linkBegun = s.linkBegun
      ∧ ((sendActivity p s).port p).begun = (s.port p).begun := by
  simp [sendActivity]

theorem Change.cfg {s t : State} (h : Change C R s t) : t.cfg = s.cfg := by
  cases h with
  | portBegin p hp hb => simp [Machine.portBegin, hp, hb, Ran.ok]
  | receive p hp hb =>
    rcases receiveStep_state p s with ⟨_, _, _, h⟩ | ⟨_, h | ⟨_, h⟩ | h | h⟩ <;> simp [h]
  | activity p => exact (sendActivity_facts p s).1
  | write p a f => rcases sendWrite_cases p a f s with ⟨_, h⟩ | ⟨_, h⟩ <;> simp [h, Ran.ok]
  | powerDown p => rcases powerDownStep_cases p s with h | h | h <;> simp [h, Ran.ok]
  | _ => simp

/-- Nothing but a reset clears LINK_BEGUN. -/
theorem Change.linkBegun_stays {s t : State} (h : Change C False s t) (hb : s.linkBegun = true) : t.linkBegun = true := by
  cases h with
  | restart hc hr => exact hr.elim
  | portBegin p hp hb => simp [Machine.portBegin, Ran.ok, *]
  | receive p hp hb =>
    rcases receiveStep_state p s with ⟨_, _, _, h⟩ | ⟨_, h | ⟨_, h⟩ | h | h⟩ <;> simp [*]
  | activity p => rw [(sendActivity_facts p s).2.1, hb]
  | write p a f => rcases sendWrite_cases p a f s with ⟨_, h⟩ | ⟨_, h⟩ <;> simp [h, Ran.ok, hb]
  | powerDown p => rcases powerDownStep_cases p s with h | h | h <;> simp [h, Ran.ok, hb]
  | linkBegun h => rfl
  | _ => simp [hb]

theorem Changes.linkBegun_stays {s t : State} (h : Changes C False s t) (hb : s.linkBegun = true) : t.linkBegun = true :=
  Changes.keeps (P := fun u => u.linkBegun = true) (fun _ _ hc => hc.linkBegun_stays) h hb

/-- The gaps still listed are the last of those before; without a poll cycle they all are, and PHASE stays. -/
theorem Change.gaps_suffix {s t : State} (h : Change C R s t) :
    t.gaps <:+ s.gaps ∧ (¬C → t.gaps = s.gaps ∧ t.phase = s.phase) := by
  have same : t.gaps = s.gaps ∧ t.phase = s.phase → t.gaps <:+ s.gaps ∧ (¬C → t.gaps = s.gaps ∧ t.phase = s.phase) :=
    fun e => ⟨by rw [e.1], fun _ => e⟩
  cases h with
  | gap hc ms rest h => exact ⟨h ▸ List.suffix_cons ms rest, fun n => absurd hc n⟩
  | restart hc => exact ⟨List.nil_suffix, fun n => absurd hc n⟩
  | dispatch hc => exact ⟨List.suffix_rfl, fun n => absurd hc n⟩
  | endCycle hc => exact ⟨List.suffix_rfl, fun n => absurd hc n⟩
  | portBegin p hp hb => exact same (by simp [Machine.portBegin, hp, hb, Ran.ok])
  | receive p hp hb =>
    rcases receiveStep_state p s with ⟨_, _, _, h⟩ | ⟨_, h | ⟨_, h⟩ | h | h⟩ <;> exact same (by simp [h])
  | activity p => exact same (by simp [sendActivity])
  | write p a f => rcases sendWrite_cases p a f s with ⟨_, h⟩ | ⟨_, h⟩ <;> exact same (by simp [h, Ran.ok])
  | powerDown p => rcases powerDownStep_cases p s with h | h | h <;> exact same (by simp [h, Ran.ok])
  | _ => exact same (by simp)

theorem Changes.gaps_suffix {s t : State} (h : Changes C R s t) : t.gaps <:+ s.gaps := by
  induction h with
  | refl => exact List.suffix_rfl
  | tail _ hc ih => exact hc.gaps_suffix.1.trans ih

/-- Without a poll cycle the gaps and PHASE stay. -/
theorem Changes.outside_cycle {s t : State} (h : Changes False R s t) : t.gaps = s.gaps ∧ t.phase = s.phase := by
  induction h with
  | refl => exact ⟨rfl, rfl⟩
  | tail _ hc ih =>
    obtain ⟨a, b⟩ := hc.gaps_suffix.2 id
    exact ⟨a.trans ih.1, b.trans ih.2⟩

/-! ### Port operations, with or without a fault -/

theorem Ran.finish_next {α : Type} {x : Ran α} {f : α → Result} {t : State} (h : x.finish f = .next t) :
    t = x.state ∨ ∃ r, t = { x.state with result := r } := by
  unfold Ran.finish at h; cases h; split
  · exact .inr ⟨_, rfl⟩
  · exact .inl rfl

theorem finish_changes {α : Type} {x : Ran α} {f : α → Result} {s t : State} (hx : Changes C R s x.state)
    (h : x.finish f = .next t) : Changes C R s t := by
  rcases Ran.finish_next h with rfl | ⟨r, rfl⟩
  · exact hx
  · exact hx.tail (.result _ r)

theorem portOp_changes {α : Type} {op : Byte} {p : Port} {s : State} {k : Ran α} (hf : s.faults = [])
    (hk : (s.cfg.port p).present = true → (s.port p).begun = true → Changes C R s k.state) :
    Changes C R s (portOp op p s k).state := by
  rcases portOp_cases op p s k with ⟨hp, hb, h⟩ | ⟨r, h⟩ <;> rw [h]
  · exact hk hp hb
  · exact (Change.raise s r hf).one

theorem portBegin_changes (p : Port) {s : State} (hf : s.faults = []) : Changes C R s (portBegin p s).state := by
  by_cases hp : (s.cfg.port p).present = true
  · by_cases hb : (s.port p).begun = true
    · have : portBegin p s = .raised s (.beginTwice opPortBegin) := by unfold portBegin; rw [if_pos hp, if_pos hb]
      rw [this]; exact (Change.raise s _ hf).one
    · exact (Change.portBegin s p hp (by simpa using hb)).one
  · have : portBegin p s = .raised s (.absentPort opPortBegin p) := by unfold portBegin; rw [if_neg hp]
    rw [this]; exact (Change.raise s _ hf).one

theorem portReceive_changes (p : Port) {s : State} (hf : s.faults = []) : Changes C R s (portReceive p s).state :=
  portOp_changes hf fun hp hb => (Change.receive s p hp hb).one

theorem portSend_changes (p : Port) (a : Nib) (f : Frame) {s : State} (hf : s.faults = []) :
    Changes C R s (portSend p a f s).state :=
  portOp_changes hf fun hp hb => by
    obtain ⟨h1, _, h3⟩ := sendActivity_facts p s
    exact (Change.activity s p hp hb).one.tail (.write _ p a f (by rw [h1, hp]) (by rw [h3, hb]))

theorem portPowerDown_changes (p : Port) {s : State} (hf : s.faults = []) : Changes C R s (portPowerDown p s).state :=
  portOp_changes hf fun hp hb => (Change.powerDown s p hp hb).one

theorem portIdle_changes (p : Port) {s : State} (hf : s.faults = []) : Changes C R s (portIdle p s).state :=
  portOp_changes hf fun _ _ => (Change.clock s).one

theorem portReadStats_changes (p : Port) {s : State} (hf : s.faults = []) : Changes C R s (portReadStats p s).state :=
  portOp_changes hf fun _ _ => .refl

theorem portOp_linkBegun {α : Type} {op : Byte} {p : Port} {s : State} {k : Ran α}
    (hk : k.state.linkBegun = s.linkBegun) : (portOp op p s k).state.linkBegun = s.linkBegun := by
  rcases portOp_cases op p s k with ⟨_, _, h⟩ | ⟨r, h⟩ <;> rw [h]
  · exact hk
  · rfl

theorem portReceive_linkBegun (p : Port) (s : State) : (portReceive p s).state.linkBegun = s.linkBegun :=
  portOp_linkBegun (by rcases receiveStep_state p s with ⟨_, _, _, h⟩ | ⟨_, h | ⟨_, h⟩ | h | h⟩ <;> simp [h])

theorem portSend_linkBegun (p : Port) (a : Nib) (f : Frame) (s : State) :
    (portSend p a f s).state.linkBegun = s.linkBegun :=
  portOp_linkBegun (by
    have e := (sendActivity_facts p s).2.1
    rcases sendWrite_cases p a f (sendActivity p s) with ⟨_, h⟩ | ⟨_, h⟩ <;> rw [h] <;> simp [Ran.ok, e])

theorem portPowerDown_linkBegun (p : Port) (s : State) : (portPowerDown p s).state.linkBegun = s.linkBegun :=
  portOp_linkBegun (by rcases powerDownStep_cases p s with h | h | h <;> simp [h, Ran.ok])

theorem portCommand_changes {op : Byte} {s t : State} {k : Step} (hk : s.faults = [] → k = .next t → Changes C R s t)
    (h : portCommand op s k = .next t) : Changes C R s t := by
  obtain ⟨hf, h | rfl⟩ := portCommand_next h
  · exact hk hf h
  · exact (Change.raise s _ hf).one

/-! ### Line agents -/

theorem lineRx_changes {p : Port} {b : Byte} {s t : State} (h : lineRx p b s = .next t) : Changes C R s t := by
  obtain ⟨hf, hp, hb, ⟨_, rfl⟩ | ⟨hr, rfl⟩⟩ := lineRx_next h
  · exact (Change.raise s _ hf).one
  · exact (Change.lineRx s p b hp hb hr).one

theorem lineTx_changes {p : Port} {s t : State} (h : lineTx p s = .next t) : Changes C R s t := by
  obtain ⟨_, hp, b, rest, ht, rfl⟩ := lineTx_next h
  exact (Change.lineTx s p b rest hp ht).one

theorem andThen_changes {o : Step} {k : State → Step} {s t : State} (ho : ∀ u, o = .next u → Changes C R s u)
    (hk : ∀ u, Changes C R s u → u.faults = [] → k u = .next t → Changes C R s t) (h : andThen o k = .next t) : Changes C R s t := by
  rcases andThen_next h with ⟨u, h1, h2, h3⟩ | ⟨h1, _⟩
  · exact hk u (ho u h1) h2 h3
  · exact ho t h1

/-- A reset may fall into a gap of the running cycle only if `R` says so. -/
abbrev ResetsOnly (R : Prop) (s : State) : Prop := ∀ ms ∈ s.gaps, Move.reset ∈ ms → R

theorem ResetsOnly.after {s u : State} (h : ResetsOnly R s) (k : Changes C R s u) : ResetsOnly R u :=
  fun ms hm => h ms (k.gaps_suffix.mem hm)

theorem inCycle_changes {o : Step} {k : State → Step} {s t : State} (ho : ∀ u, o = .next u → Changes C R s u)
    (hk : ∀ u, Changes C R s u → u.faults = [] → u.linkBegun = true → k u = .next t → Changes C R s t)
    (h : inCycle o k = .next t) : Changes C R s t := by
  rcases inCycle_next h with ⟨u, h1, h2, h3, h4⟩ | h1
  · exact hk u (ho u h1) h2 h3 h4
  · exact ho t h1

theorem setClock_changes {n : Nat} {s t : State} (h : setClock n s = .next t) : Changes C R s t := by
  obtain ⟨hn, rfl⟩ := setClock_next h
  exact (Change.setClock s n hn).one

theorem lineRxAll_changes {p : Port} {bs : List Byte} {s t : State} (h : lineRxAll p bs s = .next t) : Changes C R s t := by
  induction bs generalizing s with
  | nil => cases h; exact .refl
  | cons b bs ih => exact andThen_changes (fun _ => lineRx_changes) (fun u hu _ hk => hu.trans (ih hk)) h

theorem frameArrives_changes {p : Port} {f : Frame} {s t : State} (h : frameArrives p f s = .next t) : Changes C R s t :=
  lineRxAll_changes (whenRunning_next h).2

/-! ### The codec and the reserved opcodes -/

theorem answer_changes {s t : State} {r : Result} (h : answer s r = .next t) : Changes C R s t := by
  cases (whenRunning_next h).2; exact (Change.result s r).one

theorem raising_changes {s t : State} {r : FaultRecord} (h : raising s r = .next t) : Changes C R s t := by
  obtain ⟨hf, h⟩ := whenRunning_next h; cases h; exact (Change.raise s r hf).one

/-! ### The link, but for the cycle -/

theorem execLinkBegin_changes {s t : State} (h : execLinkBegin s = .next t) : Changes C R s t := by
  obtain ⟨hf, h⟩ := whenRunning_next h
  rcases notReentrant_next h with ⟨_, h⟩ | rfl
  swap; · exact (Change.raise s _ hf).one
  split at h
  · cases h; exact (Change.raise s _ hf).one
  refine finish_changes ?_ h
  -- the two port operations, each guarded by presence
  have guarded : ∀ (p : Port) (u : State), u.faults = [] → Changes C R u (ifPresent p u (portBegin p u)).state := by
    intro p u hu; unfold ifPresent; split
    · exact portBegin_changes p hu
    · exact .refl
  have begun : ∀ (p : Port) (u : State) a, (ifPresent p u (portBegin p u)).val = some a →
      (ifPresent p u (portBegin p u)).state.faults = u.faults
      ∧ (ifPresent p u (portBegin p u)).state.cfg = u.cfg
      ∧ ((u.cfg.port p).present = true → ((ifPresent p u (portBegin p u)).state.port p).begun = true)
      ∧ (∀ q, q ≠ p → (ifPresent p u (portBegin p u)).state.port q = u.port q) := by
    intro p u a hv
    unfold ifPresent at hv ⊢
    by_cases hp : (u.cfg.port p).present = true
    · rw [if_pos hp] at hv ⊢
      unfold portBegin at hv ⊢
      rw [if_pos hp] at hv ⊢
      by_cases hb : (u.port p).begun = true
      · rw [if_pos hb] at hv; cases hv
      · rw [if_neg hb]
        refine ⟨by simp [Ran.ok], by simp [Ran.ok], by simp [Ran.ok], fun q hq => ?_⟩
        simp only [Ran.ok, State.setPort_port_other _ _ hq, State.setActive_port_other _ _ hq, State.emit_port]
    · rw [if_neg hp]; exact ⟨rfl, rfl, fun h => absurd h hp, fun _ _ => rfl⟩
  unfold linkBeginOps
  generalize hx : ifPresent .plug s (portBegin .plug s) = x
  have gx : Changes C R s x.state := hx ▸ guarded .plug s hf
  unfold Ran.bind
  split
  · rename_i a ha
    obtain ⟨f1, c1, b1, _⟩ := begun .plug s a (hx ▸ ha)
    rw [hx] at f1 c1 b1
    generalize hy : ifPresent .socket x.state (portBegin .socket x.state) = y
    have gy : Changes C R x.state y.state := hy ▸ guarded .socket x.state (by rw [f1, hf])
    dsimp only
    rw [hy]
    split
    · rename_i b hb
      obtain ⟨_, c2, b2, o2⟩ := begun .socket x.state b (hy ▸ hb)
      rw [hy] at c2 b2 o2
      refine (gx.trans gy).tail (.linkBegun _ ?_)
      intro p hp
      cases p with
      | plug => rw [o2 .plug (by decide)]; exact b1 (by rw [c2, c1] at hp; exact hp)
      | socket => exact b2 (by rw [c2] at hp; exact hp)
    · exact gx.trans gy
  · exact gx

theorem execLinkIdle_changes {s t : State} (h : execLinkIdle s = .next t) : Changes C R s t := by
  obtain ⟨hf, h⟩ := whenRunning_next h
  rcases whenBegun_next h with ⟨_, h⟩ | rfl
  swap; · exact (Change.raise s _ hf).one
  refine finish_changes ?_ h
  have one : ∀ (p : Port) (u : State), u.faults = [] → Changes C R u (idleOrAbsent p u).state
      ∧ ∀ b, (idleOrAbsent p u).val = some b → (idleOrAbsent p u).state.faults = [] := by
    intro p u hu; unfold idleOrAbsent; split
    · refine ⟨portIdle_changes p hu, fun b hb => ?_⟩
      unfold portIdle at hb ⊢
      rcases portOp_cases opPortIdle p u (.ok (idleAt u p u.now.1) u.now.2) with ⟨_, _, e⟩ | ⟨r, e⟩
      · rw [e]; simpa [Ran.ok] using hu
      · rw [e] at hb; cases hb
    · exact ⟨.refl, fun _ _ => hu⟩
  unfold linkIdleOps Ran.bind
  obtain ⟨g1, k1⟩ := one .plug s hf
  split
  · rename_i b hb
    obtain ⟨g2, _⟩ := one .socket _ (k1 b hb)
    dsimp only
    split
    · exact g1.trans g2
    · exact g1.trans g2
  · exact g1

theorem execLinkSend_changes {p : Port} {a : Nib} {f : Frame} {s t : State} (h : execLinkSend p a f s = .next t) :
    Changes C R s t := by
  obtain ⟨hf, h⟩ := whenRunning_next h
  rcases whenBegun_next h with ⟨_, h⟩ | rfl
  · rcases whenPresent_next h with ⟨_, h⟩ | rfl
    · exact finish_changes (portSend_changes p a f hf) h
    · exact (Change.raise s _ hf).one
  · exact (Change.raise s _ hf).one

theorem execLinkReadStats_changes {p : Port} {s t : State} (h : execLinkReadStats p s = .next t) : Changes C R s t := by
  obtain ⟨hf, h⟩ := whenRunning_next h
  rcases whenBegun_next h with ⟨_, h⟩ | rfl
  · rcases whenPresent_next h with ⟨_, h⟩ | rfl
    · exact finish_changes (portReadStats_changes p hf) h
    · exact (Change.raise s _ hf).one
  · exact (Change.raise s _ hf).one

/-! ### Every command but the two that run the cycle -/

/-- Between two port operations of a cycle an instruction that does not run the cycle has the meaning exec gives it. -/
theorem gapCommand_eq_exec {i : Instr} (h1 : i ≠ .linkLoop) (h2 : i ≠ .linkHandlerDone) (g : State → Step) (s : State) :
    gapCommand g i s = exec i s := by
  cases i <;> first | rfl | exact absurd rfl h1 | exact absurd rfl h2

theorem command_changes {i : Instr} (h1 : i ≠ .linkLoop) (h2 : i ≠ .linkHandlerDone) {s t : State}
    (h : exec i s = .next t) : Changes C R s t := by
  cases i with
  | decodeMidi f => simp only [exec, execDecodeMidi] at h; split at h; exacts [answer_changes h, raising_changes h]
  | decodePulse f => simp only [exec, execDecodePulse] at h; split at h; exacts [answer_changes h, raising_changes h]
  | getType | getAddress | encodeHeader | encodeMidi | encodePulse | plEncode | plDecode => exact answer_changes h
  | portBegin p => exact portCommand_changes (fun hf => finish_changes (portBegin_changes p hf)) h
  | portReceive p => exact portCommand_changes (fun hf => finish_changes (portReceive_changes p hf)) h
  | portSend p a f => exact portCommand_changes (fun hf => finish_changes (portSend_changes p a f hf)) h
  | portPowerDown p => exact portCommand_changes (fun hf => finish_changes (portPowerDown_changes p hf)) h
  | portIdle p => exact portCommand_changes (fun hf => finish_changes (portIdle_changes p hf)) h
  | portReadStats p => exact portCommand_changes (fun hf => finish_changes (portReadStats_changes p hf)) h
  | linkBegin => exact execLinkBegin_changes h
  | linkIdle => exact execLinkIdle_changes h
  | linkSend => exact execLinkSend_changes h
  | linkReadStats => exact execLinkReadStats_changes h
  | linkLoop => exact absurd rfl h1
  | linkHandlerDone => exact absurd rfl h2
  | frameMidi | framePulse | frameReserved => exact frameArrives_changes h
  | _ => exact raising_changes h

/-! ### The poll cycle, over what its gaps do -/

/-- What falls into the gaps of a cycle is a sequence of changes. -/
abbrev GapsChange (C R : Prop) (g : State → Step) : Prop := ∀ s t, ResetsOnly R s → g s = .next t → Changes C R s t

variable {g : State → Step}

/-- A gap, then a port operation, then the rest of the cycle. -/
theorem issue_changes {α : Type} {x : State → Ran α} {k : α → State → Step} {s t : State} (hg : GapsChange C R g)
    (hR : ResetsOnly R s) (hx : ∀ u, u.faults = [] → Changes C R u (x u).state)
    (hk : ∀ a u, Changes C R s u → u.linkBegun = true → k a u = .next t → Changes C R s t)
    (hl : ∀ u, (x u).state.linkBegun = u.linkBegun)
    (h : (inCycle (g s) fun u => (x u).andThen k) = .next t) : Changes C R s t := by
  refine inCycle_changes (fun u => hg s u hR) (fun u hu hf hb hr => ?_) h
  rcases Ran.andThen_next hr with ⟨a, _, hr⟩ | ⟨_, rfl⟩
  · exact hk a _ (hu.trans (hx u hf)) ((hl u).trans hb) hr
  · exact hu.trans (hx u hf)

theorem powerDownPresent_changes {p : Port} {k : State → Step} {s t : State} (hg : GapsChange C R g) (hR : ResetsOnly R s)
    (hb : s.linkBegun = true) (hk : ∀ u, Changes C R s u → u.linkBegun = true → k u = .next t → Changes C R s t)
    (h : powerDownPresent g p s k = .next t) : Changes C R s t := by
  unfold powerDownPresent at h; split at h
  · exact issue_changes hg hR (fun u hf => portPowerDown_changes p hf) (fun _ u hu hl hr => hk u hu hl hr)
      (fun u => portPowerDown_linkBegun p u) h
  · exact hk s .refl hb h

theorem cycleS3_changes {s t : State} (hc : C) (hg : GapsChange C R g) (hR : ResetsOnly R s) (hb : s.linkBegun = true)
    (h : cycleS3 g s = .next t) : Changes C R s t :=
  powerDownPresent_changes hg hR hb (fun _ hu hl hr => hu.trans
    (powerDownPresent_changes hg (hR.after hu) hl (fun v hv _ he => by cases he; exact hv.tail (.endCycle v hc)) hr)) h

theorem forward_changes {p : Port} {a : Nib} {f : Frame} {k : State → Step} {s t : State} (hg : GapsChange C R g)
    (hR : ResetsOnly R s) (hk : ∀ u, Changes C R s u → u.linkBegun = true → k u = .next t → Changes C R s t)
    (h : forward g p a f s k = .next t) : Changes C R s t :=
  issue_changes hg hR (fun _ hf => portSend_changes p a f hf) (fun _ u hu hl hr => hk u hu hl hr)
    (fun u => portSend_linkBegun p a f u) h

theorem dispatch_changes {src : Port} {f : Frame} {ph : Phase} {s t : State} (hc : C) (hb : s.linkBegun = true)
    (hph : ph ≠ .three) (h : dispatch src f ph s = .next t) : Changes C R s t := by
  cases h; exact (Change.dispatch s hc src f ph hb hph).one

theorem routeSocketFrame_changes {f : Frame} {s t : State} (hc : C) (hg : GapsChange C R g) (hR : ResetsOnly R s)
    (hb : s.linkBegun = true) (h : routeSocketFrame g f s = .next t) : Changes C R s t := by
  unfold routeSocketFrame at h; split at h
  · exact forward_changes hg hR (fun _ hu hl hr => hu.trans (dispatch_changes hc hl (by decide) hr)) h
  · exact dispatch_changes hc hb (by decide) h

theorem cycleS2_changes {s t : State} (hc : C) (hg : GapsChange C R g) (hR : ResetsOnly R s) (hb : s.linkBegun = true)
    (h : cycleS2 g s = .next t) : Changes C R s t := by
  unfold cycleS2 at h; split at h
  · refine issue_changes hg hR (fun _ hf => portReceive_changes .socket hf) (fun r u hu hl hr => ?_)
      (fun u => portReceive_linkBegun .socket u) h
    split at hr
    · exact hu.trans (cycleS3_changes hc hg (hR.after hu) hl hr)
    · exact hu.trans (routeSocketFrame_changes hc hg (hR.after hu) hl hr)
  · exact cycleS3_changes hc hg hR hb h

theorem routePlugFrame_changes {f : Frame} {s t : State} (hc : C) (hg : GapsChange C R g) (hR : ResetsOnly R s)
    (hb : s.linkBegun = true) (h : routePlugFrame g f s = .next t) : Changes C R s t := by
  unfold routePlugFrame at h; split at h
  · exact dispatch_changes hc hb (by decide) h
  · split at h
    · exact forward_changes hg hR (fun _ hu hl hr => hu.trans (cycleS2_changes hc hg (hR.after hu) hl hr)) h
    · exact cycleS2_changes hc hg hR hb h

theorem cycleS1_changes {s t : State} (hc : C) (hg : GapsChange C R g) (hR : ResetsOnly R s) (hb : s.linkBegun = true)
    (h : cycleS1 g s = .next t) : Changes C R s t := by
  unfold cycleS1 at h; split at h
  · refine issue_changes hg hR (fun _ hf => portReceive_changes .plug hf) (fun r u hu hl hr => ?_)
      (fun u => portReceive_linkBegun .plug u) h
    split at hr
    · exact hu.trans (cycleS2_changes hc hg (hR.after hu) hl hr)
    · exact hu.trans (routePlugFrame_changes hc hg (hR.after hu) hl hr)
  · exact cycleS2_changes hc hg hR hb h

theorem linkLoopWith_changes {s t : State} (hc : C) (hg : GapsChange C R g) (hR : ResetsOnly R s)
    (h : linkLoopWith g s = .next t) : Changes C R s t := by
  obtain ⟨hf, h⟩ := whenRunning_next h
  rcases notReentrant_next h with ⟨_, h⟩ | rfl
  · rcases whenBegun_next h with ⟨hb, h⟩ | rfl
    · exact cycleS1_changes hc hg hR hb h
    · exact (Change.raise s _ hf).one
  · exact (Change.raise s _ hf).one

theorem handlerDoneWith_changes {s t : State} (hc : C) (hg : GapsChange C R g) (hR : ResetsOnly R s)
    (h : handlerDoneWith g s = .next t) : Changes C R s t := by
  obtain ⟨hf, h⟩ := whenRunning_next h
  split at h
  · cases h; exact (Change.raise s _ hf).one
  · cases h; exact (Change.raise s _ hf).one
  · rcases whenBegun_next h with ⟨hb, h⟩ | rfl
    · exact cycleS2_changes hc hg hR hb h
    · exact (Change.raise s _ hf).one
  · rcases whenBegun_next h with ⟨hb, h⟩ | rfl
    · exact cycleS3_changes hc hg hR hb h
    · exact (Change.raise s _ hf).one

/-! ### Gaps -/

theorem gapCommand_changes {i : Instr} {s t : State} (hc : C) (hg : GapsChange C R g) (hR : ResetsOnly R s)
    (h : gapCommand g i s = .next t) : Changes C R s t := by
  by_cases h1 : i = .linkLoop
  · subst h1; exact linkLoopWith_changes hc hg hR h
  · by_cases h2 : i = .linkHandlerDone
    · subst h2; exact handlerDoneWith_changes hc hg hR h
    · exact command_changes h1 h2 ((gapCommand_eq_exec h1 h2 g s).symm.trans h)

theorem gapMove_changes {m : Move} {s t : State} (hc : C) (hg : GapsChange C R g) (hR : ResetsOnly R s)
    (hm : m = .reset → R) (h : gapMove g m s = .next t) : Changes C R s t := by
  cases m with
  | word i w => exact .head (.issuer s i) (gapCommand_changes (s := { s with issuer := i }) hc hg hR h)
  | lineRx p b => exact lineRx_changes h
  | lineTx p => exact lineTx_changes h
  | setClock n => exact setClock_changes h
  | reset => cases h; exact (Change.restart s hc (hm rfl)).one

theorem gapMoves_changes {ms : List Move} {s t : State} (hc : C) (hg : GapsChange C R g) (hR : ResetsOnly R s)
    (hm : .reset ∈ ms → R) (h : gapMoves g ms s = .next t) : Changes C R s t := by
  induction ms generalizing s with
  | nil => cases h; exact .refl
  | cons m ms ih =>
    exact inCycle_changes (fun _ => gapMove_changes hc hg hR fun e => hm (e ▸ List.mem_cons_self))
      (fun u hu _ _ hk => hu.trans (ih (hR.after hu) (fun k => hm (List.mem_cons_of_mem _ k)) hk)) h

theorem gap_changes (hc : C) (n : Nat) : GapsChange C R (gap n) := by
  induction n with
  | zero => intro s t _ h; cases h; exact .refl
  | succ n ih =>
    intro s t hR h
    unfold gap at h; split at h
    · cases h; exact .refl
    · rename_i ms rest e
      refine .head (.gap s hc ms rest e) (gapMoves_changes (s := { s with gaps := rest }) hc ih ?_ ?_ h)
      · exact fun ms' hm => hR ms' (by rw [e]; exact List.mem_cons_of_mem _ hm)
      · exact hR ms (by rw [e]; exact List.mem_cons_self)

/-! ### Every command -/

/-- Whatever the instruction, a next state is reached by elementary changes, a reset among them only if one is listed in a gap. -/
theorem exec_changes {i : Instr} {s t : State} (h : exec i s = .next t) :
    Changes True (∃ ms ∈ s.gaps, Move.reset ∈ ms) s t := by
  have hR : ResetsOnly (∃ ms ∈ s.gaps, Move.reset ∈ ms) s := fun ms hm hr => ⟨ms, hm, hr⟩
  by_cases h1 : i = .linkLoop
  · subst h1; exact linkLoopWith_changes trivial (gap_changes trivial _) hR h
  · by_cases h2 : i = .linkHandlerDone
    · subst h2; exact handlerDoneWith_changes trivial (gap_changes trivial _) hR h
    · exact command_changes h1 h2 h

end Sys2Proof.Machine
end

