-- ==== Sys2Proof/Laws/Gap.lean ====
section
/-! SUPPORT. The depth of `gap` bounds nothing: a cycle behaves the same at every depth that is at least the number of gaps listed.
Log entry 6. -/

namespace Sys2Proof.Machine

/-- Two gap handlers that agree where at most `l` gaps are listed, the first of which only makes elementary changes. -/
structure Agree (l : Nat) (g g' : State → Step) : Prop where
  same : ∀ s : State, s.gaps.length ≤ l → g s = g' s
  changes : GapsChange True True g

variable {l : Nat} {g g' : State → Step}

theorem inCycle_congr {o : Step} {k k' : State → Step} (h : ∀ u, o = .next u → k u = k' u) : inCycle o k = inCycle o k' := by
  unfold inCycle andThen
  split
  · rename_i u
    split
    · dsimp only; rw [h u rfl]
    · rfl
  · rfl
  · rfl

/-- A gap, a port operation and the rest of the cycle. -/
theorem Agree.issue (h : Agree l g g') {α : Type} {x : State → Ran α} {k k' : α → State → Step} {s : State}
    (hs : s.gaps.length ≤ l) (hx : ∀ u, (x u).state.gaps = u.gaps) (hk : ∀ a u, u.gaps.length ≤ l → k a u = k' a u) :
    (inCycle (g s) fun u => (x u).andThen k) = inCycle (g' s) fun u => (x u).andThen k' := by
  rw [← h.same s hs]
  refine inCycle_congr fun u hu => ?_
  unfold Ran.andThen
  split
  · refine hk _ _ ?_
    rw [hx u]
    exact ((h.changes s u (fun _ _ _ => trivial) hu).gaps_suffix.length_le).trans hs
  · rfl

theorem portOp_gaps {α : Type} {op : Byte} {p : Port} {s : State} {k : Ran α} (hk : k.state.gaps = s.gaps) :
    (portOp op p s k).state.gaps = s.gaps := by
  rcases portOp_cases op p s k with ⟨_, _, h⟩ | ⟨r, h⟩ <;> rw [h]
  · exact hk
  · rfl

theorem portReceive_gaps (p : Port) (s : State) : (portReceive p s).state.gaps = s.gaps :=
  portOp_gaps (receiveStep_touches p s).gaps

theorem portSend_gaps (p : Port) (a : Nib) (f : Frame) (s : State) : (portSend p a f s).state.gaps = s.gaps :=
  portOp_gaps ((sendWrite_touches p a f _).gaps.trans (sendActivity_touches p s).gaps)

theorem portPowerDown_gaps (p : Port) (s : State) : (portPowerDown p s).state.gaps = s.gaps :=
  portOp_gaps (powerDownStep_touches p s).gaps

theorem Agree.powerDown (h : Agree l g g') {p : Port} {k k' : State → Step} {s : State} (hs : s.gaps.length ≤ l)
    (hk : ∀ u, u.gaps.length ≤ l → k u = k' u) : powerDownPresent g p s k = powerDownPresent g' p s k' := by
  unfold powerDownPresent; split
  · exact h.issue hs (portPowerDown_gaps p) fun _ => hk
  · exact hk s hs

theorem Agree.forward (h : Agree l g g') {p : Port} {a : Nib} {f : Frame} {k k' : State → Step} {s : State}
    (hs : s.gaps.length ≤ l) (hk : ∀ u, u.gaps.length ≤ l → k u = k' u) : forward g p a f s k = forward g' p a f s k' :=
  h.issue hs (portSend_gaps p a f) fun _ => hk

theorem Agree.cycleS3 (h : Agree l g g') {s : State} (hs : s.gaps.length ≤ l) : cycleS3 g s = cycleS3 g' s :=
  h.powerDown hs fun _ hu => h.powerDown hu fun _ _ => rfl

theorem Agree.routeSocketFrame (h : Agree l g g') (f : Frame) {s : State} (hs : s.gaps.length ≤ l) :
    routeSocketFrame g f s = routeSocketFrame g' f s := by
  unfold Machine.routeSocketFrame; split
  · exact h.forward hs fun _ _ => rfl
  · rfl

theorem Agree.cycleS2 (h : Agree l g g') {s : State} (hs : s.gaps.length ≤ l) : cycleS2 g s = cycleS2 g' s := by
  unfold Machine.cycleS2; split
  · refine h.issue hs (portReceive_gaps .socket) fun r u hu => ?_
    cases r with
    | none => exact h.cycleS3 hu
    | some f => exact h.routeSocketFrame f hu
  · exact h.cycleS3 hs

theorem Agree.routePlugFrame (h : Agree l g g') (f : Frame) {s : State} (hs : s.gaps.length ≤ l) :
    routePlugFrame g f s = routePlugFrame g' f s := by
  unfold Machine.routePlugFrame; split
  · rfl
  · split
    · exact h.forward hs fun _ hu => h.cycleS2 hu
    · exact h.cycleS2 hs

theorem Agree.cycleS1 (h : Agree l g g') {s : State} (hs : s.gaps.length ≤ l) : cycleS1 g s = cycleS1 g' s := by
  unfold Machine.cycleS1; split
  · refine h.issue hs (portReceive_gaps .plug) fun r u hu => ?_
    cases r with
    | none => exact h.cycleS2 hu
    | some f => exact h.routePlugFrame f hu
  · exact h.cycleS2 hs

theorem Agree.linkLoopWith (h : Agree l g g') {s : State} (hs : s.gaps.length ≤ l) : linkLoopWith g s = linkLoopWith g' s := by
  unfold Machine.linkLoopWith; rw [h.cycleS1 hs]

theorem Agree.handlerDoneWith (h : Agree l g g') {s : State} (hs : s.gaps.length ≤ l) :
    handlerDoneWith g s = handlerDoneWith g' s := by
  unfold Machine.handlerDoneWith; rw [h.cycleS2 hs, h.cycleS3 hs]

theorem Agree.gapCommand (h : Agree l g g') (i : Instr) {s : State} (hs : s.gaps.length ≤ l) :
    gapCommand g i s = gapCommand g' i s := by
  cases i with
  | linkLoop => exact h.linkLoopWith hs
  | linkHandlerDone => exact h.handlerDoneWith hs
  | _ => rfl

theorem Agree.gapMoves (h : Agree l g g') (ms : List Move) {s : State} (hs : s.gaps.length ≤ l) :
    gapMoves g ms s = gapMoves g' ms s := by
  induction ms generalizing s with
  | nil => rfl
  | cons m ms ih =>
    have hm : gapMove g m s = gapMove g' m s := by
      cases m with
      | word i w => exact h.gapCommand (decodeWord w) (s := { s with issuer := i }) hs
      | _ => rfl
    show inCycle (gapMove g m s) _ = inCycle (gapMove g' m s) _
    rw [← hm]
    refine inCycle_congr fun u hu => ih ?_
    have c : Changes True True s u := gapMove_changes trivial h.changes (fun _ _ _ => trivial) (fun _ => trivial) hu
    exact c.gaps_suffix.length_le.trans hs

/-- Any two depths that are at least the number of gaps listed give the same gap. -/
theorem gap_depth (n m : Nat) (s : State) (hn : s.gaps.length ≤ n) (hm : s.gaps.length ≤ m) : gap n s = gap m s := by
  induction n generalizing m s with
  | zero =>
    have e : s.gaps = [] := List.length_eq_zero_iff.mp (Nat.le_zero.mp hn)
    rw [gap_quiet e, gap_quiet e]
  | succ n ih =>
    cases e : s.gaps with
    | nil => rw [gap_quiet e, gap_quiet e]
    | cons ms rest =>
      rw [e, List.length_cons] at hn hm
      obtain ⟨m, rfl⟩ : ∃ k, m = k + 1 := ⟨m - 1, by omega⟩
      unfold gap; rw [e]
      exact Agree.gapMoves (l := rest.length)
        ⟨fun u hu => ih m u (by omega) (by omega), gap_changes trivial n⟩ ms (s := { s with gaps := rest }) le_rfl

end Sys2Proof.Machine
end

