-- ==== Sys2Proof/Laws/Inv.lean ====
section
/-! SUPPORT. How the invariant of a block is read and re-established after a write to one position's registers. -/

namespace Sys2Proof.Machine

theorem Inv.port {s : State} (h : Inv s) (p : Port) : PortOk s.cfg (s.cfg.port p) (s.port p) := by
  cases p
  · exact h.plug
  · exact h.socket

/-- A change that touches one position keeps the invariant when that position is still sound. -/
theorem Inv.touch {s t : State} {p : Port} (h : Inv s) (k : Touches p s t) (ok : PortOk s.cfg (s.cfg.port p) (t.port p)) :
    Inv t where
  plug := by
    rw [k.cfg]; cases p
    · exact ok
    · show PortOk _ _ (t.port .plug); rw [k.other .plug (by decide)]; exact h.plug
  socket := by
    rw [k.cfg]; cases p
    · show PortOk _ _ (t.port .socket); rw [k.other .socket (by decide)]; exact h.socket
    · exact ok
  phaseLegal := by rw [k.phase]; exact h.phaseLegal
  phaseBegun := by rw [k.phase, k.linkBegun]; exact h.phaseBegun
  portsBegun := by
    rw [k.linkBegun, k.cfg]; intro hb q hq
    by_cases e : q = p
    · subst e; rw [k.begun]; exact h.portsBegun hb q hq
    · rw [k.other q e]; exact h.portsBegun hb q hq
  oneFault := by rw [k.faults]; exact h.oneFault

/-- The registers as reset leaves them are sound. -/
theorem portOk_reset (c : Config) (pc : PortConfig) : PortOk c pc {} := by
  constructor <;> simp

/-- What no command undoes is reflexive and transitive. -/
theorem Grows.refl (s : State) : Grows s s := ⟨rfl, List.prefix_rfl, List.prefix_rfl, le_rfl, rfl⟩

theorem Grows.trans {s t u : State} (a : Grows s t) (b : Grows t u) : Grows s u :=
  ⟨b.cfg.trans a.cfg, a.faults.trans b.faults, a.events.trans b.events, a.time.trans b.time, b.program.trans a.program⟩

end Sys2Proof.Machine
end

