-- ==== Sys2Proof/Laws/PerInstr.lean ====
section
/-! SUPPORT. Statements for all instructions, one lemma per constructor. EncodesItsRow: the word of a well-formed instruction lies in
that instruction's row of spec/opcode_table.json. -/

namespace Sys2Proof.Laws.EncodesItsRow

/-- The fixed bits of a table row: of the opcode byte of a command, or of B0 of a frame. `lo` to `hi` is the range of the masked
value. -/
structure Row where
  isFrame : Bool
  mask : Byte
  lo : Byte
  hi : Byte
deriving DecidableEq, Repr

/-- The row of each constructor, as spec/opcode_table.json prints it. -/
def row : Instr → Row
  | .getType _ => ⟨false, 0xFF, 0x00, 0x00⟩
  | .getAddress _ => ⟨false, 0xFF, 0x01, 0x01⟩
  | .encodeHeader _ _ _ => ⟨false, 0xFF, 0x02, 0x02⟩
  | .decodeMidi _ => ⟨false, 0xFF, 0x03, 0x03⟩
  | .encodeMidi _ _ => ⟨false, 0xFF, 0x04, 0x04⟩
  | .decodePulse _ => ⟨false, 0xFF, 0x05, 0x05⟩
  | .encodePulse _ _ => ⟨false, 0xFF, 0x06, 0x06⟩
  | .plEncode _ _ => ⟨false, 0xFF, 0x07, 0x07⟩
  | .plDecode _ _ => ⟨false, 0xFF, 0x08, 0x08⟩
  | .portBegin _ => ⟨false, 0xFF, 0x10, 0x10⟩
  | .portReceive _ => ⟨false, 0xFF, 0x11, 0x11⟩
  | .portSend _ _ _ => ⟨false, 0xFF, 0x12, 0x12⟩
  | .portPowerDown _ => ⟨false, 0xFF, 0x13, 0x13⟩
  | .portIdle _ => ⟨false, 0xFF, 0x14, 0x14⟩
  | .portReadStats _ => ⟨false, 0xFF, 0x15, 0x15⟩
  | .linkBegin => ⟨false, 0xFF, 0x20, 0x20⟩
  | .linkLoop => ⟨false, 0xFF, 0x21, 0x21⟩
  | .linkHandlerDone => ⟨false, 0xFF, 0x22, 0x22⟩
  | .linkIdle => ⟨false, 0xFF, 0x23, 0x23⟩
  | .linkSend _ _ _ => ⟨false, 0xFF, 0x24, 0x24⟩
  | .linkReadStats _ => ⟨false, 0xFF, 0x25, 0x25⟩
  | .reserved09 => ⟨false, 0xFF, 0x09, 0x09⟩
  | .reserved0A => ⟨false, 0xFF, 0x0A, 0x0A⟩
  | .reserved0B => ⟨false, 0xFF, 0x0B, 0x0B⟩
  | .reserved0C => ⟨false, 0xFF, 0x0C, 0x0C⟩
  | .reserved0D => ⟨false, 0xFF, 0x0D, 0x0D⟩
  | .reserved0E => ⟨false, 0xFF, 0x0E, 0x0E⟩
  | .reserved0F => ⟨false, 0xFF, 0x0F, 0x0F⟩
  | .reserved16 => ⟨false, 0xFF, 0x16, 0x16⟩
  | .reserved17 => ⟨false, 0xFF, 0x17, 0x17⟩
  | .reserved18 => ⟨false, 0xFF, 0x18, 0x18⟩
  | .reserved19 => ⟨false, 0xFF, 0x19, 0x19⟩
  | .reserved1A => ⟨false, 0xFF, 0x1A, 0x1A⟩
  | .reserved1B => ⟨false, 0xFF, 0x1B, 0x1B⟩
  | .reserved1C => ⟨false, 0xFF, 0x1C, 0x1C⟩
  | .reserved1D => ⟨false, 0xFF, 0x1D, 0x1D⟩
  | .reserved1E => ⟨false, 0xFF, 0x1E, 0x1E⟩
  | .reserved1F => ⟨false, 0xFF, 0x1F, 0x1F⟩
  | .reserved26 => ⟨false, 0xFF, 0x26, 0x26⟩
  | .reserved27 => ⟨false, 0xFF, 0x27, 0x27⟩
  | .reserved28 => ⟨false, 0xFF, 0x28, 0x28⟩
  | .reserved29 => ⟨false, 0xFF, 0x29, 0x29⟩
  | .reserved2A => ⟨false, 0xFF, 0x2A, 0x2A⟩
  | .reserved2B => ⟨false, 0xFF, 0x2B, 0x2B⟩
  | .reserved2C => ⟨false, 0xFF, 0x2C, 0x2C⟩
  | .reserved2D => ⟨false, 0xFF, 0x2D, 0x2D⟩
  | .reserved2E => ⟨false, 0xFF, 0x2E, 0x2E⟩
  | .reserved2F => ⟨false, 0xFF, 0x2F, 0x2F⟩
  | .reservedUnits3To15 _ => ⟨false, 0xF0, 0x30, 0xF0⟩
  | .frameMidi _ _ _ => ⟨true, 0x0F, 0x00, 0x00⟩
  | .framePulse _ _ _ _ _ _ _ _ => ⟨true, 0x0F, 0x01, 0x01⟩
  | .frameReserved _ _ _ _ => ⟨true, 0x0F, 0x02, 0x0F⟩

/-- The word lies in the row. -/
def Row.covers (r : Row) : BusWord → Bool
  | .command c => !r.isFrame && r.lo.toNat ≤ (c.op &&& r.mask).toNat && (c.op &&& r.mask).toNat ≤ r.hi.toNat
  | .frame _ f => r.isFrame && r.lo.toNat ≤ (f.b0 &&& r.mask).toNat && (f.b0 &&& r.mask).toNat ≤ r.hi.toNat

/-- The encoding of a well-formed instruction lies in its row. -/
def Statement (i : Instr) : Prop := i.wf = true → (row i).covers (encode i) = true

theorem low_nibble (a t : Nib) : (headerByte a t).toNat &&& 15 = t.toNat := by
  rw [headerByte_toNat]
  have h : (a.toNat * 16 + t.toNat) &&& 15 = (a.toNat * 16 + t.toNat) % 16 := Nat.and_two_pow_sub_one_eq_mod _ 4
  have := t.isLt
  exact h.trans (by omega)

theorem getType (f : Frame) : Statement (.getType f) := fun _ => by simp [row, Row.covers, encode]
theorem getAddress (f : Frame) : Statement (.getAddress f) := fun _ => by simp [row, Row.covers, encode]
theorem encodeHeader (f : Frame) (a t : Nib) : Statement (.encodeHeader f a t) := fun _ => by simp [row, Row.covers, encode]
theorem decodeMidi (f : Frame) : Statement (.decodeMidi f) := fun _ => by simp [row, Row.covers, encode]
theorem encodeMidi (f : Frame) (m : Midi) : Statement (.encodeMidi f m) := fun _ => by simp [row, Row.covers, encode]
theorem decodePulse (f : Frame) : Statement (.decodePulse f) := fun _ => by simp [row, Row.covers, encode]
theorem encodePulse (f : Frame) (u : Pulse) : Statement (.encodePulse f u) := fun _ => by simp [row, Row.covers, encode]
theorem plEncode (q : Quantity) (v : Rat) : Statement (.plEncode q v) := fun _ => by simp [row, Row.covers, encode]
theorem plDecode (q : Quantity) (r : Raw) : Statement (.plDecode q r) := fun _ => by simp [row, Row.covers, encode]
theorem portBegin (p : Port) : Statement (.portBegin p) := fun _ => by simp [row, Row.covers, encode]
theorem portReceive (p : Port) : Statement (.portReceive p) := fun _ => by simp [row, Row.covers, encode]
theorem portSend (p : Port) (a : Nib) (f : Frame) : Statement (.portSend p a f) := fun _ => by simp [row, Row.covers, encode]
theorem portPowerDown (p : Port) : Statement (.portPowerDown p) := fun _ => by simp [row, Row.covers, encode]
theorem portIdle (p : Port) : Statement (.portIdle p) := fun _ => by simp [row, Row.covers, encode]
theorem portReadStats (p : Port) : Statement (.portReadStats p) := fun _ => by simp [row, Row.covers, encode]
theorem linkBegin : Statement (.linkBegin) := fun _ => rfl
theorem linkLoop : Statement (.linkLoop) := fun _ => rfl
theorem linkHandlerDone : Statement (.linkHandlerDone) := fun _ => rfl
theorem linkIdle : Statement (.linkIdle) := fun _ => rfl
theorem linkSend (p : Port) (a : Nib) (f : Frame) : Statement (.linkSend p a f) := fun _ => by simp [row, Row.covers, encode]
theorem linkReadStats (p : Port) : Statement (.linkReadStats p) := fun _ => by simp [row, Row.covers, encode]
theorem reserved09 : Statement (.reserved09) := fun _ => rfl
theorem reserved0A : Statement (.reserved0A) := fun _ => rfl
theorem reserved0B : Statement (.reserved0B) := fun _ => rfl
theorem reserved0C : Statement (.reserved0C) := fun _ => rfl
theorem reserved0D : Statement (.reserved0D) := fun _ => rfl
theorem reserved0E : Statement (.reserved0E) := fun _ => rfl
theorem reserved0F : Statement (.reserved0F) := fun _ => rfl
theorem reserved16 : Statement (.reserved16) := fun _ => rfl
theorem reserved17 : Statement (.reserved17) := fun _ => rfl
theorem reserved18 : Statement (.reserved18) := fun _ => rfl
theorem reserved19 : Statement (.reserved19) := fun _ => rfl
theorem reserved1A : Statement (.reserved1A) := fun _ => rfl
theorem reserved1B : Statement (.reserved1B) := fun _ => rfl
theorem reserved1C : Statement (.reserved1C) := fun _ => rfl
theorem reserved1D : Statement (.reserved1D) := fun _ => rfl
theorem reserved1E : Statement (.reserved1E) := fun _ => rfl
theorem reserved1F : Statement (.reserved1F) := fun _ => rfl
theorem reserved26 : Statement (.reserved26) := fun _ => rfl
theorem reserved27 : Statement (.reserved27) := fun _ => rfl
theorem reserved28 : Statement (.reserved28) := fun _ => rfl
theorem reserved29 : Statement (.reserved29) := fun _ => rfl
theorem reserved2A : Statement (.reserved2A) := fun _ => rfl
theorem reserved2B : Statement (.reserved2B) := fun _ => rfl
theorem reserved2C : Statement (.reserved2C) := fun _ => rfl
theorem reserved2D : Statement (.reserved2D) := fun _ => rfl
theorem reserved2E : Statement (.reserved2E) := fun _ => rfl
theorem reserved2F : Statement (.reserved2F) := fun _ => rfl
theorem reservedUnits3To15 (op : Byte) : Statement (.reservedUnits3To15 op) := by
  intro h
  revert op; decide
theorem frameMidi (p : Port) (a : Nib) (m : Midi) : Statement (.frameMidi p a m) := by
  intro _; simp [row, Row.covers, encode, frameOf]
  exact low_nibble a 0
theorem framePulse (p : Port) (a : Nib) (unused : BitVec 2) (fadeOut fadeIn : Bool) (port : Nib) (power duration : Raw) : Statement (.framePulse p a unused fadeOut fadeIn port power duration) := by
  intro _; simp [row, Row.covers, encode, pulseFrame]
  rw [low_nibble a 1#4]; decide
theorem frameReserved (p : Port) (a t : Nib) (body : Midi) : Statement (.frameReserved p a t body) := by
  intro h
  simp only [Instr.wf, decide_eq_true_eq] at h
  have := t.isLt
  simp [row, Row.covers, encode, frameOf, low_nibble]
  omega

end Sys2Proof.Laws.EncodesItsRow
end

