-- ==== Sys2Proof/Laws/Quantizer.lean ====
section
/-! SUPPORT. The quantizer's integer test as an inequality between rationals, and what its search returns. -/

namespace Sys2Proof.Machine

theorem quantityMax_pos (c : Config) (q : Quantity) : 0 < c.quantityMax q := by
  unfold Config.quantityMax; split
  · decide
  · split <;> decide

theorem quantityExp_pos (c : Config) (q : Quantity) : 0 < c.quantityExp q := by
  unfold Config.quantityExp; split
  · decide
  · split <;> decide

theorem clampQuantity_nonneg (c : Config) (q : Quantity) (v : Rat) : 0 ≤ clampQuantity c q v :=
  le_min (le_max_right _ _) (Nat.cast_nonneg _)

theorem clampQuantity_le (c : Config) (q : Quantity) (v : Rat) : clampQuantity c q v ≤ c.quantityMax q := min_le_right _ _

theorem clampQuantity_of_mem {c : Config} {q : Quantity} {v : Rat} (h0 : 0 ≤ v) (h1 : v ≤ c.quantityMax q) :
    clampQuantity c q v = v := by
  unfold clampQuantity clampRat; rw [max_eq_left h0, min_eq_left h1]

theorem clampQuantity_mono {c : Config} {q : Quantity} {v w : Rat} (h : v ≤ w) :
    clampQuantity c q v ≤ clampQuantity c q w := min_le_min_right _ (max_le_max_right _ h)

/-- The roundPoint below raw value `r`: the least input that PL_ENCODE rounds up to `r` (R92). -/
def roundPoint (c : Config) (q : Quantity) (r : Nat) : Rat :=
  (c.quantityMax q : Rat) * ((2 * (r : Rat) - 1) / 8190) ^ c.quantityExp q

/-- The integer test says that the input has reached the roundPoint. -/
theorem reaches_iff {c : Config} {q : Quantity} {x : Rat} {r : Nat} (hx : 0 ≤ x) (hr : 1 ≤ r) :
    reaches c q x r ↔ roundPoint c q r ≤ x := by
  have hn : (x.num.toNat : Rat) = x.num := by
    rw [← Int.cast_natCast, Int.toNat_of_nonneg (Rat.num_nonneg.mpr hx)]
  have hd : (0 : Rat) < x.den := by exact_mod_cast x.den_pos
  have hxe : x * x.den = x.num := Rat.mul_den_eq_num x
  have h2 : ((2 * r - 1 : Nat) : Rat) = 2 * r - 1 := by push_cast [Nat.cast_sub (show 1 ≤ 2 * r by omega)]; ring
  have hk : (0 : Rat) < 8190 ^ c.quantityExp q := by positivity
  unfold reaches roundPoint
  rw [← Nat.cast_le (α := Rat)]
  push_cast
  rw [h2, hn, ← hxe, div_pow, mul_div_assoc', div_le_iff₀ hk]
  constructor
  · intro h; exact le_of_mul_le_mul_right (by linarith) hd
  · intro h; have := mul_le_mul_of_nonneg_right h hd.le; linarith

/-- What PL_ENCODE returns: at most 4095, itself reached unless it is 0, and every reached raw value is at most it. -/
theorem quantize_spec (c : Config) (q : Quantity) (v : Rat) :
    ((quantize c q v).toNat = 0 ∨ roundPoint c q (quantize c q v).toNat ≤ clampQuantity c q v)
      ∧ ∀ k, 1 ≤ k → k ≤ 4095 → roundPoint c q k ≤ clampQuantity c q v → k ≤ (quantize c q v).toNat := by
  have hx := clampQuantity_nonneg c q v
  have hle : Nat.findGreatest (reaches c q (clampQuantity c q v)) 4095 ≤ 4095 := Nat.findGreatest_le _
  have e : (quantize c q v).toNat = Nat.findGreatest (reaches c q (clampQuantity c q v)) 4095 := by
    unfold quantize; rw [BitVec.toNat_ofNat, Nat.mod_eq_of_lt (by omega)]
  rw [e]
  constructor
  · by_cases h0 : Nat.findGreatest (reaches c q (clampQuantity c q v)) 4095 = 0
    · exact .inl h0
    · exact .inr ((reaches_iff hx (by omega)).mp (Nat.findGreatest_of_ne_zero rfl h0))
  · intro k h1 h2 h3
    exact Nat.le_findGreatest h2 ((reaches_iff hx h1).mpr h3)

theorem roundPoint_mono {c : Config} {q : Quantity} {r k : Nat} (h1 : 1 ≤ r) (h : r ≤ k) : roundPoint c q r ≤ roundPoint c q k := by
  unfold roundPoint
  have a : (1 : Rat) ≤ r := by exact_mod_cast h1
  have b : (r : Rat) ≤ k := by exact_mod_cast h
  gcongr
  linarith

end Sys2Proof.Machine
end

