-- ==== Sys2Proof/Machine/Text.lean ====
section
/-! DEFINITION. The textual form of a command (30_encoding.md R82) and of a program's lines (R83). It only names what the other
files mean; no step reads it. -/

namespace Sys2Proof.Machine

/-- A hexadecimal digit. -/
def hexDigit (n : Nib) : Char := "0123456789ABCDEF".toList.getD n.toNat '0'

/-- A byte as two hexadecimal digits. -/
def hexByte (b : Byte) : String := String.ofList [hexDigit (b.extractLsb' 4 4), hexDigit (b.extractLsb' 0 4)]

/-- Bytes in brackets, first byte first: a frame or a MIDI payload. -/
def bytesText (bs : List Byte) : String := "[" ++ " ".intercalate (bs.map hexByte) ++ "]"

def frameText (f : Frame) : String := bytesText (frameBytes f)

def midiText (m : Midi) : String := bytesText [m.m0, m.m1, m.m2, m.m3]

def portText : Port → String
  | .plug => "plug"
  | .socket => "socket"

def quantityText : Quantity → String
  | .power => "power"
  | .duration => "duration"

def natText (n : Nat) : String := toString n

/-- A rational as `n/d`, or as a whole number. -/
def ratText (v : Rat) : String := if v.den = 1 then toString v.num else toString v.num ++ "/" ++ toString v.den

def flagText (b : Bool) : String := if b then "1" else "0"

/-- A pulse record, in the braces R82 writes (characters 123 and 125). -/
def pulseText (u : Pulse) : String :=
  String.singleton (Char.ofNat 123) ++ "port=" ++ natText u.port.toNat ++ ", fadeIn=" ++ flagText u.fadeIn ++ ", fadeOut="
    ++ flagText u.fadeOut ++ ", power=" ++ ratText u.power ++ ", duration=" ++ ratText u.duration
    ++ String.singleton (Char.ofNat 125)

/-- A mnemonic and its operands, separated by commas. -/
def commandLine (mnemonic : String) (operands : List String) : String :=
  match operands with
  | [] => mnemonic
  | _ :: _ => mnemonic ++ " " ++ ", ".intercalate operands

/-- The text of an instruction: a command's line (R82), a reserved opcode as its number, a frame as the line traffic it is
(R83). -/
def instrText : Instr → String
  | .getType f => commandLine "GET_TYPE" [frameText f]
  | .getAddress f => commandLine "GET_ADDRESS" [frameText f]
  | .encodeHeader f a t => commandLine "ENCODE_HEADER" [frameText f, natText a.toNat, natText t.toNat]
  | .decodeMidi f => commandLine "DECODE_MIDI" [frameText f]
  | .encodeMidi f m => commandLine "ENCODE_MIDI" [frameText f, midiText m]
  | .decodePulse f => commandLine "DECODE_PULSE" [frameText f]
  | .encodePulse f u => commandLine "ENCODE_PULSE" [frameText f, pulseText u]
  | .plEncode q v => commandLine "PL_ENCODE" [quantityText q, ratText v]
  | .plDecode q r => commandLine "PL_DECODE" [quantityText q, natText r.toNat]
  | .portBegin p => commandLine "PORT_BEGIN" [portText p]
  | .portReceive p => commandLine "PORT_RECEIVE" [portText p]
  | .portSend p a f => commandLine "PORT_SEND" [portText p, natText a.toNat, frameText f]
  | .portPowerDown p => commandLine "PORT_POWER_DOWN" [portText p]
  | .portIdle p => commandLine "PORT_IDLE" [portText p]
  | .portReadStats p => commandLine "PORT_READ_STATS" [portText p]
  | .linkBegin => "LINK_BEGIN"
  | .linkLoop => "LINK_LOOP"
  | .linkHandlerDone => "LINK_HANDLER_DONE"
  | .linkIdle => "LINK_IDLE"
  | .linkSend p a f => commandLine "LINK_SEND" [portText p, natText a.toNat, frameText f]
  | .linkReadStats p => commandLine "LINK_READ_STATS" [portText p]
  | .reserved09 => "0x09"
  | .reserved0A => "0x0A"
  | .reserved0B => "0x0B"
  | .reserved0C => "0x0C"
  | .reserved0D => "0x0D"
  | .reserved0E => "0x0E"
  | .reserved0F => "0x0F"
  | .reserved16 => "0x16"
  | .reserved17 => "0x17"
  | .reserved18 => "0x18"
  | .reserved19 => "0x19"
  | .reserved1A => "0x1A"
  | .reserved1B => "0x1B"
  | .reserved1C => "0x1C"
  | .reserved1D => "0x1D"
  | .reserved1E => "0x1E"
  | .reserved1F => "0x1F"
  | .reserved26 => "0x26"
  | .reserved27 => "0x27"
  | .reserved28 => "0x28"
  | .reserved29 => "0x29"
  | .reserved2A => "0x2A"
  | .reserved2B => "0x2B"
  | .reserved2C => "0x2C"
  | .reserved2D => "0x2D"
  | .reserved2E => "0x2E"
  | .reserved2F => "0x2F"
  | .reservedUnits3To15 op => "0x" ++ hexByte op
  | .frameMidi p a m => "RX " ++ portText p ++ ", " ++ " ".intercalate ((frameBytes (frameOf (headerByte a 0) m)).map hexByte)
  | .framePulse p a unused fadeOut fadeIn port power duration =>
      "RX " ++ portText p ++ ", "
        ++ " ".intercalate ((frameBytes (pulseFrame (headerByte a 1) unused fadeOut fadeIn port power duration)).map hexByte)
  | .frameReserved p a t body =>
      "RX " ++ portText p ++ ", " ++ " ".intercalate ((frameBytes (frameOf (headerByte a t) body)).map hexByte)

/-- The text of a program's line (R83). R83 has no word for a reset or for the moves in the gaps of a cycle; a gap is not
written. -/
def lineText : Line → String
  | ⟨.word _ w, _⟩ => instrText (decodeWord w)
  | ⟨.lineRx p b, _⟩ => "RX " ++ portText p ++ ", " ++ hexByte b
  | ⟨.lineTx p, _⟩ => "TX " ++ portText p ++ ", 1"
  | ⟨.setClock n, _⟩ => "@T=" ++ natText n
  | ⟨.reset, _⟩ => "# reset"

end Sys2Proof.Machine
end

