-- ==== Sys2Proof/Tests/Slice0.lean ====
section
/-! SUPPORT. Tests: well-formedness refused where it must be, words written out from 30_encoding.md, vectors of 95_test_vectors.md, and
for every statement with hypotheses a state and operands that meet them. -/

namespace Sys2Proof.Tests

open Sys2Proof Sys2Proof.Machine

/-! ### Well-formedness -/

/-- 0x2F is the last opcode below RESERVED_UNITS_3_TO_15 (R78). -/
theorem test_wf_units_refuses_2F : (Instr.reservedUnits3To15 0x2F).wf = false := by decide
theorem test_wf_units_accepts_ends :
    (Instr.reservedUnits3To15 0x30).wf = true ∧ (Instr.reservedUnits3To15 0xFF).wf = true := by decide
/-- Type 1 is Pulse, not reserved (R65). -/
theorem test_wf_frame_refuses_type_1 : (Instr.frameReserved .plug 3 1 ⟨0, 0, 0, 0⟩).wf = false := by decide
theorem test_wf_frame_accepts_ends :
    (Instr.frameReserved .plug 3 2 ⟨0, 0, 0, 0⟩).wf = true ∧ (Instr.frameReserved .plug 3 15 ⟨0, 0, 0, 0⟩).wf = true := by decide

/-! ### Words written out bit by bit (30_encoding.md R64, R67 to R70, R75 to R78; table rows) -/

/-- Unit 0, function 8: PL_DECODE. -/
theorem test_decode_codec :
    decodeWord (.command { op := 0b0000_1000, args := { q := .duration, r := 0x256 } }) = .plDecode .duration 0x256 := by decide
/-- Unit 1, function 2: PORT_SEND. -/
theorem test_decode_port :
    decodeWord (.command { op := 0b0001_0010, args := { p := .socket, a := 9, f := ⟨1, 2, 3, 4, 5⟩ } })
      = .portSend .socket 9 ⟨1, 2, 3, 4, 5⟩ := by decide
/-- Unit 2, function 2: LINK_HANDLER_DONE. -/
theorem test_decode_link : decodeWord (.command { op := 0b0010_0010 }) = .linkHandlerDone := by decide
theorem test_decode_reserved :
    decodeWord (.command { op := 0b0000_1001 }) = .reserved09 ∧ decodeWord (.command { op := 0b0010_1111 }) = .reserved2F
      ∧ decodeWord (.command { op := 0b0011_0000 }) = .reservedUnits3To15 0x30 := by decide
/-- The fields of V80, bit by bit, with B1[7:6] set and both fades (R68 to R71). -/
theorem test_decode_frame_pulse :
    decodeWord (.frame .socket ⟨0b0111_0001, 0b11_1_0_0011, 0b1100_0001, 0b1011_0010, 0b0011_0100⟩)
      = .framePulse .socket 7 3 true false 3 0xCB2 0x134 := by decide
theorem test_decode_frame_midi :
    decodeWord (.frame .plug ⟨0b1111_0000, 9, 0x90, 0x3C, 0x7F⟩) = .frameMidi .plug 15 ⟨9, 0x90, 0x3C, 0x7F⟩ := by decide
theorem test_decode_frame_reserved :
    decodeWord (.frame .plug ⟨0b0000_1110, 1, 2, 3, 4⟩) = .frameReserved .plug 0 14 ⟨1, 2, 3, 4⟩ := by decide
theorem test_decode_table_word :
    decodeTableWord 8 0x23 = some .linkIdle
      ∧ decodeTableWord 40 0x7F3C900930 = some (.frameMidi .plug 3 ⟨0x09, 0x90, 0x3C, 0x7F⟩)
      ∧ decodeTableWord 16 0x23 = none := by decide

/-! ### The states of the tests: those of 95_test_vectors.md (both ports with TE pins, capacities 64), the clock held at 1000 -/

def cfg (v : DurationVariant) : Config := { variant := v, plug := ⟨true, true, 59, 59⟩, socket := ⟨true, true, 59, 59⟩ }

def atReset : State := { cfg := cfg .a, time := 1000, held := true, draws := 1 }

/-- The link has begun. -/
def ready : State := { atReset with linkBegun := true, plug := { begun := true }, socket := { begun := true } }

/-- The link has begun, and the sequencer issues. -/
def seq : State := { ready with issuer := .sequencer }

/-- Only the plug is present. -/
def plugOnly : State := { ready with cfg := { cfg .a with socket := ⟨false, false, 0, 0⟩ }, socket := {} }

/-- A stopped block. -/
def stoppedState : State := { atReset with faults := [.illegalCommand 0x09] }

def fMidi : Frame := ⟨0x30, 0x09, 0x90, 0x3C, 0x7F⟩

def fPulse : Frame := ⟨0x51, 0x13, 0xCC, 0xB2, 0xB2⟩

/-- What a next state shows. -/
def see {α : Type} (f : State → α) : Step → Option α
  | .next s => some (f s)
  | .fault _ => none
  | .refused _ => none

def runs (o : Step) : Bool := (see (fun _ => ()) o).isSome

/-! ### The codec (V1 to V93) -/

theorem test_V3 : see (·.result) (exec (.getType ⟨0xA7, 0, 0, 0, 0⟩) atReset) = some (.nibble 7) := by decide
theorem test_V6 : see (·.result) (exec (.getAddress ⟨0x0F, 0, 0, 0, 0⟩) atReset) = some (.nibble 0) := by decide
theorem test_V9 : see (·.result) (exec (.encodeHeader ⟨0, 0, 0, 0, 0⟩ 3 9) atReset) = some (.frame ⟨0x39, 0, 0, 0, 0⟩) := by decide
theorem test_V10 : see (·.result) (exec (.decodeMidi fMidi) atReset) = some (.midi ⟨0x09, 0x90, 0x3C, 0x7F⟩) := by decide
theorem test_V14 :
    see (·.faults) (exec (.decodeMidi ⟨0x01, 0x13, 0xCC, 0xB2, 0xB2⟩) atReset) = some [.wrongTypeDecode 0x03 0x01] := by decide
theorem test_V12 :
    see (·.result) (exec (.encodeMidi ⟨0x31, 0xFF, 0xFF, 0xFF, 0xFF⟩ ⟨0x09, 0x90, 0x3C, 0x7F⟩) atReset)
      = some (.frame fMidi) := by decide
theorem test_V39 : quantize (cfg .a) .power (100 * (8189 / 8190) ^ 3) = 4095 := by decide +kernel
theorem test_V39a : quantize (cfg .a) .power (100 * (8189 / 8190) ^ 3 - 1 / 10 ^ 30) = 4094 := by decide +kernel
theorem test_V39f : dequantize (cfg .a) .power 2047 = 34309431292 / 2746766295 := by decide +kernel
theorem test_V54 : quantize (cfg .a) .duration 1 = 1901 := by decide +kernel
theorem test_V73 : quantize (cfg .b) .duration 1 = 2303 := by decide +kernel
theorem test_plEncode_V28 : see (·.result) (exec (.plEncode .power 50) atReset) = some (.raw 3250) := by decide +kernel
theorem test_plDecode_V39e : see (·.result) (exec (.plDecode .power 882) atReset) = some (.value (10976 / 10985)) := by
  decide +kernel
theorem test_V84 :
    see (·.result) (exec (.encodePulse ⟨0, 0, 0, 0, 0⟩ ⟨1, false, true, 1, 1⟩) atReset)
      = some (.frame ⟨0x01, 0x21, 0x37, 0x72, 0x6D⟩) := by decide +kernel
theorem test_V86 :
    see (·.result) (exec (.encodePulse ⟨0x70, 1, 2, 3, 4⟩ ⟨3, true, false, 150, -5⟩) atReset)
      = some (.frame ⟨0x71, 0x13, 0xF0, 0xFF, 0x00⟩) := by decide +kernel
theorem test_V88 :
    see (·.result) (exec (.decodePulse ⟨0x01, 0xC5, 0x12, 0x34, 0x56⟩) atReset)
      = some (.pulse ⟨⟨5, false, false, 340736 / 8008065, 194672 / 6251175⟩, 308, 598⟩) := by decide +kernel
theorem test_V92 : see (·.faults) (exec (.decodePulse fMidi) atReset) = some [.wrongTypeDecode 0x05 0x30] := by decide

/-! ### The port (V100 to V132) -/

theorem test_V100 :
    see (fun t => (t.events, t.plug.begun)) (exec (.portBegin .plug) { atReset with issuer := .sequencer })
      = some ([.peripheralBegin .plug 3000000, .teSet .plug false], true) := by decide
theorem test_V106 :
    see (fun t => (t.plug.rx, t.plug.toStamp, t.result))
      (exec (.portReceive .plug) { seq with time := 4294967347, plug := { begun := true, rx := [1, 2, 3], toStamp := 4294967246 } })
      = some ([], 0, .received none) := by decide
theorem test_V107 :
    see (fun t => (t.plug.rx, t.plug.toStamp))
      (exec (.portReceive .plug) { seq with time := 4294967296, plug := { begun := true, rx := [1, 2, 3] } })
      = some ([1, 2, 3], 0) := by decide
theorem test_V119 :
    see (fun t => (t.socket, t.events, t.result))
      (exec (.portSend .socket 0 fMidi)
        { seq with
          cfg := { cfg .a with socket := ⟨true, true, 59, 0⟩ }, time := 500
          socket := { begun := true, tx := [1, 2, 3, 4, 5] } })
      = some ({ begun := true, active := true, te := true, lastAct := 500, tx := [1, 2, 3, 4, 5] }, [.teSet .socket true],
          .flag false) := by decide
theorem test_V121 :
    see (fun t => (t.socket.tx, t.result)) (exec (.portSend .socket 9 ⟨0xF7, 0xAA, 0xBB, 0xCC, 0xDD⟩) seq)
      = some ([0x97, 0xAA, 0xBB, 0xCC, 0xDD], .flag true) := by decide
theorem test_V122 :
    see (fun t => (t.socket.active, t.events))
      (exec (.portPowerDown .socket)
        { seq with time := 100999, socket := { begun := true, active := true, te := true, lastAct := 1000 } })
      = some (true, []) := by decide
theorem test_V123 :
    see (fun t => (t.socket.active, t.events))
      (exec (.portPowerDown .socket)
        { seq with time := 101000, socket := { begun := true, active := true, te := true, lastAct := 1000 } })
      = some (false, [.teSet .socket false]) := by decide
theorem test_V128 :
    see (·.result) (exec (.portIdle .plug) { seq with time := 5999, plug := { begun := true, lastAct := 5000 } })
      = some (.flag false) := by decide
theorem test_V129 :
    see (·.result) (exec (.portIdle .plug) { seq with time := 6000, plug := { begun := true, lastAct := 5000 } })
      = some (.flag true) := by decide
theorem test_V132 :
    see (·.result) (exec (.portReadStats .plug) { seq with plug := { begun := true, inCount := 1 } }) = some (.stats 1 0) := by
  decide
/-- A counter wraps (V115). -/
theorem test_V115 :
    see (·.plug.inCount)
      (exec (.portReceive .plug) { seq with plug := { begun := true, inCount := 4294967295, rx := frameBytes fMidi } })
      = some 0 := by decide

/-! ### The link (V140 to V171) -/

theorem test_V140 :
    see (·.events) (exec .linkBegin atReset)
      = some [.peripheralBegin .plug 3000000, .teSet .plug false, .peripheralBegin .socket 3000000, .teSet .socket false] := by
  decide
theorem test_V160 : see (·.faults) (exec .linkBegin ready) = some [.beginTwice 0x20] := by decide
theorem test_V142 :
    see (fun t => (t.socket.tx, t.events, t.phase))
      (exec .linkLoop { ready with plug := { begun := true, rx := frameBytes fMidi } })
      = some ([0x20, 0x09, 0x90, 0x3C, 0x7F], [.teSet .socket true], .idle) := by decide
theorem test_V145 :
    see (fun t => (t.phase, t.dispSrc, t.dispFrame, t.socket.tx))
      (exec .linkLoop { ready with plug := { begun := true, rx := [0x00, 0x09, 0x90, 0x3C, 0x7F] } })
      = some (.waitPlug, .plug, ⟨0x00, 0x09, 0x90, 0x3C, 0x7F⟩, []) := by decide
theorem test_V148 :
    see (fun t => (t.plug.tx, t.dispFrame, t.phase))
      (exec .linkLoop { ready with socket := { begun := true, rx := frameBytes fPulse } })
      = some ([0x61, 0x13, 0xCC, 0xB2, 0xB2], fPulse, .waitSocket) := by decide
theorem test_V146 : see (·.phase) (exec .linkHandlerDone { ready with phase := .waitPlug }) = some .idle := by decide
theorem test_V171 :
    see (·.faults) (exec .linkHandlerDone { ready with phase := .three }) = some [.illegalState .three] := by decide
theorem test_V159 : see (·.result) (exec .linkIdle ready) = some (.flag true) := by decide
theorem test_V158 :
    see (·.result) (exec .linkIdle { ready with socket := { begun := true, rx := [1] } }) = some (.flag false) := by decide
theorem test_V159a :
    see (fun t => (t.socket.tx, t.result)) (exec (.linkSend .socket 0 ⟨0x00, 0x09, 0x90, 0x3C, 0x7F⟩) ready)
      = some ([0x00, 0x09, 0x90, 0x3C, 0x7F], .flag true) := by decide
theorem test_V165 : see (·.faults) (exec (.linkSend .socket 0 fMidi) plugOnly) = some [.absentPort 0x24 .socket] := by decide
theorem test_V167 : see (·.faults) (exec (.linkReadStats .socket) plugOnly) = some [.absentPort 0x25 .socket] := by decide
theorem test_V162 : see (·.faults) (exec .linkHandlerDone atReset) = some [.noCycle 0x22] := by decide
theorem test_V163 :
    see (·.faults) (exec .linkLoop { ready with phase := .waitPlug }) = some [.reentrant 0x21 .waitPlug] := by decide
theorem test_V170 :
    see (·.faults) (exec (.reservedUnits3To15 0xFF) { ready with phase := .waitPlug }) = some [.illegalCommand 0xFF] := by decide
theorem test_V168 : see (·.faults) (exec .reserved09 atReset) = some [.illegalCommand 0x09] := by decide

/-! ### Frames on the line, and gaps of a cycle -/

/-- A frame row is the first thing that happens after reset, whatever the configuration (log entry 2). -/
theorem test_frame_first_after_reset : runs (step (State.reset.withFetchWord 40 0x7F3C900930)) = true := rfl

theorem test_frame_arrives :
    see (·.plug.rx) (exec (.framePulse .plug 5 0 false true 3 0xCB2 0xCB2) ready) = some (frameBytes fPulse) := by decide
/-- The fifth byte finds RX full: RX_CAP is 64 and 60 bytes wait (R51). -/
theorem test_frame_overruns :
    see (fun t => (t.plug.rx.length, t.faults))
      (exec (.frameMidi .plug 3 ⟨0x09, 0x90, 0x3C, 0x7F⟩) { ready with plug := { begun := true, rx := List.replicate 60 0 } })
      = some (64, [.rxOverrun .plug 0x7F]) := by decide
/-- A frame that arrives in the gap before S2's receive is taken in the same cycle (R59). -/
theorem test_gap_frame_is_taken :
    see (fun t => (t.phase, t.dispFrame)) (exec .linkLoop { ready with gaps := [[], [.word .host (.frame .socket fPulse)]] })
      = some (.waitSocket, fPulse) := by decide
/-- LINK_LOOP at PHASE IDLE between two port operations of a cycle passes R123's checks: its own cycle takes the first frame of the
plug, the interrupted one the second (R59, R125). -/
theorem test_gap_loop_nests :
    see (fun t => (t.plug.inCount, t.plug.rx, t.socket.tx.length, t.phase))
      (exec .linkLoop { ready with
        plug := { begun := true, rx := frameBytes fMidi ++ frameBytes fPulse }
        gaps := [[.word .host (.command { op := 0x21 })]] })
      = some (2, [], 10, .idle) := by decide
/-- A reset between S1's and S2's receive ends the cycle: the frame already taken is gone, and so is the one at the socket (R161). -/
theorem test_gap_reset_ends_cycle :
    see (fun t => (t.linkBegun, t.plug, t.socket, t.phase, t.events))
      (exec .linkLoop { ready with
        plug := { begun := true, rx := frameBytes fMidi }, socket := { begun := true, rx := frameBytes fPulse }
        gaps := [[], [.reset]] })
      = some (false, {}, {}, .idle, []) := rfl
/-- `@T` in the gap before S3's power-down lets POWERDOWN_US elapse there (R83, R132). -/
theorem test_gap_clock_powers_down :
    see (fun t => (t.plug.active, t.events))
      (exec .linkHandlerDone { ready with
        phase := .waitSocket, plug := { begun := true, active := true, te := true, lastAct := 1000 }
        gaps := [[.setClock 101000]] })
      = some (false, [.teSet .plug false]) := by decide
/-- A run is over when the host has no command left, whatever the line agents still do (R177). -/
theorem test_endsWell_with_line_traffic :
    endsWell { ready with program := [⟨.lineTx .plug, []⟩, ⟨.setClock 5, []⟩, ⟨.lineRx .socket 1, []⟩] } = true
      ∧ endsWell { ready with program := [⟨.word .host (.command { op := 0x23 }), []⟩] } = false
      ∧ endsWell { ready with phase := .waitPlug } = false := by decide
/-- The socket of the last device has no wire: its byte leaves to its own line agent (R50, R158). -/
theorem test_chain_open_end :
    (match chainStep [{ ready with program := [⟨.lineTx .socket, []⟩], socket := { begun := true, tx := [7, 8] } }]
        ⟨0, by decide⟩ true with
      | .next ds => some (ds.map (·.socket.tx))
      | .fault _ | .refused _ => none) = some [[8]] := by decide
/-- The wire's other end is the wire's alone: a LINE_RX of its own program is no step there (R158). -/
theorem test_chain_wired_position_takes_wire_only :
    (match chainStep [ready, { ready with program := [⟨.lineRx .plug 7, []⟩] }] ⟨1, by decide⟩ true with
      | .next ds => some (ds.map fun d => (d.plug.rx, d.program.length))
      | .fault _ | .refused _ => none) = some [([], 0), ([], 0)] := by decide

/-! ### Witnesses: a state and operands that meet the hypotheses of each statement -/

theorem witness_running : atReset.faults = [] ∧ ready.faults = [] := by decide

theorem witness_ResetRestartsAnyState :
    ({ stoppedState with program := [⟨.reset, []⟩] } : State).program = ⟨.reset, []⟩ :: [] ∧ atReset.program = [] := by decide

theorem witness_StepRunsDecodedInstruction :
    ({ ready with program := [⟨.word .host (.command { op := 0x21 }), [[]]⟩] } : State).program
        = ⟨.word .host (.command { op := 0x21 }), [[]]⟩ :: []
      ∧ decodeWord (.command { op := 0x21 }) = .linkLoop ∧ Instr.linkLoop.wf = true := by decide

theorem witness_FetchedWordRunsNext :
    decodeTableWord 8 0x21 = some .linkLoop
      ∧ decodeTableWord 40 0x02 = some (.frameReserved .plug 0 2 ⟨0, 0, 0, 0⟩) := by decide

theorem witness_TypeNibbleSelectsFrameRow :
    fMidi.b0.toNat % 16 = 0 ∧ fPulse.b0.toNat % 16 = 1 ∧ 2 ≤ (0x02 : Byte).toNat % 16 ∧ 2 ≤ (0x0F : Byte).toNat % 16 := by decide

theorem witness_DecodeMidiCopiesOrFaults : fMidi.b0.toNat % 16 = 0 ∧ fPulse.b0.toNat % 16 ≠ 0 := by decide

theorem witness_DecodePulseReadsFields : fPulse.b0.toNat % 16 = 1 ∧ fMidi.b0.toNat % 16 ≠ 1 := by decide

theorem witness_PlEncodeIsLargestReached :
    (50 : Rat) = min (max 50 0) ((cfg .a).quantityMax .power)
      ∧ ((2 * (1 : Nat) - 1 : Int)) ^ 3 * (100 : Nat) * (50 : Rat).den ≤ 8190 ^ 3 * (50 : Rat).num := by decide +kernel

theorem witness_QuantizerIsMonotone :
    (0 : Raw).toNat < (1 : Raw).toNat ∧ (4094 : Raw).toNat < (4095 : Raw).toNat ∧ (-5 : Rat) ≤ 0
      ∧ (((cfg .b).quantityMax .duration : Nat) : Rat) ≤ 150 := by decide +kernel

theorem witness_PulseRoundTrip : typeNibble fPulse = 1 := by decide

theorem witness_CodecChangesNoRegister :
    (Instr.getType fMidi).wf = true ∧ (Instr.plDecode .power 0).wf = true
      ∧ isCodecWord (encode (.getType fMidi)) = true ∧ isCodecWord (encode (.plDecode .power 0)) = true
      ∧ atReset.faults = [] ∧ ({ ready with phase := .waitPlug } : State).faults = [] := by decide +kernel

theorem witness_ReservedOpcodesFault :
    (0x09 ≤ (0x09 : Byte).toNat ∧ (0x0F : Byte).toNat ≤ 0x0F) ∧ (0x16 ≤ (0x16 : Byte).toNat ∧ (0x1F : Byte).toNat ≤ 0x1F)
      ∧ (0x26 ≤ (0x26 : Byte).toNat ∧ (0x2F : Byte).toNat ≤ 0x2F) ∧ 0x30 ≤ (0x30 : Byte).toNat ∧ 0x30 ≤ (0xFF : Byte).toNat := by
  decide

theorem witness_ReservedOpcodesFault_rows : atReset.faults = [] ∧ ({ ready with phase := .waitPlug } : State).faults = [] := by decide

theorem witness_HostMayNotOperatePorts : ready.faults = [] ∧ ready.issuer = .host := by decide

theorem witness_FaultedBlockIsStopped :
    stoppedState.faults ≠ []
      ∧ ({ stoppedState with program := [⟨.lineTx .plug, []⟩] } : State).program = ⟨.lineTx .plug, []⟩ :: []
      ∧ Move.lineTx .plug ≠ .reset ∧ ∀ n, Move.lineTx .plug ≠ .setClock n :=
  ⟨by decide, rfl, by decide, fun _ h => by cases h⟩

/-- The time itself, and one below it. -/
theorem witness_ClockReadsTrueTime :
    let s (n : Nat) : State := { ready with program := [⟨.setClock n, []⟩] }
    (∀ n, (s n).program = ⟨.setClock n, []⟩ :: []) ∧ (s 1000).time ≤ 1000 ∧ 999 < (s 999).time :=
  ⟨fun _ => rfl, by decide, by decide⟩

theorem witness_LinkChecksInOrder :
    ({ ready with phase := .waitPlug } : State).phase ≠ .idle ∧ ({ ready with phase := .three } : State).phase ≠ .idle
      ∧ ({ ready with phase := .three } : State).phase = .three
      ∧ ready.phase = .idle ∧ atReset.linkBegun = false ∧ atReset.phase = .idle
      ∧ ({ atReset with phase := .waitPlug } : State).linkBegun = false
      ∧ ({ atReset with phase := .waitSocket } : State).phase = .waitSocket
      ∧ plugOnly.linkBegun = true ∧ (plugOnly.cfg.port .socket).present = false ∧ plugOnly.faults = [] := by decide

theorem witness_PortChecksInOrder :
    ({ plugOnly with issuer := .sequencer } : State).issuer = .sequencer ∧ (plugOnly.cfg.port .socket).present = false
      ∧ (atReset.cfg.port .plug).present = true ∧ (atReset.port .plug).begun = false := by decide

/-- A link whose ports have these registers. -/
def linkState (plug socket : PortRegs) (phase : Phase) : State := { ready with plug := plug, socket := socket, phase := phase }

/-- The plug as the sequencer operates it. -/
def portState (r : PortRegs) (time : Nat) : State := { seq with plug := r, time := time }

/-- RX one byte short of RX_CAP, and full. -/
theorem witness_LineRxAppendsOrOverruns :
    let s (n : Nat) : State := { linkState { begun := true, rx := List.replicate n 0 } { begun := true } .idle with
      program := [⟨.lineRx .plug 8, []⟩] }
    (∀ n, (s n).program = ⟨.lineRx .plug 8, []⟩ :: [] ∧ (s n).faults = [] ∧ ((s n).cfg.port .plug).present = true
        ∧ ((s n).port .plug).begun = true)
      ∧ ((s 63).port .plug).rx.length < ((s 63).cfg.port .plug).rxCap
      ∧ ((s 64).cfg.port .plug).rxCap ≤ ((s 64).port .plug).rx.length :=
  ⟨fun _ => ⟨rfl, rfl, rfl, rfl⟩, by decide, by decide⟩

theorem witness_LineTxRemovesOldest :
    let s : State := { linkState { begun := true } { begun := true, tx := [7] } .idle with program := [⟨.lineTx .socket, []⟩] }
    s.program = ⟨.lineTx .socket, []⟩ :: [] ∧ s.faults = [] ∧ (s.cfg.port .socket).present = true
      ∧ (s.port .socket).tx = 7 :: [] := by decide

/-- An absent position, a port that has not begun, and an empty TX. -/
theorem witness_LineTxRemovesOldest_stops :
    let rx (s : State) (p : Port) : State := { s with program := [⟨.lineRx p 8, []⟩] }
    let tx (s : State) (p : Port) : State := { s with program := [⟨.lineTx p, []⟩] }
    (plugOnly.faults = [] ∧ (plugOnly.cfg.port .socket).present = false
        ∧ (rx plugOnly .socket).program = ⟨.lineRx .socket 8, []⟩ :: []
        ∧ (tx plugOnly .socket).program = ⟨.lineTx .socket, []⟩ :: [])
      ∧ (atReset.faults = [] ∧ (atReset.cfg.port .plug).present = true ∧ (atReset.port .plug).begun = false
        ∧ (rx atReset .plug).program = ⟨.lineRx .plug 8, []⟩ :: [])
      ∧ (ready.faults = [] ∧ (ready.cfg.port .plug).present = true ∧ (ready.port .plug).tx = []
        ∧ (tx ready .plug).program = ⟨.lineTx .plug, []⟩ :: []) := by decide

/-- Room for exactly five bytes, for four, and for none. -/
theorem witness_FramesArriveInWireOrder :
    let s (n : Nat) := linkState { begun := true, rx := List.replicate n 0 } { begun := true } .idle
    (∀ n, (s n).faults = [] ∧ ((s n).cfg.port .plug).present = true ∧ ((s n).port .plug).begun = true)
      ∧ ∀ x ∈ [(59, 5), (60, 4), (64, 0)], ((s x.1).cfg.port .plug).rxCap - ((s x.1).port .plug).rx.length = x.2 :=
  ⟨fun _ => ⟨rfl, rfl, rfl⟩, by decide⟩

theorem witness_PortBeginStartsPort :
    let s : State := { atReset with issuer := .sequencer }
    s.faults = [] ∧ s.issuer = .sequencer ∧ (s.cfg.port .plug).present = true ∧ (s.port .plug).begun = false
      ∧ seq.faults = [] ∧ seq.issuer = .sequencer ∧ (seq.cfg.port .plug).present = true ∧ (seq.port .plug).begun = true := by decide

theorem portState_ready (r : PortRegs) (time : Nat) (h : r.begun = true) : PortReady (portState r time) .plug :=
  ⟨rfl, rfl, rfl, h⟩

/-- RX empty; one byte and four bytes with the timer unarmed. -/
theorem witness_ReceiveIdleOrArms :
    let s (bs : List Byte) := portState { begun := true, rx := bs } 1000
    (∀ bs, PortReady (s bs) .plug) ∧ ((s []).port .plug).rx = []
      ∧ ∀ bs ∈ [[(1 : Byte)], [1, 2, 3, 4]], 1 ≤ ((s bs).port .plug).rx.length ∧ ((s bs).port .plug).rx.length ≤ 4
          ∧ ((s bs).port .plug).toStamp = 0 :=
  ⟨fun _ => portState_ready _ _ rfl, rfl, by decide⟩

/-- V106: 101 us elapsed across the clock's wrap; one byte and four bytes. -/
theorem witness_ReceiveDropsLatePartialFrame :
    let s (bs : List Byte) := portState { begun := true, rx := bs, toStamp := 4294967246 } 4294967347
    (∀ bs, PortReady (s bs) .plug) ∧ ∀ bs ∈ [[(1 : Byte)], [1, 2, 3, 4]], 1 ≤ ((s bs).port .plug).rx.length
      ∧ ((s bs).port .plug).rx.length ≤ 4 ∧ ((s bs).port .plug).toStamp ≠ 0
      ∧ (s bs).cfg.partialTimeoutUs < elapsed (s bs).cfg.clockWidth ((s bs).port .plug).toStamp (s bs).now.1 :=
  ⟨fun _ => portState_ready _ _ rfl, by decide⟩

/-- V105: 100 us elapsed. -/
theorem witness_ReceiveWaitsWithinBudget :
    let s (bs : List Byte) := portState { begun := true, rx := bs, toStamp := 4294967246 } 4294967346
    (∀ bs, PortReady (s bs) .plug) ∧ ∀ bs ∈ [[(1 : Byte)], [1, 2, 3, 4]], 1 ≤ ((s bs).port .plug).rx.length
      ∧ ((s bs).port .plug).rx.length ≤ 4 ∧ ((s bs).port .plug).toStamp ≠ 0
      ∧ elapsed (s bs).cfg.clockWidth ((s bs).port .plug).toStamp (s bs).now.1 ≤ (s bs).cfg.partialTimeoutUs :=
  ⟨fun _ => portState_ready _ _ rfl, by decide⟩

theorem witness_ReceiveTakesWholeFrame :
    let s := portState { begun := true, rx := frameBytes fMidi ++ [5, 6] } 1000
    PortReady s .plug ∧ (s.port .plug).rx = 0x30 :: 0x09 :: 0x90 :: 0x3C :: 0x7F :: [5, 6] :=
  ⟨portState_ready _ _ rfl, by decide⟩

/-- TX with room for exactly five bytes, and for four. -/
theorem witness_SendAssertsTeThenWrites :
    let s (n : Nat) := portState { begun := true, tx := List.replicate n 0 } 1000
    (∀ n, PortReady (s n) .plug) ∧ ((s 59).port .plug).tx.length + 5 ≤ ((s 59).cfg.port .plug).txCap
      ∧ ((s 60).cfg.port .plug).txCap < ((s 60).port .plug).tx.length + 5 :=
  ⟨fun _ => portState_ready _ _ rfl, by decide, by decide⟩

/-- Exactly POWERDOWN_US elapsed, one less, and a passive port. -/
theorem witness_PowerDownAfterInactivity :
    let s (t : Nat) := portState { begun := true, active := true, te := true, lastAct := 1000 } t
    (∀ t, PortReady (s t) .plug ∧ ((s t).port .plug).active = true)
      ∧ (s 101000).cfg.powerdownUs ≤ elapsed 32 1000 (s 101000).now.1
      ∧ elapsed 32 1000 (s 100999).now.1 < (s 100999).cfg.powerdownUs
      ∧ ((portState { begun := true } 1000).port .plug).active = false :=
  ⟨fun _ => ⟨portState_ready _ _ rfl, rfl⟩, by decide, by decide, rfl⟩

theorem witness_PortQueriesAnswer : PortReady seq .plug ∧ PortReady seq .socket := ⟨⟨rfl, rfl, rfl, rfl⟩, ⟨rfl, rfl, rfl, rfl⟩⟩

theorem witness_PortOperationsFrame :
    PortReady seq .plug ∧ Port.socket ≠ Port.plug ∧ runs (exec (.portReceive .plug) seq) = true
      ∧ runs (exec (.portSend .plug 1 fMidi) seq) = true ∧ runs (exec (.portPowerDown .plug) seq) = true
      ∧ runs (exec (.portIdle .plug) seq) = true ∧ runs (exec (.portReadStats .plug) seq) = true :=
  ⟨⟨rfl, rfl, rfl, rfl⟩, by decide⟩

theorem witness_LinkBeginBeginsPorts :
    (atReset.faults = [] ∧ atReset.phase = .idle ∧ atReset.linkBegun = false ∧ ∀ p, (atReset.port p).begun = false)
      ∧ ready.faults = [] ∧ ready.phase = .idle ∧ ready.linkBegun = true :=
  ⟨⟨rfl, rfl, rfl, fun p => by cases p <;> rfl⟩, rfl, rfl, rfl⟩

theorem linkState_ready (r q : PortRegs) (ph : Phase) (hr : r.begun = true) (hq : q.begun = true) :
    CycleReady (linkState r q ph) :=
  ⟨⟨rfl, rfl, fun p _ => by cases p; exacts [hr, hq]⟩, rfl⟩

theorem plugOnly_ready (a : List Byte) : CycleReady { plugOnly with plug := { begun := true, rx := a } } :=
  ⟨⟨rfl, rfl, fun p h => by cases p with | plug => rfl | socket => cases h⟩, rfl⟩

/-- Addresses 1 and 15; room for five bytes at the socket, for four, and no socket. -/
theorem witness_PlugFrameForwardsDown :
    let s (f : Frame) (n : Nat) := linkState { begun := true, rx := frameBytes f } { begun := true, tx := List.replicate n 0 } .idle
    let u : State := { plugOnly with plug := { begun := true, rx := frameBytes fMidi } }
    (∀ f n, CycleReady (s f n) ∧ (s f n).phase = .idle ∧ (s f n).cfg.plug.present = true
        ∧ (s f n).plug.rx = f.b0 :: f.b1 :: f.b2 :: f.b3 :: f.b4 :: [])
      ∧ 0 < (⟨0x10, 1, 2, 3, 4⟩ : Frame).b0.toNat / 16 ∧ 0 < (⟨0xF1, 1, 2, 3, 4⟩ : Frame).b0.toNat / 16
      ∧ (s fMidi 59).cfg.socket.present = true
      ∧ (s fMidi 59).socket.tx.length + 5 ≤ (s fMidi 59).cfg.socket.txCap
      ∧ (s fMidi 60).cfg.socket.txCap < (s fMidi 60).socket.tx.length + 5
      ∧ (s fMidi 59).socket.rx.length < 5
      ∧ CycleReady u ∧ u.phase = .idle ∧ u.cfg.plug.present = true ∧ u.cfg.socket.present = false :=
  ⟨fun _ _ => ⟨linkState_ready _ _ _ rfl rfl, rfl, rfl, rfl⟩, by decide, by decide, rfl, by decide, by decide, by decide,
    plugOnly_ready _, rfl, rfl, rfl⟩

theorem witness_PlugFrameForThisDevice :
    let s := linkState { begun := true, rx := [0x0E, 1, 2, 3, 4] } { begun := true } .idle
    CycleReady s ∧ s.phase = .idle ∧ s.cfg.plug.present = true ∧ s.plug.rx = 0x0E :: 1 :: 2 :: 3 :: 4 :: []
      ∧ (0x0E : Byte).toNat / 16 = 0 :=
  ⟨linkState_ready _ _ _ rfl rfl, rfl, rfl, rfl, by decide⟩

/-- The ways to S2: a plug without a frame, a plug frame of address 1, and from the plug's window; addresses 14 and 15 at the
socket; room for five bytes at the plug, and for four. -/
theorem witness_SocketFrameForwardsUpAndDispatches :
    let s (r : List Byte) (f : Frame) (n : Nat) (ph : Phase) :=
      linkState { begun := true, rx := r, tx := List.replicate n 0 } { begun := true, rx := frameBytes f } ph
    (∀ r f n ph, CycleReady (s r f n ph) ∧ (s r f n ph).cfg.socket.present = true ∧ (s r f n ph).cfg.plug.present = true
        ∧ (s r f n ph).phase = ph ∧ (s r f n ph).socket.rx = f.b0 :: f.b1 :: f.b2 :: f.b3 :: f.b4 :: [])
      ∧ (s [0x05, 1, 2, 3] fMidi 0 .idle).plug.rx.length < 5
      ∧ (s [0x10, 1, 2, 3, 4] fMidi 0 .idle).plug.rx = 0x10 :: [1, 2, 3, 4] ∧ 0 < (0x10 : Byte).toNat / 16
      ∧ (⟨0xE0, 1, 2, 3, 4⟩ : Frame).b0.toNat / 16 < 15 ∧ (⟨0xF0, 1, 2, 3, 4⟩ : Frame).b0.toNat / 16 = 15
      ∧ (s [] fMidi 59 .idle).plug.tx.length + 5 ≤ (s [] fMidi 59 .idle).cfg.plug.txCap
      ∧ (s [] fMidi 60 .waitPlug).cfg.plug.txCap < (s [] fMidi 60 .waitPlug).plug.tx.length + 5 :=
  ⟨fun _ _ _ _ => ⟨linkState_ready _ _ _ rfl rfl, rfl, rfl, rfl, rfl⟩, by decide, rfl, by decide, by decide, by decide, by decide,
    by decide⟩

/-- The three ways into S3, and LINK_LOOP with one port; both ports active and exactly POWERDOWN_US quiet, one with a first
partial frame of four bytes and one with a late partial frame of one byte. -/
theorem witness_CycleEndsWithPowerDown :
    let r : PortRegs := { begun := true, active := true, te := true, lastAct := 900 }
    let s (ph : Phase) : State :=
      { linkState { r with rx := [1, 2, 3, 4] } { r with rx := [1], toStamp := 100799 } ph with time := 100900 }
    (∀ ph, CycleReady (s ph) ∧ (s ph).phase = ph ∧ ∀ p, (s ph).cfg.port p = ⟨true, true, 59, 59⟩ ∧ ((s ph).port p).rx.length < 5)
      ∧ (s .idle).cfg.powerdownUs ≤ elapsed 32 900 (s .idle).now.1 ∧ (s .idle).plug.toStamp = 0
      ∧ (s .idle).cfg.partialTimeoutUs < elapsed 32 (s .idle).socket.toStamp (s .idle).now.1
      ∧ CycleReady { plugOnly with plug := { begun := true, rx := [] } } ∧ plugOnly.cfg.socket.present = false :=
  ⟨fun _ => ⟨⟨⟨rfl, rfl, fun p _ => by cases p <;> rfl⟩, rfl⟩, rfl, 
    fun p => by cases p; exacts [⟨rfl, (by decide : 4 < 5)⟩, ⟨rfl, (by decide : 1 < 5)⟩]⟩, by decide, rfl, by decide,
    plugOnly_ready _, rfl⟩

theorem witness_LinkIdleIsConjunction : LinkReady ready ∧ LinkReady plugOnly :=
  ⟨(linkState_ready { begun := true } { begun := true } .idle rfl rfl).link, (plugOnly_ready []).link⟩

/-- TX of the plug with room for exactly five bytes, and for four; in a handler window too. -/
theorem witness_LinkSendIsPortSend :
    let s (n : Nat) (ph : Phase) := linkState { begun := true, tx := List.replicate n 0 } { begun := true } ph
    (∀ n ph, LinkReady (s n ph) ∧ ((s n ph).cfg.port .plug).present = true)
      ∧ ((s 59 .waitPlug).port .plug).tx.length + 5 ≤ ((s 59 .waitPlug).cfg.port .plug).txCap
      ∧ ((s 60 .idle).cfg.port .plug).txCap < ((s 60 .idle).port .plug).tx.length + 5
      ∧ LinkReady plugOnly ∧ (plugOnly.cfg.port .socket).present = false :=
  ⟨fun _ _ => ⟨(linkState_ready _ _ _ rfl rfl).link, rfl⟩, by decide, by decide, (plugOnly_ready []).link, rfl⟩

theorem witness_LinkReadStatsReturnsCounters : LinkReady plugOnly ∧ (plugOnly.cfg.port .plug).present = true
      ∧ (plugOnly.cfg.port .socket).present = false :=
  ⟨(plugOnly_ready []).link, rfl, rfl⟩

theorem witness_PollCycleEndsIdle : CycleReady ready ∧ ready.phase = .idle := ⟨linkState_ready _ _ .idle rfl rfl, rfl⟩

theorem witness_OneFramePerPortPerCycle :
    let s := linkState { begun := true, rx := frameBytes fMidi ++ frameBytes fMidi } { begun := true } .idle
    CycleReady s ∧ s.phase = .idle ∧ runs (cycle s) = true :=
  ⟨linkState_ready _ _ _ rfl rfl, rfl, by decide⟩

theorem witness_CycleFrame :
    CycleReady ready ∧ runs (exec .linkLoop ready) = true
      ∧ CycleReady (linkState { begun := true } { begun := true } .waitPlug)
      ∧ runs (exec .linkHandlerDone (linkState { begun := true } { begun := true } .waitPlug)) = true :=
  ⟨linkState_ready _ _ .idle rfl rfl, by decide, linkState_ready _ _ _ rfl rfl, by decide⟩

theorem witness_PseudoSendsQueueFrames :
    let s := linkState { begun := true } { begun := true, tx := List.replicate 59 0 } .idle
    LinkReady s ∧ (s.cfg.port .socket).present = true ∧ (s.port .socket).tx.length + 5 ≤ (s.cfg.port .socket).txCap :=
  ⟨(linkState_ready _ _ _ rfl rfl).link, by decide, by decide⟩

theorem witness_RelaysAreBounded : 16 ≤ 16 ∧ relays downAddress 16 15 = 15 ∧ relays upAddress 16 0 = 15 := by decide

/-- What may stand in the first gap: a line step, a command (a codec one, one that faults, LINK_LOOP), a reset; before each of the
three ways into a cycle. -/
theorem witness_GapMovesFallBetweenPortOperations :
    let before (m : Move) (ph : Phase) : State := { linkState { begun := true } { begun := true } ph with
      program := ⟨m, []⟩ :: ready.program }
    (LinkReady ready ∧ LinkReady (linkState { begun := true } { begun := true } .waitPlug)
        ∧ LinkReady (linkState { begun := true } { begun := true } .waitSocket))
      ∧ ready.phase = .idle ∧ ready.cfg.plug.present = true ∧ ready.cfg.socket.present = true
      ∧ runs (step (before (.lineRx .socket 7) .waitPlug)) = true ∧ runs (step (before .reset .waitSocket)) = true
      ∧ runs (step (before (.setClock 2000) .idle)) = true
      ∧ see (·.faults) (step (before (.word .host (.command { op := 0x09 })) .idle)) = some [.illegalCommand 0x09]
      ∧ decodeWord (.command { op := 0x09 }) ≠ .linkLoop ∧ decodeWord (.command { op := 0x09 }) ≠ .linkHandlerDone :=
  ⟨⟨(linkState_ready _ _ .idle rfl rfl).link, (linkState_ready _ _ _ rfl rfl).link, (linkState_ready _ _ _ rfl rfl).link⟩,
    rfl, rfl, rfl, by decide, rfl, by decide, by decide, by decide, by decide⟩

theorem witness_GapMovesFallBetweenPortOperations_nested :
    ({ op := 0x21 } : Command).op = 0x21 ∧ see (·.phase) (exec .linkLoop { ready with issuer := .host, gaps := [] }) = some .idle
      ∧ ready.plug.rx = [] ∧ ready.socket.rx.length < ready.cfg.socket.rxCap := by decide

/-- The wire between the second and the third of three devices, both ways: the byte may be lost (TE deasserted), and RX at the
other end is one byte short of full. -/
theorem witness_ChainWiresHandBytesOver :
    let full : PortRegs := { begun := true, rx := List.replicate 63 0, tx := [7] }
    let d (p : Port) : State := { linkState full full .idle with program := [⟨.lineTx p, []⟩] }
    let ds (p : Port) : List State := [ready, d p, d p]
    ∀ x ∈ [((1 : Fin 3), (2 : Fin 3), Port.socket, Port.plug), (2, 1, .plug, .socket)],
      (x.2.2.1 = .socket ∧ x.2.2.2 = .plug ∧ x.2.1.val = x.1.val + 1
          ∨ x.2.2.1 = .plug ∧ x.2.2.2 = .socket ∧ x.1.val = x.2.1.val + 1)
        ∧ (ds x.2.2.1)[x.1].program = ⟨.lineTx x.2.2.1, []⟩ :: [] ∧ (ds x.2.2.1)[x.1].faults = []
        ∧ (ds x.2.2.1)[x.2.1].faults = [] ∧ ((ds x.2.2.1)[x.1].cfg.port x.2.2.1).present = true
        ∧ ((ds x.2.2.1)[x.2.1].cfg.port x.2.2.2).present = true ∧ ((ds x.2.2.1)[x.2.1].port x.2.2.2).begun = true
        ∧ ((ds x.2.2.1)[x.1].port x.2.2.1).tx = 7 :: []
        ∧ ((ds x.2.2.1)[x.2.1].port x.2.2.2).rx.length < ((ds x.2.2.1)[x.2.1].cfg.port x.2.2.2).rxCap
        ∧ mayBeLost (ds x.2.2.1)[x.1] x.2.2.1 = true := by decide

theorem ready_port_ok : PortOk (cfg .a) (cfg .a).plug { begun := true } := by
  constructor <;> decide

theorem witness_EveryStepKeepsInvariant :
    Inv { ready with program := [⟨.word .host (.command { op := 0x21 }), []⟩] }
      ∧ runs (step { ready with program := [⟨.word .host (.command { op := 0x21 }), []⟩] }) = true :=
  ⟨⟨ready_port_ok, ready_port_ok, by decide, fun _ => rfl, fun _ p _ => by cases p <;> rfl, by decide⟩, by decide⟩

theorem witness_RecordsOnlyGrow :
    runs (exec .linkLoop { ready with gaps := [[.lineRx .socket 7]] }) = true ∧ runs (exec .reserved1A ready) = true
      ∧ ∀ ms ∈ [[Move.lineRx .socket 7]], Move.reset ∉ ms := by decide

end Sys2Proof.Tests
end

section
/-! The state after reset (10_state.md R40). -/

namespace Sys2Proof.Machine

/-- Both positions hold the same registers after reset, a present one and an absent one alike (R20). -/
@[simp] theorem State.reset_port (p : Port) : State.reset.port p = {} := by cases p <;> rfl

/-- Settles O1: every port's record is the default one, whose fields are R40's values; the link's registers, the two logs and
the clock's draw are fields of State.reset itself. -/
theorem resetValues : Obligations.ResetValues := by
  refine ⟨fun p => ?_, rfl, rfl, rfl, rfl, rfl, rfl, rfl⟩
  rw [State.reset_port]
  exact ⟨rfl, rfl, rfl, rfl, rfl, rfl, rfl, rfl, rfl⟩

end Sys2Proof.Machine
end

section
/-! The line agent's LINE_RX step (20_memory.md R50, R51). -/

namespace Sys2Proof.Machine

@[simp] theorem State.begin_port (s : State) (ls : List Line) (g : List (List Move)) (i : Issuer) (p : Port) :
    (s.begin ls g i).port p = s.port p := by
  cases p <;> rfl

/-- A line that issues no command leaves ISSUER as it is, so taking it changes the tape and the gaps only. -/
theorem State.begin_issuer_self (s : State) (ls : List Line) (g : List (List Move)) :
    s.begin ls g s.issuer = { s with program := ls, gaps := g } := rfl

theorem step_lineRx {s : State} {p : Port} {b : Byte} {gaps : List (List Move)} {rest : List Line}
    (h : s.program = ⟨.lineRx p b, gaps⟩ :: rest) : step s = lineRx p b (s.begin rest gaps s.issuer) := by
  unfold step; rw [h]

/-- R51: beside `lineRx_room`, the other branch of LINE_RX at a present, begun port. -/
theorem lineRx_full {p : Port} {b : Byte} {s : State} (hf : s.faults = []) (hp : (s.cfg.port p).present = true)
    (hb : (s.port p).begun = true) (hr : (s.cfg.port p).rxCap ≤ (s.port p).rx.length) :
    lineRx p b s = .next (s.raise (.rxOverrun p b)) := by
  unfold lineRx
  rw [whenRunning_of_running hf, if_pos hp, if_pos hb, if_pos hr]

/-- Settles O31: taking the line leaves the ports and the configuration as they are, so `lineRx_room` and `lineRx_full`
apply to the state in which the move runs. -/
theorem lineRxAppendsOrOverruns : Obligations.LineRxAppendsOrOverruns := by
  intro s p b gaps rest hprog hf hp hb
  rw [step_lineRx hprog]
  refine ⟨fun hroom => ?_, fun hfull => ?_⟩
  · rw [lineRx_room (s := s.begin rest gaps s.issuer) hf hp (by simpa using hb) (by simpa using hroom), State.begin_port,
      State.begin_issuer_self]
  · rw [lineRx_full (s := s.begin rest gaps s.issuer) hf hp (by simpa using hb) (by simpa using hfull)]
    rfl

end Sys2Proof.Machine
end

section
/-! The frame-type dispatch table (30_encoding.md R80). -/

namespace Sys2Proof

theorem decodeFrame_of_midi {f : Frame} (h : typeNibble f = 0) (p : Port) :
    decodeFrame p f = .frameMidi p (addressNibble f) (frameBody f) := by
  unfold decodeFrame; rw [h]; rfl

theorem decodeFrame_of_pulse {f : Frame} (h : typeNibble f = 1) (p : Port) :
    decodeFrame p f = .framePulse p (addressNibble f) (f.b1.extractLsb' 6 2) (pulseFadeOut f) (pulseFadeIn f) (pulsePort f)
      (powerRaw f) (durationRaw f) := by
  unfold decodeFrame; rw [h]; rfl

theorem decodeFrame_of_reserved {f : Frame} (h0 : typeNibble f ≠ 0) (h1 : typeNibble f ≠ 1) (p : Port) :
    decodeFrame p f = .frameReserved p (addressNibble f) (typeNibble f) (frameBody f) := by
  unfold decodeFrame
  split
  case h_1 h => exact absurd h h0
  case h_2 h => exact absurd h h1
  case h_3 => rfl

theorem typeNibble_eq_iff (f : Frame) (t : Nib) : typeNibble f = t ↔ f.b0.toNat % 16 = t.toNat := by
  rw [← typeNibble_toNat, BitVec.toNat_inj]

/-- Settles O8: the type nibble is 0, 1 or neither, and each case decodes to its own constructor, so of the three equivalences
one has both sides true and the other two have both sides false. -/
theorem typeNibbleSelectsFrameRow : Obligations.TypeNibbleSelectsFrameRow := by
  intro p f
  by_cases h0 : typeNibble f = 0
  · have hn : f.b0.toNat % 16 = 0 := (typeNibble_eq_iff f 0).mp h0
    simp [decodeFrame_of_midi h0, hn]
  by_cases h1 : typeNibble f = 1
  · have hn : f.b0.toNat % 16 = 1 := (typeNibble_eq_iff f 1).mp h1
    simp [decodeFrame_of_pulse h1, hn]
  · have hn0 : f.b0.toNat % 16 ≠ 0 := fun hn => h0 ((typeNibble_eq_iff f 0).mpr hn)
    have hn1 : f.b0.toNat % 16 ≠ 1 := fun hn => h1 ((typeNibble_eq_iff f 1).mpr hn)
    have hn : 2 ≤ f.b0.toNat % 16 := by omega
    simp [decodeFrame_of_reserved h0 h1, hn0, hn1, hn]

end Sys2Proof
end

section
/-! The reserved opcodes (30_encoding.md R75 to R78). -/

namespace Sys2Proof.Machine

/-- The 27 rows of units 0 to 2 that reserve one opcode each, with that opcode. -/
def singleReservedRows : List (Instr × Byte) :=
  [(.reserved09, 0x09), (.reserved0A, 0x0A), (.reserved0B, 0x0B), (.reserved0C, 0x0C), (.reserved0D, 0x0D),
    (.reserved0E, 0x0E), (.reserved0F, 0x0F), (.reserved16, 0x16), (.reserved17, 0x17), (.reserved18, 0x18),
    (.reserved19, 0x19), (.reserved1A, 0x1A), (.reserved1B, 0x1B), (.reserved1C, 0x1C), (.reserved1D, 0x1D),
    (.reserved1E, 0x1E), (.reserved1F, 0x1F), (.reserved26, 0x26), (.reserved27, 0x27), (.reserved28, 0x28),
    (.reserved29, 0x29), (.reserved2A, 0x2A), (.reserved2B, 0x2B), (.reserved2C, 0x2C), (.reserved2D, 0x2D),
    (.reserved2E, 0x2E), (.reserved2F, 0x2F)]

theorem decodeCommand_of_singleReserved {x : Instr × Byte} (hx : x ∈ singleReservedRows) (args : Operands) :
    decodeCommand { op := x.2, args := args } = x.1 := by
  fin_cases hx <;> rfl

/-- Every opcode below 0x30 has a row of its own, so the last row is left with units 3 to 15. -/
theorem decodeCommand_of_units3To15 {c : Command} (h : 0x30 ≤ c.op.toNat) : decodeCommand c = .reservedUnits3To15 c.op := by
  unfold decodeCommand
  split
  case h_49 => rfl
  all_goals rename_i hop; simp [hop] at h

theorem mem_singleReserved_of_op : ∀ op : Byte,
    (0x09 ≤ op.toNat ∧ op.toNat ≤ 0x0F) ∨ (0x16 ≤ op.toNat ∧ op.toNat ≤ 0x1F) ∨ (0x26 ≤ op.toNat ∧ op.toNat ≤ 0x2F) →
      op ∈ singleReservedRows.map Prod.snd := by
  decide

theorem exec_singleReserved {x : Instr × Byte} (hx : x ∈ singleReservedRows) (s : State) :
    exec x.1 s = raising s (.illegalCommand x.2) := by
  fin_cases hx <;> rfl

theorem exec_reservedUnits3To15 (op : Byte) (s : State) : exec (.reservedUnits3To15 op) s = raising s (.illegalCommand op) := rfl

/-- Settles O25: an opcode of one of the first three ranges stands in the table of single rows and one of 0x30 and above decodes
to the last row; every one of these rows is `raising` with its opcode, which in a running block only appends the record. -/
theorem reservedOpcodesFault : Obligations.ReservedOpcodesFault := by
  refine ⟨fun op args s hf hop => ?_, fun s hf => ⟨fun x hx => ?_, fun op => ?_⟩⟩
  · by_cases hunits : 0x30 ≤ op.toNat
    · rw [decodeWord, decodeCommand_of_units3To15 hunits, exec_reservedUnits3To15, raising_of_running hf]; rfl
    · obtain ⟨x, hx, rfl⟩ := List.mem_map.mp (mem_singleReserved_of_op op (by omega))
      rw [decodeWord, decodeCommand_of_singleReserved hx, exec_singleReserved hx, raising_of_running hf]; rfl
  · rw [exec_singleReserved (x := x) hx, raising_of_running hf]; rfl
  · rw [exec_reservedUnits3To15, raising_of_running hf]; rfl

end Sys2Proof.Machine
end

section
/-! What each codec command does in a running block (40_codec.md R85): one equation per row of unit 0, two for the decodes. -/

namespace Sys2Proof.Machine

variable {s : State} (hf : s.faults = [])
include hf

theorem exec_getType (f : Frame) : exec (.getType f) s = .next { s with result := .nibble (typeNibble f) } :=
  answer_of_running hf _

theorem exec_getAddress (f : Frame) : exec (.getAddress f) s = .next { s with result := .nibble (addressNibble f) } :=
  answer_of_running hf _

theorem exec_encodeHeader (f : Frame) (a t : Nib) :
    exec (.encodeHeader f a t) s = .next { s with result := .frame (withHeader f a t) } :=
  answer_of_running hf _

theorem exec_decodeMidi_type0 {f : Frame} (h : typeNibble f = 0) :
    exec (.decodeMidi f) s = .next { s with result := .midi (frameBody f) } :=
  (if_pos h).trans (answer_of_running hf _)

theorem exec_decodeMidi_wrongType {f : Frame} (h : typeNibble f ≠ 0) :
    exec (.decodeMidi f) s = .next (s.raise (.wrongTypeDecode opDecodeMidi f.b0)) :=
  (if_neg h).trans (raising_of_running hf _)

theorem exec_encodeMidi (f : Frame) (m : Midi) :
    exec (.encodeMidi f m) s = .next { s with result := .frame (midiFrame f m) } :=
  answer_of_running hf _

theorem exec_decodePulse_type1 {f : Frame} (h : typeNibble f = 1) :
    exec (.decodePulse f) s = .next { s with result := .pulse (decodePulseFrame s.cfg f) } :=
  (if_pos h).trans (answer_of_running hf _)

theorem exec_decodePulse_wrongType {f : Frame} (h : typeNibble f ≠ 1) :
    exec (.decodePulse f) s = .next (s.raise (.wrongTypeDecode opDecodePulse f.b0)) :=
  (if_neg h).trans (raising_of_running hf _)

theorem exec_encodePulse (f : Frame) (u : Pulse) :
    exec (.encodePulse f u) s = .next { s with result := .frame (encodePulseFrame s.cfg f u) } :=
  answer_of_running hf _

theorem exec_plEncode (q : Quantity) (v : Rat) :
    exec (.plEncode q v) s = .next { s with result := .raw (quantize s.cfg q v) } :=
  answer_of_running hf _

theorem exec_plDecode (q : Quantity) (r : Raw) :
    exec (.plDecode q r) s = .next { s with result := .value (dequantize s.cfg q r) } :=
  answer_of_running hf _

end Sys2Proof.Machine
end

section
/-! The header and MIDI commands (40_codec.md R86 to R90, R101). -/

namespace Sys2Proof.Machine

/-- Settles O9: the results are the two nibbles of B0, whose numbers are its remainder and quotient by 16. -/
theorem headerReadsReturnNibbles : Obligations.HeaderReadsReturnNibbles := fun f _ hf =>
  ⟨typeNibble f, addressNibble f, typeNibble_toNat f, addressNibble_toNat f, exec_getType hf f, exec_getAddress hf f⟩

/-- Settles O10: `withHeader` replaces B0 alone, by the header byte of the operands. -/
theorem encodeHeaderWritesB0 : Obligations.EncodeHeaderWritesB0 := fun f a t _ hf =>
  ⟨headerByte a t, headerByte_toNat a t, exec_encodeHeader hf f a t⟩

/-- Settles O11: the type nibble is 0 exactly when B0 mod 16 is, and each case is one branch of the command. -/
theorem decodeMidiCopiesOrFaults : Obligations.DecodeMidiCopiesOrFaults := by
  intro f s hf
  have hiff : typeNibble f = 0 ↔ f.b0.toNat % 16 = 0 := typeNibble_eq_iff f 0
  split
  case isTrue h => exact exec_decodeMidi_type0 hf (hiff.mpr h)
  case isFalse h => exact exec_decodeMidi_wrongType hf (mt hiff.mp h)

/-- Settles O12: B0 of the new frame is the header byte of the old address nibble and type 0. -/
theorem encodeMidiKeepsAddress : Obligations.EncodeMidiKeepsAddress := by
  intro f m s hf
  refine ⟨headerByte (addressNibble f) 0, ?_, exec_encodeMidi hf f m⟩
  rw [headerByte_toNat, addressNibble_toNat]
  rfl

/-- Settles O22: reading a nibble of a header byte gives back what was packed, so the type of ENCODE_MIDI's frame is 0 and
DECODE_MIDI takes its first branch. -/
theorem headerAndMidiRoundTrips : Obligations.HeaderAndMidiRoundTrips := by
  intro f a t m s hf
  have haddr : addressNibble (withHeader f a t) = a := addressNibble_headerByte a t (frameBody f)
  have htype : typeNibble (withHeader f a t) = t := typeNibble_headerByte a t (frameBody f)
  have hmidi : typeNibble (midiFrame f m) = 0 := typeNibble_headerByte (addressNibble f) 0 m
  refine ⟨withHeader f a t, midiFrame f m, exec_encodeHeader hf f a t, ?_, ?_, exec_encodeMidi hf f m,
    exec_decodeMidi_type0 hf hmidi⟩
  · rw [exec_getAddress hf, haddr]
  · rw [exec_getType hf, htype]

end Sys2Proof.Machine
end

section
/-! The pulse commands (40_codec.md R97, R98, R102). -/

namespace Sys2Proof.Machine

theorem dequantize_power (c : Config) (r : Raw) : dequantize c .power r = 100 * (r.toNat : Rat) ^ 3 / 4095 ^ 3 := rfl

/-- R91 with R10's two variants of the duration's MAX and EXP written out. -/
theorem dequantize_duration (c : Config) (r : Raw) :
    dequantize c .duration r = match c.variant with
      | .a => 10 * (r.toNat : Rat) ^ 3 / 4095 ^ 3
      | .b => 100 * (r.toNat : Rat) ^ 8 / 4095 ^ 8 := by
  unfold dequantize Config.quantityMax Config.quantityExp
  cases c.variant <;> rfl

/-- Settles O13: the record's fields are the bit fields of the frame, read as numbers by the laws of Fields, and its two
magnitudes are the dequantized raw fields; with another type nibble the command takes its fault branch. -/
theorem decodePulseReadsFields : Obligations.DecodePulseReadsFields := by
  intro f s hf
  have hiff : typeNibble f = 1 ↔ f.b0.toNat % 16 = 1 := typeNibble_eq_iff f 1
  refine ⟨fun h => ?_, fun h => exec_decodePulse_wrongType hf (mt hiff.mp h)⟩
  exact ⟨decodePulseFrame s.cfg f, pulsePort_toNat f, pulseFadeIn_eq f, pulseFadeOut_eq f, powerRaw_toNat f,
    durationRaw_toNat f, dequantize_power s.cfg _, dequantize_duration s.cfg _, exec_decodePulse_type1 hf (hiff.mpr h)⟩

/-- Settles O14: each byte of `encodePulseFrame` has its number from the law of its packing. -/
theorem encodePulsePacksFields : Obligations.EncodePulsePacksFields := by
  intro f u s hf
  refine ⟨_, _, _, _, _, exec_encodePulse hf f u, ?_, ?_, pulseB2_toNat _ _, low_toNat _, low_toNat _⟩
  · rw [headerByte_toNat, addressNibble_toNat]
    rfl
  · rw [pulseB1_toNat]
    simp

/-! ### The clamp of power and duration -/

theorem clampQuantity_of_nonpos {c : Config} {q : Quantity} {v : Rat} (h : v ≤ 0) : clampQuantity c q v = 0 := by
  unfold clampQuantity clampRat; rw [max_eq_right h, min_eq_left (Nat.cast_nonneg _)]

theorem clampQuantity_of_max_le {c : Config} {q : Quantity} {v : Rat} (h : (c.quantityMax q : Rat) ≤ v) :
    clampQuantity c q v = c.quantityMax q :=
  min_eq_right (h.trans (le_max_left _ _))

theorem clampQuantity_clampQuantity (c : Config) (q : Quantity) (v : Rat) :
    clampQuantity c q (clampQuantity c q v) = clampQuantity c q v :=
  clampQuantity_of_mem (clampQuantity_nonneg c q v) (clampQuantity_le c q v)

/-- The quantizer reads its input through the clamp alone (R92). -/
theorem quantize_congr {c : Config} {q : Quantity} {v w : Rat} (h : clampQuantity c q v = clampQuantity c q w) :
    quantize c q v = quantize c q w := by
  unfold quantize; rw [h]

theorem encodePulseFrame_congr {c : Config} {p p' d d' : Rat} (f : Frame) (u : Pulse)
    (hp : clampQuantity c .power p = clampQuantity c .power p')
    (hd : clampQuantity c .duration d = clampQuantity c .duration d') :
    encodePulseFrame c f { u with power := p, duration := d } = encodePulseFrame c f { u with power := p', duration := d' } := by
  unfold encodePulseFrame
  rw [quantize_congr hp, quantize_congr hd]

/-- R102's general law: two pulses that differ only in power and duration, with the same clamped values, have one outcome. In a
stopped block too, where no frame is returned. -/
theorem exec_encodePulse_congr {s : State} {p p' d d' : Rat} (f : Frame) (u : Pulse)
    (hp : clampQuantity s.cfg .power p = clampQuantity s.cfg .power p')
    (hd : clampQuantity s.cfg .duration d = clampQuantity s.cfg .duration d') :
    exec (.encodePulse f { u with power := p, duration := d }) s
      = exec (.encodePulse f { u with power := p', duration := d' }) s :=
  congrArg (fun g => answer s (.frame g)) (encodePulseFrame_congr f u hp hd)

/-- Settles O23: in each part the old and the new magnitude have the same clamped value. -/
theorem encodePulseClamps : Obligations.EncodePulseClamps := by
  intro f u s
  refine ⟨exec_encodePulse_congr f u ?_ rfl, exec_encodePulse_congr f u rfl ?_,
    exec_encodePulse_congr f u (clampQuantity_clampQuantity s.cfg .power u.power).symm
      (clampQuantity_clampQuantity s.cfg .duration u.duration).symm⟩
  · have hmax : s.cfg.quantityMax .power = 100 := rfl
    rw [clampQuantity_of_max_le (by norm_num [hmax]), clampQuantity_of_max_le (by norm_num [hmax])]
  · rw [clampQuantity_of_nonpos (by norm_num), clampQuantity_of_nonpos le_rfl]

end Sys2Proof.Machine
end

section
/-! The quantizer commands (40_codec.md R91, R92). -/

namespace Sys2Proof.Machine

theorem dequantize_zero (c : Config) (q : Quantity) : dequantize c q 0 = 0 := by
  have hexp := (quantityExp_pos c q).ne'
  simp [dequantize, hexp]

theorem dequantize_4095 (c : Config) (q : Quantity) : dequantize c q 4095 = c.quantityMax q := by
  have hraw : (4095 : Raw).toNat = 4095 := rfl
  unfold dequantize
  rw [hraw, Nat.cast_ofNat]
  exact mul_div_cancel_right₀ _ (by positivity)

/-- Settles O15: the command answers with `dequantize`, which is R91's formula itself. -/
theorem plDecodeIsExactPower : Obligations.PlDecodeIsExactPower := fun q r s hf =>
  ⟨⟨dequantize s.cfg q r, rfl, exec_plDecode hf q r⟩, dequantize_zero s.cfg q, dequantize_4095 s.cfg q⟩

/-! ### The quantizer as a rounded real root -/

/-- R92's `y + 1/2` over the reals: `y` is 4095 times the EXP-th root of the clamped input's part of MAX. -/
noncomputable def shiftedRoot (c : Config) (q : Quantity) (v : Rat) : Real :=
  4095 * ((clampQuantity c q v / c.quantityMax q : Rat) : Real) ^ ((1 : Real) / c.quantityExp q) + 1 / 2

theorem clampedPart_nonneg (c : Config) (q : Quantity) (v : Rat) :
    (0 : Real) ≤ (clampQuantity c q v / c.quantityMax q : Rat) :=
  Rat.cast_nonneg.mpr (div_nonneg (clampQuantity_nonneg c q v) (Nat.cast_nonneg _))

theorem clampedPart_le_one (c : Config) (q : Quantity) (v : Rat) :
    ((clampQuantity c q v / c.quantityMax q : Rat) : Real) ≤ 1 := by
  exact_mod_cast div_le_one_of_le₀ (clampQuantity_le c q v) (Nat.cast_nonneg _)

theorem shiftedRoot_nonneg (c : Config) (q : Quantity) (v : Rat) : 0 ≤ shiftedRoot c q v := by
  have := Real.rpow_nonneg (clampedPart_nonneg c q v) (1 / c.quantityExp q)
  unfold shiftedRoot; linarith

theorem shiftedRoot_lt (c : Config) (q : Quantity) (v : Rat) : shiftedRoot c q v < 4096 := by
  have := Real.rpow_le_one (clampedPart_nonneg c q v) (clampedPart_le_one c q v)
    (show (0 : Real) ≤ 1 / c.quantityExp q by positivity)
  unfold shiftedRoot; linarith

/-- The clamped input has reached the round point of `k` exactly when `k` is at most `y + 1/2`: raise `(2k - 1)/8190 ≤ root` to
the EXP-th power. -/
theorem roundPoint_le_iff_le_shiftedRoot (c : Config) (q : Quantity) (v : Rat) {k : Nat} (hk : 1 ≤ k) :
    roundPoint c q k ≤ clampQuantity c q v ↔ (k : Real) ≤ shiftedRoot c q v := by
  have hmax : (0 : Rat) < c.quantityMax q := Nat.cast_pos.mpr (quantityMax_pos c q)
  have hexp : (0 : Real) < c.quantityExp q := Nat.cast_pos.mpr (quantityExp_pos c q)
  have hk1 : (1 : Real) ≤ k := by exact_mod_cast hk
  have hbase : (0 : Real) ≤ (2 * k - 1) / 8190 := by linarith
  have hroot := Real.le_rpow_inv_iff_of_pos hbase (clampedPart_nonneg c q v) hexp
  rw [Real.rpow_natCast, ← one_div] at hroot
  calc roundPoint c q k ≤ clampQuantity c q v
      ↔ ((2 * (k : Rat) - 1) / 8190) ^ c.quantityExp q ≤ clampQuantity c q v / c.quantityMax q := by
        rw [roundPoint, le_div_iff₀' hmax]
    _ ↔ ((2 * (k : Real) - 1) / 8190) ^ c.quantityExp q ≤ (clampQuantity c q v / c.quantityMax q : Rat) := by
        rw [← Rat.cast_le (K := Real)]; push_cast; rfl
    _ ↔ (k : Real) ≤ shiftedRoot c q v := by
        rw [← hroot]
        unfold shiftedRoot
        constructor <;> intro h <;> linarith

/-- R92 of the model's quantizer: it is the floor of `y + 1/2`. -/
theorem quantize_eq_floor (c : Config) (q : Quantity) (v : Rat) : ((quantize c q v).toNat : Int) = ⌊shiftedRoot c q v⌋ := by
  obtain ⟨hreached, hgreatest⟩ := quantize_spec c q v
  have hlt : (quantize c q v).toNat < 4096 := (quantize c q v).isLt
  symm
  rw [Int.floor_eq_iff]
  push_cast
  constructor
  · rcases Nat.eq_zero_or_pos (quantize c q v).toNat with h0 | hpos
    · rw [h0, Nat.cast_zero]; exact shiftedRoot_nonneg c q v
    · exact (roundPoint_le_iff_le_shiftedRoot c q v hpos).mp (hreached.resolve_left hpos.ne')
  · by_contra! hnext
    have hnext' : (((quantize c q v).toNat + 1 : Nat) : Real) ≤ shiftedRoot c q v := by push_cast; exact hnext
    have hbound : (quantize c q v).toNat + 1 < 4096 := by
      exact_mod_cast hnext'.trans_lt (shiftedRoot_lt c q v)
    have := hgreatest _ (by omega) (by omega) ((roundPoint_le_iff_le_shiftedRoot c q v (by omega)).mpr hnext')
    omega

/-- Settles O16: the command answers with `quantize`, and `shiftedRoot` is the real number whose floor R92 takes. -/
theorem plEncodeIsRoundedRoot : Obligations.PlEncodeIsRoundedRoot := fun q v s hf =>
  ⟨quantize s.cfg q v, exec_plEncode hf q v, quantize_eq_floor s.cfg q v⟩

end Sys2Proof.Machine
end

section
/-! What the codec leaves unchanged (40_codec.md R85). -/

namespace Sys2Proof.Machine

/-- A codec command only answers, or it is a decode that raises a fault. -/
theorem codec_answers_or_decode_raises {i : Instr} (hwf : i.wf = true) (hc : isCodecWord (encode i) = true) (s : State) :
    (∃ r, exec i s = answer s r) ∨ ((∃ r, exec i s = raising s r) ∧ ∃ f, i = .decodeMidi f ∨ i = .decodePulse f) := by
  cases i
  case getType | getAddress | encodeHeader | encodeMidi | encodePulse | plEncode | plDecode => exact .inl ⟨_, rfl⟩
  case decodeMidi f =>
    by_cases h : typeNibble f = 0
    · exact .inl ⟨_, if_pos h⟩
    · exact .inr ⟨⟨_, if_neg h⟩, f, .inl rfl⟩
  case decodePulse f =>
    by_cases h : typeNibble f = 1
    · exact .inl ⟨_, if_pos h⟩
    · exact .inr ⟨⟨_, if_neg h⟩, f, .inr rfl⟩
  case reservedUnits3To15 op =>
    have hge : 0x30 ≤ op.toNat := of_decide_eq_true hwf
    have hle : op.toNat ≤ 0x08 := of_decide_eq_true hc
    omega
  all_goals cases hc

/-- Settles O24: an answer writes the result alone and leaves FAULTS empty; the only other outcome is a decode's fault, which
writes FAULTS alone. -/
theorem codecChangesNoRegister : Obligations.CodecChangesNoRegister := by
  intro i s hwf hc hf
  rcases codec_answers_or_decode_raises hwf hc s with ⟨r, hr⟩ | ⟨⟨r, hr⟩, hdecode⟩
  · exact ⟨{ s with result := r }, hr.trans (answer_of_running hf r), rfl, .inl hf⟩
  · exact ⟨s.raise r, hr.trans (raising_of_running hf r), rfl, .inr hdecode⟩

end Sys2Proof.Machine
end

section
/-! The port commands past the check of the issuer, and the two checks of R105 (41_port.md). -/

namespace Sys2Proof.Machine

variable {α : Type} {op : Byte} {p : Port} {s : State}

/-- A port operation issued as a command by the sequencer at a ready port is the operation past its checks. -/
theorem portCommand_ready (h : PortReady s p) (k : Ran α) (f : α → Result) :
    portCommand op s ((portOp op p s k).finish f) = k.finish f := by
  obtain ⟨running, issuer, present, begun⟩ := h
  rw [portCommand_sequencer running issuer, portOp_of_ready present begun]

theorem exec_portReceive_ready (h : PortReady s p) : exec (.portReceive p) s = (receiveStep p s).finish .received :=
  portCommand_ready h _ _

theorem exec_portSend_ready (h : PortReady s p) (a : Nib) (f : Frame) :
    exec (.portSend p a f) s = (sendWrite p a f (sendActivity p s)).finish .flag :=
  portCommand_ready h _ _

theorem exec_portPowerDown_ready (h : PortReady s p) :
    exec (.portPowerDown p) s = (powerDownStep p s).finish fun _ => .unit :=
  portCommand_ready h _ _

theorem exec_portIdle_ready (h : PortReady s p) :
    exec (.portIdle p) s = .next { s.now.2 with result := .flag (idleAt s p s.now.1) } :=
  portCommand_ready h _ _

theorem exec_portReadStats_ready (h : PortReady s p) :
    exec (.portReadStats p) s = .next { s with result := .stats (s.port p).inCount (s.port p).outCount } :=
  portCommand_ready h _ _

theorem Ran.finish_raised (s : State) (r : FaultRecord) (f : α → Result) : (Ran.raised s r).finish f = .next (s.raise r) := rfl

section
variable (running : s.faults = []) (issuer : s.issuer = .sequencer)
include running issuer

/-- R105, first check. -/
theorem portCommand_absent (absent : (s.cfg.port p).present = false) (k : Ran α) (f : α → Result) :
    portCommand op s ((portOp op p s k).finish f) = .next (s.raise (.absentPort op p)) := by
  rw [portCommand_sequencer running issuer, portOp, if_neg (by simp [absent]), Ran.finish_raised]

/-- R105, second check. -/
theorem portCommand_notBegun (present : (s.cfg.port p).present = true) (notBegun : (s.port p).begun = false) (k : Ran α)
    (f : α → Result) : portCommand op s ((portOp op p s k).finish f) = .next (s.raise (.notBegun op (some p))) := by
  rw [portCommand_sequencer running issuer, portOp, if_pos present, if_neg (by simp [notBegun]), Ran.finish_raised]

theorem exec_portBegin_sequencer : exec (.portBegin p) s = (portBegin p s).finish fun _ => .unit :=
  portCommand_sequencer running issuer _

end

/-- PORT_BEGIN has checks of its own: the position is absent (R105), or the port has begun before (R106). -/
theorem portBegin_absent (h : (s.cfg.port p).present = false) : portBegin p s = .raised s (.absentPort opPortBegin p) := by
  unfold portBegin
  rw [if_neg (by simp [h])]

theorem portBegin_twice (hp : (s.cfg.port p).present = true) (hb : (s.port p).begun = true) :
    portBegin p s = .raised s (.beginTwice opPortBegin) := by
  unfold portBegin
  rw [if_pos hp, if_pos hb]

/-- Settles O29: each operation but PORT_BEGIN runs behind the same two checks, and PORT_BEGIN behind the first. -/
theorem portChecksInOrder : Obligations.PortChecksInOrder := by
  intro p a f s hf hi
  refine ⟨fun absent => ⟨?_, ?_, ?_, ?_, ?_, ?_⟩, fun present notBegun => ⟨?_, ?_, ?_, ?_, ?_⟩⟩
  · rw [exec_portBegin_sequencer hf hi, portBegin_absent absent]; rfl
  iterate 5 exact portCommand_absent hf hi absent _ _
  iterate 5 exact portCommand_notBegun hf hi present notBegun _ _

end Sys2Proof.Machine
end

section
/-! The two operations that make a port passive: PORT_BEGIN (41_port.md R106) and PORT_POWER_DOWN (R118). -/

namespace Sys2Proof.Machine

/-- All that a write of ACTIVE changes: the flag, and with a pin TE and the event. -/
theorem State.setActive_eq (s : State) (p : Port) (b : Bool) :
    s.setActive p b = { s.setPort p { s.port p with active := b, te := if (s.cfg.port p).hasTe then b else (s.port p).te } with
      events := s.events ++ (if (s.cfg.port p).hasTe then [.teSet p b] else []) } := by
  unfold State.setActive
  split
  · cases p <;> rfl
  · rw [List.append_nil]; cases p <;> rfl

/-- PORT_BEGIN past its checks. -/
theorem portBegin_starts {p : Port} {s : State} (hp : (s.cfg.port p).present = true) (hb : (s.port p).begun = false) :
    portBegin p s = .ok () { s.setPort p { s.port p with
        begun := true, active := false, te := if (s.cfg.port p).hasTe then false else (s.port p).te } with
      events := s.events ++ [.peripheralBegin p s.cfg.baud] ++ (if (s.cfg.port p).hasTe then [.teSet p false] else []) } := by
  unfold portBegin
  rw [if_pos hp, if_neg (by simp [hb])]
  dsimp only
  rw [State.setActive_eq]
  cases p <;> rfl

/-- Settles O34: one equation of PORT_BEGIN per clause, begun before or not. -/
theorem portBeginStartsPort : Obligations.PortBeginStartsPort := by
  intro p s hf hi hp
  rw [exec_portBegin_sequencer hf hi]
  refine ⟨fun notBegun => ?_, fun begun => ?_⟩
  · rw [portBegin_starts hp notBegun, Ran.finish_ok]
    exact ⟨_, rfl, rfl, rfl⟩
  · rw [portBegin_twice hp begun]; rfl

section
variable {p : Port} {s : State}

theorem powerDownStep_passive (h : (s.port p).active = false) : powerDownStep p s = .ok () s := by
  unfold powerDownStep
  rw [if_neg (by simp [h])]

variable (active : (s.port p).active = true)
include active

theorem powerDownStep_waits (h : elapsed s.cfg.clockWidth (s.port p).lastAct s.now.1 < s.cfg.powerdownUs) :
    powerDownStep p s = .ok () s.now.2 := by
  unfold powerDownStep
  rw [if_pos active, if_neg (by omega)]

theorem powerDownStep_deasserts (h : s.cfg.powerdownUs ≤ elapsed s.cfg.clockWidth (s.port p).lastAct s.now.1) :
    powerDownStep p s = .ok () (s.now.2.setActive p false) := by
  unfold powerDownStep
  rw [if_pos active, if_pos h]

end

/-- Settles O40: the clock read before the write of ACTIVE leaves the registers, the configuration and the events as they were. -/
theorem powerDownAfterInactivity : Obligations.PowerDownAfterInactivity := by
  intro p s ready
  rw [exec_portPowerDown_ready ready]
  refine ⟨fun active late => ?_, fun active early => ?_, fun passive => ?_⟩
  · rw [powerDownStep_deasserts active late, State.setActive_eq, State.now_port, State.now_cfg, State.now_events, Ran.finish_ok]
  · rw [powerDownStep_waits active early, Ran.finish_ok]
  · rw [powerDownStep_passive passive, Ran.finish_ok]

end Sys2Proof.Machine
end

section
/-! PORT_RECEIVE (41_port.md R107 to R112), one equation per branch; `receiveStep_frame` is that of a whole frame. -/

namespace Sys2Proof.Machine

variable {p : Port} {s : State}

/-- R108. -/
theorem receiveStep_idle (h : (s.port p).rx = []) : receiveStep p s = .ok none s := by
  unfold receiveStep
  rw [h]
  rfl

section
variable (pending : 1 ≤ (s.port p).rx.length) (partialFrame : (s.port p).rx.length ≤ 4)
include pending partialFrame

/-- What RX holds of a partial frame: some byte, but no whole frame. -/
theorem rx_partial : popFrame (s.port p).rx = none ∧ (s.port p).rx ≠ [] :=
  ⟨(popFrame_none_iff _).mpr (by omega), List.ne_nil_of_length_pos pending⟩

/-- R109. -/
theorem receiveStep_arms (unarmed : (s.port p).toStamp = 0) :
    receiveStep p s = .ok none (s.now.2.setPort p { s.port p with toStamp := s.now.1 }) := by
  obtain ⟨noFrame, nonempty⟩ := rx_partial pending partialFrame
  unfold receiveStep
  simp only [noFrame, if_neg nonempty, if_pos unarmed]

/-- R110. -/
theorem receiveStep_drops (armed : (s.port p).toStamp ≠ 0)
    (late : s.cfg.partialTimeoutUs < elapsed s.cfg.clockWidth (s.port p).toStamp s.now.1) :
    receiveStep p s = .ok none (s.now.2.setPort p { s.port p with rx := [], toStamp := 0 }) := by
  obtain ⟨noFrame, nonempty⟩ := rx_partial pending partialFrame
  unfold receiveStep
  simp only [noFrame, if_neg nonempty, if_neg armed, if_pos late]

end

/-- Settles O35: the two branches of PORT_RECEIVE that return none before any times are compared. -/
theorem receiveIdleOrArms : Obligations.ReceiveIdleOrArms := by
  intro p s ready
  rw [exec_portReceive_ready ready]
  refine ⟨fun empty => ?_, fun pending partialFrame unarmed => ?_⟩
  · rw [receiveStep_idle empty, Ran.finish_ok]
  · rw [receiveStep_arms pending partialFrame unarmed, Ran.finish_ok]

/-- Settles O36: the strict test of R110 puts the command in its dropping branch. -/
theorem receiveDropsLatePartialFrame : Obligations.ReceiveDropsLatePartialFrame := by
  intro p s ready pending partialFrame armed late
  rw [exec_portReceive_ready ready, receiveStep_drops pending partialFrame armed late, Ran.finish_ok]

/-- Settles O38: five bytes in front of the rest are a frame's bytes in wire order. -/
theorem receiveTakesWholeFrame : Obligations.ReceiveTakesWholeFrame := by
  intro p s b0 b1 b2 b3 b4 rest ready hrx
  rw [exec_portReceive_ready ready, receiveStep_frame (f := ⟨b0, b1, b2, b3, b4⟩) hrx, Ran.finish_ok]
  rfl

end Sys2Proof.Machine
end

section
/-! The queries of a port (41_port.md R119, R120). -/

namespace Sys2Proof.Machine

/-- The three parts of the idle test. -/
theorem idleAt_iff (s : State) (p : Port) (t : Nat) :
    idleAt s p t = true ↔ (s.port p).rx = [] ∧ (s.port p).toStamp = 0
      ∧ s.cfg.quietUs ≤ elapsed s.cfg.clockWidth (s.port p).lastAct t := by
  simp [idleAt, and_assoc]

/-- Settles O41: PORT_IDLE answers `idleAt`, whose three parts `idleAt_iff` names. -/
theorem portQueriesAnswer : Obligations.PortQueriesAnswer := fun p s ready =>
  ⟨⟨idleAt s p s.now.1, exec_portIdle_ready ready, idleAt_iff s p s.now.1⟩, exec_portReadStats_ready ready⟩

end Sys2Proof.Machine
end

section
/-! PORT_SEND at a ready port (41_port.md R114 to R117), over `sent`, the state its two parts leave. -/

namespace Sys2Proof.Machine

theorem State.port_withResult (s : State) (r : Result) (p : Port) : ({ s with result := r } : State).port p = s.port p := by
  cases p <;> rfl

variable {p : Port} {a : Nib} {f : Frame} {s : State}

/-- PORT_SEND answers whether the frame fits behind what TX holds (R116, R117). -/
theorem exec_portSend_sent (ready : PortReady s p) :
    exec (.portSend p a f) s
      = .next { sent p a f s with result := .flag (decide ((s.port p).tx.length + 5 ≤ (s.cfg.port p).txCap)) } := by
  have hcfg : (sendActivity p s).cfg = s.cfg := (sendActivity_touches p s).cfg
  have htx : ((sendActivity p s).port p).tx = (s.port p).tx := by rw [sendActivity_port]
  rw [exec_portSend_ready ready, sent]
  rcases sendWrite_cases p a f (sendActivity p s) with ⟨full, e⟩ | ⟨room, e⟩
  · rw [hcfg, htx] at full
    rw [e, Ran.finish_ok, decide_eq_false (by omega)]; rfl
  · rw [hcfg, htx] at room
    rw [e, Ran.finish_ok, decide_eq_true room]; rfl

/-- R115: the level of TE, with or without room. -/
theorem sent_te (p : Port) (a : Nib) (f : Frame) (s : State) :
    ((sent p a f s).port p).te
      = if (s.port p).active then (s.port p).te else if (s.cfg.port p).hasTe then true else (s.port p).te := by
  rcases Nat.lt_or_ge (s.cfg.port p).txCap ((s.port p).tx.length + 5) with full | room
  · rw [sent_full full, sendActivity_port]
  · rw [sent_room room, sendActivity_port]

/-- Settles O39: TE, the stamp, the clock and the events come from the first part of the send, which runs in any case; only the
last two clauses ask for room. -/
theorem sendAssertsTeThenWrites : Obligations.SendAssertsTeThenWrites := by
  intro p a f s ready
  obtain ⟨written, -⟩ := sent_port p a f s
  obtain ⟨timeLe, timeHeld⟩ := (sent_touches p a f s).time
  refine ⟨_, exec_portSend_sent ready, ?_⟩
  simp only [State.port_withResult]
  refine ⟨by rw [written], fun pin passive => ?rising, sent_lastAct p a f s, timeLe, timeHeld, ?events, by rw [written],
    fun room => ⟨headerByte a (typeNibble f), ?header, ?pushed, ?counted, ?answer⟩, fun full => ?nothing⟩
  case rising => simp [sent_te, pin, passive]
  case events => rw [sent_events]; cases (s.port p).active <;> simp
  case header => rw [headerByte_toNat, typeNibble_toNat]
  case pushed => rw [sent_room room]; rfl
  case counted => rw [sent_room room]; rfl
  case answer => rw [decide_eq_true room]
  case nothing => rw [sent_full full, sendActivity_port]; exact ⟨rfl, rfl, by rw [decide_eq_false (by omega)]⟩

end Sys2Proof.Machine
end

section
/-! The checks before a link operation, one lemma per check that fails (42_link.md R123), and LINK_READ_STATS (R137). -/

namespace Sys2Proof.Machine

variable {op : Byte} {p : Port} {a : Nib} {f : Frame} {s : State}

theorem notReentrant_busy (h : s.phase ≠ .idle) (k : Step) : notReentrant op s k = .next (s.raise (.reentrant op s.phase)) := by
  unfold notReentrant
  split
  · exact absurd ‹_› h
  all_goals rfl

theorem whenBegun_notBegun {q : Option Port} (h : s.linkBegun = false) (k : Step) :
    whenBegun op q s k = .next (s.raise (.notBegun op q)) := by
  unfold whenBegun; rw [if_neg (by simp [h])]

theorem whenPresent_of (h : (s.cfg.port p).present = true) (k : Step) : whenPresent op p s k = k := by
  unfold whenPresent; rw [if_pos h]

theorem whenPresent_absent (h : (s.cfg.port p).present = false) (k : Step) :
    whenPresent op p s k = .next (s.raise (.absentPort op p)) := by
  unfold whenPresent; rw [if_neg (by simp [h])]

section
variable (running : s.faults = [])
include running

theorem exec_linkLoop_running :
    exec .linkLoop s
      = notReentrant opLinkLoop s (whenBegun opLinkLoop none s (cycleS1 (gap s.gaps.length) s)) :=
  whenRunning_of_running running _

theorem exec_linkBegin_running :
    exec .linkBegin s = notReentrant opLinkBegin s
      (if s.linkBegun then .next (s.raise (.beginTwice opLinkBegin)) else (linkBeginOps s).finish fun _ => .unit) :=
  whenRunning_of_running running _

theorem exec_linkIdle_running :
    exec .linkIdle s = whenBegun opLinkIdle none s ((linkIdleOps s).finish .flag) :=
  whenRunning_of_running running _

theorem exec_linkSend_running :
    exec (.linkSend p a f) s
      = whenBegun opLinkSend (some p) s (whenPresent opLinkSend p s ((portSend p a f s).finish .flag)) :=
  whenRunning_of_running running _

theorem exec_linkReadStats_running :
    exec (.linkReadStats p) s = whenBegun opLinkReadStats (some p) s
      (whenPresent opLinkReadStats p s ((portReadStats p s).finish fun c => .stats c.1 c.2)) :=
  whenRunning_of_running running _

theorem exec_linkHandlerDone_idle (h : s.phase = .idle) :
    exec .linkHandlerDone s = .next (s.raise (.noCycle opLinkHandlerDone)) := by
  show handlerDoneWith _ s = _
  unfold handlerDoneWith
  rw [whenRunning_of_running running, h]

theorem exec_linkHandlerDone_three (h : s.phase = .three) :
    exec .linkHandlerDone s = .next (s.raise (.illegalState .three)) := by
  show handlerDoneWith _ s = _
  unfold handlerDoneWith
  rw [whenRunning_of_running running, h]

theorem exec_linkHandlerDone_notBegun (h : s.phase = .waitPlug ∨ s.phase = .waitSocket) (notBegun : s.linkBegun = false) :
    exec .linkHandlerDone s = .next (s.raise (.notBegun opLinkHandlerDone none)) := by
  show handlerDoneWith _ s = _
  unfold handlerDoneWith
  rw [whenRunning_of_running running]
  rcases h with h | h <;> rw [h] <;> exact whenBegun_notBegun notBegun _

end

/-- Settles O28: each clause is the failing branch of one check, the checks before it passed. -/
theorem linkChecksInOrder : Obligations.LinkChecksInOrder := by
  intro p a f s running
  refine ⟨fun busy => ⟨?_, ?_⟩, exec_linkHandlerDone_idle running, exec_linkHandlerDone_three running,
    fun notBegun => ⟨fun idle => ?_, fun waiting => exec_linkHandlerDone_notBegun running waiting notBegun, ?_, ?_, ?_⟩,
    fun begun absent => ⟨?_, ?_⟩⟩
  · rw [exec_linkLoop_running running]; exact notReentrant_busy busy _
  · rw [exec_linkBegin_running running]; exact notReentrant_busy busy _
  · rw [exec_linkLoop_running running, notReentrant_idle idle]; exact whenBegun_notBegun notBegun _
  · rw [exec_linkIdle_running running]; exact whenBegun_notBegun notBegun _
  · rw [exec_linkSend_running running]; exact whenBegun_notBegun notBegun _
  · rw [exec_linkReadStats_running running]; exact whenBegun_notBegun notBegun _
  · rw [exec_linkSend_running running, whenBegun_of begun]; exact whenPresent_absent absent _
  · rw [exec_linkReadStats_running running, whenBegun_of begun]; exact whenPresent_absent absent _

/-- Settles O50: past the link's checks PORT_READ_STATS passes its own, since a begun link's present ports have begun. -/
theorem linkReadStatsReturnsCounters : Obligations.LinkReadStatsReturnsCounters := by
  intro p s ready
  rw [exec_linkReadStats_running ready.running, whenBegun_of ready.begun]
  split
  · rename_i present
    rw [whenPresent_of present, portReadStats, portOp_of_link ready present, Ran.finish_ok]
  · rename_i absent
    exact whenPresent_absent (by simpa using absent) _

end Sys2Proof.Machine
end

section
/-! LINK_BEGIN (42_link.md R124). -/

namespace Sys2Proof.Machine

/-- What PORT_BEGIN leaves at a position that has not begun, where the link begins it only if it is present. -/
def begunIfPresent (p : Port) (s : State) : State :=
  { s.setPort p (if (s.cfg.port p).present then
      { s.port p with begun := true, active := false, te := if (s.cfg.port p).hasTe then false else (s.port p).te }
      else s.port p) with
    events := s.events ++ (if (s.cfg.port p).present then
      .peripheralBegin p s.cfg.baud :: (if (s.cfg.port p).hasTe then [.teSet p false] else []) else []) }

theorem ifPresent_portBegin {p : Port} {s : State} (notBegun : (s.port p).begun = false) :
    ifPresent p s (portBegin p s) = .ok () (begunIfPresent p s) := by
  unfold ifPresent begunIfPresent
  split
  · rw [portBegin_starts ‹_› notBegun, List.append_assoc]; rfl
  · rw [List.append_nil]; cases p <;> rfl

theorem linkBeginOps_notBegun {s : State} (notBegun : ∀ p, (s.port p).begun = false) :
    linkBeginOps s = .ok () { begunIfPresent .socket (begunIfPresent .plug s) with linkBegun := true } := by
  unfold linkBeginOps
  have socketNotBegun : ((begunIfPresent .plug s).port .socket).begun = false := notBegun .socket
  rw [ifPresent_portBegin (notBegun .plug), Ran.bind_ok, ifPresent_portBegin socketNotBegun, Ran.bind_ok]

/-- Settles O43: the two begins, plug before socket, touch one position each, so every part of the state after them is read off
`begunIfPresent`. -/
theorem linkBeginBeginsPorts : Obligations.LinkBeginBeginsPorts := by
  intro s running idle
  rw [exec_linkBegin_running running, notReentrant_idle idle]
  refine ⟨fun linkNotBegun notBegun => ?_, fun begun => ?_⟩
  · rw [if_neg (by simp [linkNotBegun]), linkBeginOps_notBegun notBegun, Ran.finish_ok]
    exact ⟨_, rfl, rfl, running, fun p => by cases p <;> rfl, rfl, rfl⟩
  · rw [if_pos begun]; rfl

end Sys2Proof.Machine
end

section
/-! LINK_IDLE (42_link.md R135). -/

namespace Sys2Proof.Machine

/-- The state after the idle test of one position: the clock has been read there if it is present. -/
def idleRead (p : Port) (s : State) : State := if (s.cfg.port p).present then s.now.2 else s

/-- The idle test of one position at the clock read there. -/
def idleAnswer (p : Port) (s : State) : Bool :=
  !(s.cfg.port p).present || idleAt s p ((idleRead p s).time % 2 ^ s.cfg.clockWidth)

theorem idleRead_touches (p : Port) (s : State) : Touches p s (idleRead p s) := by
  unfold idleRead
  split
  · exact .now p s
  · exact .refl

theorem idleRead_eq (p : Port) (s : State) :
    idleRead p s = { s with time := (idleRead p s).time, draws := (idleRead p s).draws } := by
  unfold idleRead State.now
  split
  · split <;> rfl
  · rfl

theorem idleOrAbsent_ready {p : Port} {s : State} (h : LinkReady s) :
    idleOrAbsent p s = .ok (idleAnswer p s) (idleRead p s) := by
  unfold idleOrAbsent idleAnswer idleRead
  split
  · rename_i present
    rw [portIdle, portOp_of_link h present, s.now_word, present]; rfl
  · rename_i absent
    simp [absent]

theorem idleAnswer_iff (p : Port) (s : State) :
    idleAnswer p s = true ↔ ((s.cfg.port p).present = true → (s.port p).rx = [] ∧ (s.port p).toStamp = 0
      ∧ s.cfg.quietUs ≤ elapsed s.cfg.clockWidth (s.port p).lastAct ((idleRead p s).time % 2 ^ s.cfg.clockWidth)) := by
  unfold idleAnswer
  cases (s.cfg.port p).present <;> simp [idleAt_iff]

theorem idleRead_ready {s : State} (h : LinkReady s) (p : Port) : LinkReady (idleRead p s) := by
  unfold idleRead
  split
  · exact ⟨by simpa using h.running, by simpa using h.begun, by simpa using h.portsBegun⟩
  · exact h

theorem linkIdleOps_ready {s : State} (h : LinkReady s) :
    linkIdleOps s = .ok (idleAnswer .plug s && idleAnswer .socket (idleRead .plug s)) (idleRead .socket (idleRead .plug s)) := by
  unfold linkIdleOps
  rw [idleOrAbsent_ready h, Ran.bind_ok, idleOrAbsent_ready (idleRead_ready h .plug), Ran.bind_ok]

/-- Settles O48: the answers of the two positions, each at the clock its own test read; the plug's test leaves what the socket's
looks at. -/
theorem linkIdleIsConjunction : Obligations.LinkIdleIsConjunction := by
  intro s ready
  rw [exec_linkIdle_running ready.running, whenBegun_of ready.begun, linkIdleOps_ready ready, Ran.finish_ok]
  have plugRead := idleRead_touches .plug s
  have plugAnswer := idleAnswer_iff .plug s
  have plugEq := idleRead_eq .plug s
  generalize idleRead .plug s = u at *
  have socketRead := idleRead_touches .socket u
  have socketAnswer := idleAnswer_iff .socket u
  have socketEq := idleRead_eq .socket u
  generalize idleRead .socket u = t at *
  rw [plugRead.cfg, plugRead.other .socket (by decide)] at socketAnswer
  have bothEq : t = { s with time := t.time, draws := t.draws } := socketEq.trans (by rw [plugEq])
  refine ⟨_, _, fun | .plug => u.time | .socket => t.time, rfl, rfl, plugRead.time.1, socketRead.time.1, le_rfl,
    (plugRead.trans_time socketRead).2, ?_, by rw [bothEq]⟩
  rw [Bool.and_eq_true, plugAnswer, socketAnswer]
  exact ⟨fun ⟨hp, hs⟩ p => by cases p; exacts [hp, hs], fun h => ⟨h .plug, h .socket⟩⟩

end Sys2Proof.Machine
end

section
/-! LINK_SEND is PORT_SEND (42_link.md R136): no part of a send looks at who issues the command. -/

namespace Sys2Proof.Machine

variable {p : Port} {s : State}

section
variable (i : Issuer)

theorem State.port_withIssuer (p : Port) (s : State) : ({ s with issuer := i } : State).port p = s.port p := by
  cases p <;> rfl

theorem State.setPort_withIssuer (p : Port) (r : PortRegs) (s : State) :
    ({ s with issuer := i } : State).setPort p r = { s.setPort p r with issuer := i } := by
  cases p <;> rfl

theorem State.assertTe_withIssuer (p : Port) (s : State) :
    ({ s with issuer := i } : State).assertTe p = { s.assertTe p with issuer := i } := by
  unfold State.assertTe
  rw [State.port_withIssuer]
  split
  · rfl
  · rw [State.setActive_eq, State.setActive_eq, State.port_withIssuer, State.setPort_withIssuer]

theorem State.now_withIssuer (s : State) :
    ({ s with issuer := i } : State).now = (s.now.1, { s.now.2 with issuer := i }) := by
  unfold State.now
  cases held : s.held <;> simp only [held]

theorem sendActivity_withIssuer (p : Port) (s : State) :
    sendActivity p { s with issuer := i } = { sendActivity p s with issuer := i } := by
  unfold sendActivity
  rw [State.assertTe_withIssuer, State.now_withIssuer, State.port_withIssuer, State.setPort_withIssuer]

theorem sendWrite_withIssuer (p : Port) (a : Nib) (f : Frame) (s : State) :
    sendWrite p a f { s with issuer := i }
      = ⟨{ (sendWrite p a f s).state with issuer := i }, (sendWrite p a f s).val⟩ := by
  unfold sendWrite State.txSpace
  rw [State.port_withIssuer, State.setPort_withIssuer]
  dsimp only
  split <;> rfl

theorem sent_withIssuer (p : Port) (a : Nib) (f : Frame) (s : State) :
    sent p a f { s with issuer := i } = { sent p a f s with issuer := i } := by
  unfold sent
  rw [sendActivity_withIssuer, sendWrite_withIssuer]

end

variable {a : Nib} {f : Frame}

/-- What a send returns: whether the frame fits behind what TX holds, which the start of the send leaves as it is. -/
theorem sendWrite_val_room (p : Port) (a : Nib) (f : Frame) (s : State) :
    (sendWrite p a f (sendActivity p s)).val = some (decide ((s.port p).tx.length + 5 ≤ (s.cfg.port p).txCap)) := by
  have hcfg := (sendActivity_touches p s).cfg
  have hregs := sendActivity_port p s
  rcases sendWrite_cases p a f (sendActivity p s) with ⟨full, e⟩ | ⟨room, e⟩
  · rw [hcfg, hregs] at full
    rw [e, decide_eq_false (by simpa using full)]; rfl
  · rw [hcfg, hregs] at room
    rw [e, decide_eq_true room]; rfl

theorem exec_linkSend_sent (ready : LinkReady s) (present : (s.cfg.port p).present = true) :
    exec (.linkSend p a f) s
      = .next { sent p a f s with result := .flag (decide ((s.port p).tx.length + 5 ≤ (s.cfg.port p).txCap)) } := by
  rw [exec_linkSend_running ready.running, whenBegun_of ready.begun, whenPresent_of present, portSend_ready ready present,
    Ran.finish, sendWrite_val_room]
  rfl

/-- Settles O49: both commands leave `sent`, which does not look at the issuer, and answer with the same test of room. -/
theorem linkSendIsPortSend : Obligations.LinkSendIsPortSend := by
  intro p a f s ready
  refine ⟨fun present => ?_, fun absent => ?_⟩
  · have portReady : PortReady { s with issuer := .sequencer } p :=
      ⟨ready.running, rfl, present, by rw [State.port_withIssuer]; exact ready.portsBegun p present⟩
    refine ⟨_, exec_linkSend_sent ready present, ?_, (sent_touches p a f s).issuer, by simp, by simp⟩
    rw [exec_portSend_sent portReady, sent_withIssuer, State.port_withIssuer]
  · rw [exec_linkSend_running ready.running, whenBegun_of ready.begun]
    exact whenPresent_absent absent _

end Sys2Proof.Machine
end

section
/-! The address nibbles the router rewrites (42_link.md R127, R130). -/

namespace Sys2Proof.Machine

theorem downAddress_of_pos {a : Nib} (h : 0 < a.toNat) : ∃ b, downAddress a = some b ∧ b.toNat = a.toNat - 1 := by
  revert a; decide

theorem downAddress_of_zero {a : Nib} (h : a.toNat = 0) : downAddress a = none := by
  revert a; decide

theorem upAddress_of_lt {a : Nib} (h : a.toNat < 15) : ∃ b, upAddress a = some b ∧ b.toNat = a.toNat + 1 := by
  revert a; decide

theorem upAddress_of_max {a : Nib} (h : a.toNat = 15) : upAddress a = none := by
  revert a; decide

end Sys2Proof.Machine
end

section
/-! The steps of a quiet poll cycle, each as the state it hands on (42_link.md R125 to R132). -/

namespace Sys2Proof.Machine

variable {n : Nat} {f : Frame} {s : State}

/-- A forward as the router issues it: a send with the address that goes on, if any does, at a present position (R127, R130). -/
def forwarded (p : Port) (next : Option Nib) (f : Frame) (s : State) : State :=
  match next with
  | some a => if (s.cfg.port p).present then sent p a f s else s
  | none => s

theorem forwarded_none (p : Port) (f : Frame) (s : State) : forwarded p none f s = s := rfl

theorem forwarded_absent {p : Port} (absent : (s.cfg.port p).present = false) (next : Option Nib) :
    forwarded p next f s = s := by
  cases next with
  | none => rfl
  | some a => exact if_neg (by simp [absent])

theorem forwarded_some {p : Port} (present : (s.cfg.port p).present = true) (a : Nib) :
    forwarded p (some a) f s = sent p a f s := if_pos present

theorem forwarded_touches (p : Port) (next : Option Nib) (f : Frame) (s : State) : Touches p s (forwarded p next f s) := by
  unfold forwarded
  split
  · split
    · exact sent_touches p _ f s
    · exact .refl
  · exact .refl

/-- PORT_RECEIVE at a present position, nothing at an absent one. -/
def polled (p : Port) (s : State) : State := if (s.cfg.port p).present then (receiveStep p s).state else s

theorem polled_touches (p : Port) (s : State) : Touches p s (polled p s) := by
  unfold polled
  split
  · exact receiveStep_touches p s
  · exact .refl

theorem polled_events (p : Port) (s : State) : (polled p s).events = s.events := by
  unfold polled
  split
  · exact receiveStep_events p s
  · rfl

theorem polled_port (p : Port) (s : State) :
    (polled p s).port p = { s.port p with
      rx := ((polled p s).port p).rx, toStamp := ((polled p s).port p).toStamp,
      inCount := ((polled p s).port p).inCount, lastAct := ((polled p s).port p).lastAct } := by
  unfold polled
  split
  · exact receiveStep_port p s
  · rfl

/-- S1 with no frame to take: the poll of the plug, then S2 (R126). -/
theorem cycleS1_frameless (ready : CycleReady s) (short : s.cfg.plug.present = true → s.plug.rx.length < 5) :
    cycleS1 (gap n) s = cycleS2 (gap n) (polled .plug s) := by
  unfold polled
  split
  · exact cycleS1_none ready ‹_› (short ‹_›)
  · rename_i absent
    exact cycleS1_absent (by simpa using absent)

/-- S2 with no frame to take: the poll of the socket, then S3 (R129). -/
theorem cycleS2_frameless (ready : CycleReady s) (short : s.cfg.socket.present = true → s.socket.rx.length < 5) :
    cycleS2 (gap n) s = cycleS3 (gap n) (polled .socket s) := by
  unfold polled
  split
  · exact cycleS2_none ready ‹_› (short ‹_›)
  · rename_i absent
    exact cycleS2_absent (by simpa using absent)

/-- R127: a plug frame that goes on is forwarded, if at all, and S2 follows. -/
theorem routePlugFrame_down (ready : CycleReady s) {a : Nib} (down : downAddress (addressNibble f) = some a) :
    routePlugFrame (gap n) f s = cycleS2 (gap n) (forwarded .socket (some a) f s) := by
  unfold routePlugFrame
  rw [down]
  dsimp only
  split
  · rename_i present
    rw [forwarded_some (p := .socket) present]
    exact forward_quiet (p := .socket) ready present a f _
  · rename_i absent
    rw [forwarded_absent (p := .socket) (by simpa using absent)]

/-- R130 and R131: a socket frame is forwarded, if it goes on, and then dispatched. -/
theorem routeSocketFrame_dispatches (ready : CycleReady s) :
    routeSocketFrame (gap n) f s
      = dispatch .socket f .waitSocket (forwarded .plug (upAddress (addressNibble f)) f s) := by
  unfold routeSocketFrame
  cases next : upAddress (addressNibble f) with
  | none => cases s.cfg.plug.present <;> rfl
  | some a =>
    cases present : s.cfg.plug.present with
    | false => rw [forwarded_absent (p := .plug) present]
    | true => rw [forwarded_some (p := .plug) present]; exact forward_quiet (p := .plug) ready present a f _

end Sys2Proof.Machine
end

section
/-! S1 with a frame for this device (42_link.md R128). -/

namespace Sys2Proof.Machine

theorem exec_linkLoop_ready {s : State} (ready : CycleReady s) (idle : s.phase = .idle) :
    exec .linkLoop s = cycleS1 (gap s.gaps.length) s := execLinkLoop_ready ready idle

/-- Settles O45: S1 takes the frame, and address 0 has no next address downward. -/
theorem plugFrameForThisDevice : Obligations.PlugFrameForThisDevice := by
  intro s f rest ready idle present hrx zero
  have here : downAddress (addressNibble f) = none := downAddress_of_zero (by rw [addressNibble_toNat, zero])
  rw [exec_linkLoop_ready ready idle, cycleS1_some ready present hrx, routePlugFrame, here,
    receiveStep_frame (p := .plug) hrx, ← s.now_events]
  rfl

end Sys2Proof.Machine
end

section
/-! S3 (42_link.md R132). -/

namespace Sys2Proof.Machine

variable {n : Nat}

theorem State.now_eq (s : State) : s.now.2 = { s with time := s.now.2.time, draws := s.now.2.draws } := by
  unfold State.now
  split <;> rfl

/-- S3 makes position `p` passive: it is present and active, and POWERDOWN_US have elapsed at the clock read there (R118). -/
def turnsOff (p : Port) (s : State) : Bool :=
  (s.cfg.port p).present && (s.port p).active
    && decide (s.cfg.powerdownUs ≤ elapsed s.cfg.clockWidth (s.port p).lastAct s.now.1)

/-- The three ends of a power-down in S3: the port became passive, or only the clock was read, or no clock was read. -/
theorem maintained_cases (p : Port) (s : State) :
    (turnsOff p s = true ∧ maintained p s = s.now.2.setActive p false)
      ∨ (turnsOff p s = false ∧ maintained p s = s.now.2)
      ∨ (((s.cfg.port p).present && (s.port p).active) = false ∧ maintained p s = s) := by
  unfold turnsOff maintained
  cases present : (s.cfg.port p).present
  case false => exact .inr (.inr ⟨rfl, rfl⟩)
  cases active : (s.port p).active
  case false => rw [powerDownStep_passive active]; exact .inr (.inr ⟨rfl, rfl⟩)
  rcases Nat.lt_or_ge (elapsed s.cfg.clockWidth (s.port p).lastAct s.now.1) s.cfg.powerdownUs with early | late
  · rw [powerDownStep_waits active early]
    exact .inr (.inl ⟨by simpa using early, rfl⟩)
  · rw [powerDownStep_deasserts active late]
    exact .inl ⟨by simpa using late, rfl⟩

/-- Where the clock was read it shows the time S3 leaves the position at. -/
theorem turnsOff_iff (p : Port) (s : State) :
    turnsOff p s = true ↔ (s.cfg.port p).present = true ∧ (s.port p).active = true
      ∧ s.cfg.powerdownUs
          ≤ elapsed s.cfg.clockWidth (s.port p).lastAct ((maintained p s).time % 2 ^ s.cfg.clockWidth) := by
  have read : ((s.cfg.port p).present && (s.port p).active) = true → s.now.1 = (maintained p s).time % 2 ^ s.cfg.clockWidth := by
    intro reads
    rw [s.now_word]
    rcases maintained_cases p s with ⟨-, e⟩ | ⟨-, e⟩ | ⟨none, -⟩
    · rw [e, State.setActive_time]
    · rw [e]
    · rw [none] at reads; cases reads
  unfold turnsOff
  rw [Bool.and_eq_true, decide_eq_true_iff, ← and_assoc, ← Bool.and_eq_true]
  exact and_congr_right fun reads => by rw [read reads]

/-- All that S3 changes at a position: ACTIVE, TE, the event, and the clock it read. -/
theorem maintained_eq (p : Port) (s : State) :
    maintained p s = { s.setPort p { s.port p with
        active := (s.port p).active && !turnsOff p s
        te := if turnsOff p s && (s.cfg.port p).hasTe then false else (s.port p).te } with
      events := s.events ++ (if turnsOff p s && (s.cfg.port p).hasTe then [.teSet p false] else [])
      time := (maintained p s).time
      draws := (maintained p s).draws } := by
  rcases maintained_cases p s with ⟨off, e⟩ | ⟨stays, e⟩ | ⟨none, e⟩
  · rw [e, off, State.setActive_eq, State.now_port, State.now_cfg, State.now_events]
    rw [Bool.not_true, Bool.and_false]
    conv_lhs => rw [s.now_eq]
    cases p <;> rfl
  · rw [e, stays]
    conv_lhs => rw [s.now_eq]
    cases p <;> simp [State.setPort]
  · have stays : turnsOff p s = false := by rw [turnsOff, none]; rfl
    rw [e, stays]
    cases p <;> simp [State.setPort]

/-- What S3 does from `s` to `t`: `T p` is the time at which position `p` reads the clock, and `off p` that it becomes passive. -/
structure PowersDown (s t : State) (T : Port → Nat) (off : Port → Bool) : Prop where
  reads : s.time ≤ T .plug ∧ T .plug ≤ T .socket ∧ T .socket ≤ t.time
  held : s.held = true → t.time = s.time
  off_iff : ∀ p, off p = true ↔ (s.cfg.port p).present = true ∧ (s.port p).active = true
    ∧ s.cfg.powerdownUs ≤ elapsed s.cfg.clockWidth (s.port p).lastAct (T p % 2 ^ s.cfg.clockWidth)
  port : ∀ p, t.port p = { s.port p with
    active := (s.port p).active && !off p
    te := if off p && (s.cfg.port p).hasTe then false else (s.port p).te }
  events : t.events = s.events ++ (if off .plug && s.cfg.plug.hasTe then [.teSet .plug false] else [])
    ++ (if off .socket && s.cfg.socket.hasTe then [.teSet .socket false] else [])
  rest : t = { s with
    plug := t.plug, socket := t.socket, phase := .idle, events := t.events, time := t.time, draws := t.draws, result := .unit }

theorem PowersDown.lastAct {s t : State} {T : Port → Nat} {off : Port → Bool} (h : PowersDown s t T off) (p : Port) :
    (t.port p).lastAct = (s.port p).lastAct := by rw [h.port]

theorem cycleS3_powersDown {s : State} (ready : CycleReady s) :
    ∃ t T off, cycleS3 (gap n) s = .next t ∧ PowersDown s t T off := by
  rw [cycleS3_quiet ready]
  have plugTouches := maintained_touches .plug s
  have plugOff := turnsOff_iff .plug s
  have plugEq := maintained_eq .plug s
  generalize maintained .plug s = u at *
  have socketTouches := maintained_touches .socket u
  have socketOff := turnsOff_iff .socket u
  have socketEq := maintained_eq .socket u
  generalize maintained .socket u = v at *
  rw [plugTouches.cfg, plugTouches.other .socket (by decide)] at socketOff
  have reads := And.intro plugTouches.time.1 (And.intro socketTouches.time.1 (le_refl v.time))
  have held := (plugTouches.trans_time socketTouches).2
  generalize turnsOff .socket u = socketIsOff at *
  generalize u.time = T1, u.draws = n1 at *
  subst plugEq
  generalize v.time = T2, v.draws = n2 at *
  subst socketEq
  refine ⟨_, fun | .plug => T1 | .socket => T2, fun | .plug => turnsOff .plug s | .socket => socketIsOff, rfl, reads, held,
    fun | .plug => plugOff | .socket => socketOff, fun | .plug => rfl | .socket => rfl, rfl, rfl⟩

end Sys2Proof.Machine
end

section
/-! What a forward and the poll before S2 leave, position by position (42_link.md R127, R130, R138). -/

namespace Sys2Proof.Machine

variable {p : Port} {f : Frame} {s : State}

/-- A send with room queues the frame with the new address and its own type, and counts it (R117). -/
theorem sent_queues (a : Nib) (f : Frame) (room : (s.port p).tx.length + 5 ≤ (s.cfg.port p).txCap) :
    ∃ h : Byte, h.toNat = a.toNat * 16 + f.b0.toNat % 16
      ∧ ((sent p a f s).port p).tx = (s.port p).tx ++ [h, f.b1, f.b2, f.b3, f.b4]
      ∧ ((sent p a f s).port p).outCount = ((s.port p).outCount + 1) % 2 ^ s.cfg.counterWidth := by
  rw [sent_room room]
  exact ⟨headerByte a (typeNibble f), by rw [headerByte_toNat, typeNibble_toNat], rfl, rfl⟩

/-- A forward without an address to go on with, without the position or without room there is lost (R138). -/
theorem forwarded_lost {next : Option Nib}
    (lost : (s.cfg.port p).present = false ∨ next = none ∨ (s.cfg.port p).txCap < (s.port p).tx.length + 5) :
    ((forwarded p next f s).port p).tx = (s.port p).tx ∧ ((forwarded p next f s).port p).outCount = (s.port p).outCount := by
  rcases lost with absent | rfl | full
  · rw [forwarded_absent absent]; exact ⟨rfl, rfl⟩
  · exact ⟨rfl, rfl⟩
  · unfold forwarded
    split
    · split
      · rw [sent_full full, sendActivity_port]; exact ⟨rfl, rfl⟩
      · exact ⟨rfl, rfl⟩
    · exact ⟨rfl, rfl⟩

/-- A forward writes what a send writes (R42), and leaves RX alone. -/
theorem forwarded_port (p : Port) (next : Option Nib) (f : Frame) (s : State) :
    (forwarded p next f s).port p = { s.port p with
      active := ((forwarded p next f s).port p).active
      te := ((forwarded p next f s).port p).te
      lastAct := ((forwarded p next f s).port p).lastAct
      tx := ((forwarded p next f s).port p).tx
      outCount := ((forwarded p next f s).port p).outCount } := by
  unfold forwarded
  split
  · split
    · rw [(sent_port p _ f s).1]
    · rfl
  · rfl

/-- A forward that is sent raises TE of a passive position with a pin (R115). -/
theorem forwarded_some_events (p : Port) (a : Nib) (f : Frame) (s : State) :
    (forwarded p (some a) f s).events = s.events
      ++ (if (s.cfg.port p).present && (s.cfg.port p).hasTe && !(s.port p).active then [.teSet p true] else []) := by
  cases present : (s.cfg.port p).present
  · simp [forwarded_absent present]
  · rw [forwarded_some present, sent_events]
    cases (s.port p).active <;> simp

theorem forwarded_events (p : Port) (next : Option Nib) (f : Frame) (s : State) :
    ∃ es, (forwarded p next f s).events = s.events ++ es ∧ ∀ q, es.all (fun e => !e.dispatches q) = true := by
  cases next with
  | none => exact ⟨[], by simp [forwarded_none], fun _ => rfl⟩
  | some a =>
    refine ⟨_, forwarded_some_events p a f s, fun q => ?_⟩
    split <;> rfl

/-- What S2 finds as the cycle's line left it: the plug's TX and the socket's RX with their counters, and no dispatch since. -/
structure EntersS2 (s v : State) : Prop where
  ready : CycleReady v
  cfg : v.cfg = s.cfg
  plugTx : v.plug.tx = s.plug.tx
  plugOut : v.plug.outCount = s.plug.outCount
  socketRx : v.socket.rx = s.socket.rx
  socketIn : v.socket.inCount = s.socket.inCount
  events : ∃ es, v.events = s.events ++ es ∧ ∀ p, es.all (fun e => !e.dispatches p) = true

theorem EntersS2.refl (ready : CycleReady s) : EntersS2 s s :=
  ⟨ready, rfl, rfl, rfl, rfl, rfl, [], by simp, fun _ => rfl⟩

/-- S1 polls the plug and forwards down what goes on. -/
theorem EntersS2.afterS1 (ready : CycleReady s) (next : Option Nib) (f : Frame) :
    EntersS2 s (forwarded .socket next f (polled .plug s)) := by
  have pollTouches := polled_touches .plug s
  have pollPort := polled_port .plug s
  have pollEvents := polled_events .plug s
  generalize polled .plug s = u at *
  have sendTouches := forwarded_touches .socket next f u
  have sendPort := forwarded_port .socket next f u
  have sendEvents := forwarded_events .socket next f u
  generalize forwarded .socket next f u = v at *
  rw [pollEvents] at sendEvents
  have plugEq : v.plug = u.plug := sendTouches.other .plug (by decide)
  have socketEq : u.socket = s.socket := pollTouches.other .socket (by decide)
  simp only [State.port_plug, State.port_socket] at pollPort sendPort
  rw [socketEq] at sendPort
  exact ⟨(ready.touch pollTouches).touch sendTouches, sendTouches.cfg.trans pollTouches.cfg, by rw [plugEq, pollPort],
    by rw [plugEq, pollPort], by rw [sendPort], by rw [sendPort], sendEvents⟩

/-- S1 with a plug frame that goes on: it is taken, forwarded down if there is a socket, and S2 follows (R127). -/
theorem cycleS1_forwardsDown {n : Nat} (ready : CycleReady s) (present : s.cfg.plug.present = true) {rest : List Byte}
    (hrx : s.plug.rx = frameBytes f ++ rest) {a : Nib} (down : downAddress (addressNibble f) = some a) :
    cycleS1 (gap n) s = cycleS2 (gap n) (forwarded .socket (some a) f (polled .plug s)) := by
  rw [cycleS1_some ready present hrx, routePlugFrame_down (ready.touch (receiveStep_touches .plug s)) down, polled,
    if_pos (show (s.cfg.port .plug).present = true from present)]

/-- S2 with a frame at the socket: it is taken, forwarded up if it goes on and there is a plug, and dispatched (R130, R131). -/
theorem cycleS2_dispatches {n : Nat} (ready : CycleReady s) (present : s.cfg.socket.present = true) {rest : List Byte}
    (hrx : s.socket.rx = frameBytes f ++ rest) :
    cycleS2 (gap n) s = dispatch .socket f .waitSocket
      (forwarded .plug (upAddress (addressNibble f)) f (polled .socket s)) := by
  rw [cycleS2_some ready present hrx, routeSocketFrame_dispatches (ready.touch (receiveStep_touches .socket s)), polled,
    if_pos (show (s.cfg.port .socket).present = true from present)]

/-- A poll that takes a frame. -/
theorem polled_frame (present : (s.cfg.port p).present = true) {rest : List Byte} (hrx : (s.port p).rx = frameBytes f ++ rest) :
    ((polled p s).port p).rx = rest
      ∧ ((polled p s).port p).inCount = ((s.port p).inCount + 1) % 2 ^ s.cfg.counterWidth := by
  rw [polled, if_pos present, receiveStep_frame hrx]
  simp [Ran.ok, State.countUp]

end Sys2Proof.Machine
end

section
/-! S2 with a frame at the socket (42_link.md R130, R131). -/

namespace Sys2Proof.Machine

/-- Every way to a frame at the socket comes to S2 (R125, R127, R133). -/
theorem cycle_entersS2 {i : Instr} {s : State} (ready : CycleReady s)
    (way : i = .linkLoop ∧ s.phase = .idle
        ∧ (s.cfg.plug.present = true → s.plug.rx.length < 5 ∨ ∃ b bs, s.plug.rx = b :: bs ∧ 0 < b.toNat / 16)
      ∨ i = .linkHandlerDone ∧ s.phase = .waitPlug) :
    ∃ v, exec i s = cycleS2 (gap s.gaps.length) v ∧ EntersS2 s v := by
  rcases way with ⟨rfl, idle, plug⟩ | ⟨rfl, waiting⟩
  · rw [exec_linkLoop_ready ready idle]
    by_cases frame : s.cfg.plug.present = true ∧ ¬ s.plug.rx.length < 5
    · obtain ⟨present, long⟩ := frame
      obtain ⟨b, bs, hb, pos⟩ := (plug present).resolve_left long
      obtain ⟨f, rest, hrx⟩ := (frame_or_short s.plug.rx).resolve_left long
      obtain rfl : b = f.b0 := (List.cons.inj (hb.symm.trans hrx)).1
      obtain ⟨a, down, -⟩ := downAddress_of_pos (a := addressNibble f) (by rwa [addressNibble_toNat])
      exact ⟨_, cycleS1_forwardsDown ready present hrx down, .afterS1 ready _ _⟩
    · have short : s.cfg.plug.present = true → s.plug.rx.length < 5 := fun present =>
        not_not.mp fun long => frame ⟨present, long⟩
      exact ⟨_, cycleS1_frameless ready short, .afterS1 ready none default⟩
  · exact ⟨s, execLinkHandlerDone_plug ready waiting, .refl ready⟩

/-- R130: below 15 a present plug is sent the frame with the next address up. -/
theorem forwarded_up {f : Frame} {s : State} (present : s.cfg.plug.present = true) (below : f.b0.toNat / 16 < 15) :
    ∃ a : Nib, a.toNat = f.b0.toNat / 16 + 1
      ∧ forwarded .plug (upAddress (addressNibble f)) f s = sent .plug a f s := by
  obtain ⟨a, up, ha⟩ := upAddress_of_lt (a := addressNibble f) (by rwa [addressNibble_toNat])
  rw [addressNibble_toNat] at ha
  exact ⟨a, ha, by rw [up]; exact forwarded_some (p := .plug) present a⟩

/-- Settles O46: by `cycle_entersS2` every way leads to S2, which takes the frame, forwards it up and dispatches it. -/
theorem socketFrameForwardsUpAndDispatches : Obligations.SocketFrameForwardsUpAndDispatches := by
  intro i s f rest ready present way hrx
  obtain ⟨v, hexec, readyV, cfgV, plugTx, plugOut, socketRx, socketIn, es, eventsV, quietV⟩ := cycle_entersS2 ready way
  rw [← cfgV] at present
  rw [hexec, cycleS2_dispatches readyV present (socketRx.trans hrx)]
  obtain ⟨taken, counted⟩ := polled_frame (p := .socket) present (socketRx.trans hrx)
  have pollTouches := polled_touches .socket v
  have pollEvents := polled_events .socket v
  generalize polled .socket v = u at *
  have plugEq : u.plug = v.plug := pollTouches.other .plug (by decide)
  have sendTouches := forwarded_touches .plug (upAddress (addressNibble f)) f u
  have socketEq : (forwarded .plug (upAddress (addressNibble f)) f u).socket = u.socket := sendTouches.other .socket (by decide)
  obtain ⟨es', sendEvents, quietU⟩ := forwarded_events .plug (upAddress (addressNibble f)) f u
  rw [← plugTx, ← plugOut, ← plugEq, ← socketIn, ← cfgV, ← pollTouches.cfg]
  refine ⟨_, rfl, ?faults, (congrArg PortRegs.rx socketEq).trans taken, (congrArg PortRegs.inCount socketEq).trans ?counted, rfl,
    rfl, rfl, ⟨es ++ es', ?events, ?quiet⟩, fun plug below room => ?queued, fun plug below => ?stamped, fun lost => ?lost⟩
  case faults => exact sendTouches.faults.trans (pollTouches.faults.trans readyV.link.running)
  case counted => rw [pollTouches.cfg]; exact counted
  case events =>
    exact congrArg (· ++ [Event.dispatch .socket f]) (by rw [sendEvents, pollEvents, eventsV, List.append_assoc])
  case quiet => rw [List.all_append, quietV, quietU]; rfl
  case queued =>
    obtain ⟨a, ha, e⟩ := forwarded_up (f := f) plug below
    rw [e, ← ha]
    exact sent_queues (p := .plug) a f room
  case stamped =>
    obtain ⟨a, -, e⟩ := forwarded_up (f := f) plug below
    rw [e]
    exact ⟨congrArg PortRegs.active (sent_port .plug a f u).1, sent_lastAct .plug a f u⟩
  case lost =>
    refine forwarded_lost (p := .plug) (lost.imp_right (.imp_left fun max => ?_))
    exact upAddress_of_max (by rw [addressNibble_toNat, max])

end Sys2Proof.Machine
end

section
/-! S1 with a plug frame that goes on, and the cycle after it (42_link.md R127, R132). -/

namespace Sys2Proof.Machine

/-- What S3 finds of `s` after a forward down and a poll of the socket that takes no frame. -/
structure EntersS3 (s w : State) : Prop where
  ready : CycleReady w
  cfg : w.cfg = s.cfg
  dispSrc : w.dispSrc = s.dispSrc
  dispFrame : w.dispFrame = s.dispFrame
  held : w.held = s.held
  time : s.time ≤ w.time ∧ (s.held = true → w.time = s.time)
  plugActive : w.plug.active = s.plug.active
  plugTe : w.plug.te = s.plug.te
  socketActive : s.cfg.socket.present = true → w.socket.active = true
  socketTe : s.cfg.socket.present = true →
    w.socket.te = if s.cfg.socket.hasTe && !s.socket.active then true else s.socket.te
  events : w.events = s.events
    ++ (if s.cfg.socket.present && s.cfg.socket.hasTe && !s.socket.active then [.teSet .socket true] else [])

theorem EntersS3.afterForward {s : State} (ready : CycleReady s) (a : Nib) (f : Frame) :
    EntersS3 s (polled .socket (forwarded .socket (some a) f (polled .plug s))) := by
  have plugTouches := polled_touches .plug s
  have plugPort := polled_port .plug s
  have plugEvents := polled_events .plug s
  generalize polled .plug s = u at *
  have socketEq : u.socket = s.socket := plugTouches.other .socket (by decide)
  have sendTouches := forwarded_touches .socket (some a) f u
  have sendEvents := forwarded_some_events .socket a f u
  rw [plugEvents, plugTouches.cfg, plugTouches.other .socket (by decide)] at sendEvents
  have sendPort : s.cfg.socket.present = true → (forwarded .socket (some a) f u).socket.active = true
      ∧ (forwarded .socket (some a) f u).socket.te = if s.cfg.socket.hasTe && !s.socket.active then true else s.socket.te := by
    intro present
    rw [← plugTouches.cfg] at present
    rw [forwarded_some (p := .socket) present]
    refine ⟨congrArg PortRegs.active (sent_port .socket a f u).1, (sent_te .socket a f u).trans ?_⟩
    rw [State.port_socket, socketEq, plugTouches.cfg, Config_port_socket]
    cases s.socket.active <;> simp
  generalize forwarded .socket (some a) f u = v at *
  have socketTouches := polled_touches .socket v
  have socketPort := polled_port .socket v
  have socketEvents := polled_events .socket v
  generalize polled .socket v = w at *
  have plugEq : w.plug = u.plug :=
    (socketTouches.other .plug (by decide)).trans (sendTouches.other .plug (by decide))
  have touches := sendTouches.trans socketTouches
  simp only [State.port_plug, State.port_socket] at plugPort socketPort
  exact {
    ready := (ready.touch plugTouches).touch touches
    cfg := touches.cfg.trans plugTouches.cfg
    dispSrc := touches.dispSrc.trans plugTouches.dispSrc
    dispFrame := touches.dispFrame.trans plugTouches.dispFrame
    held := touches.held.trans plugTouches.held
    time := plugTouches.trans_time touches
    plugActive := by rw [plugEq, plugPort]
    plugTe := by rw [plugEq, plugPort]
    socketActive := fun present => by rw [socketPort]; exact (sendPort present).1
    socketTe := fun present => by rw [socketPort]; exact (sendPort present).2
    events := socketEvents.trans sendEvents }

section
variable {s w t : State} {T : Port → Nat} {off : Port → Bool} (enters : EntersS3 s w) (down : PowersDown w t T off)
include enters down

/-- S3 compares the plug's LAST_ACT of this cycle. -/
theorem EntersS3.plugOff_iff (present : s.cfg.plug.present = true) :
    off .plug = true ↔ s.plug.active = true
      ∧ s.cfg.powerdownUs ≤ elapsed s.cfg.clockWidth t.plug.lastAct (T .plug % 2 ^ s.cfg.clockWidth) := by
  have lastAct : t.plug.lastAct = w.plug.lastAct := down.lastAct .plug
  have off_iff := down.off_iff .plug
  rw [enters.cfg, State.port_plug, enters.plugActive, ← lastAct] at off_iff
  exact off_iff.trans (and_iff_right present)

/-- A present socket is active here, so S3 compares its LAST_ACT in any case. -/
theorem EntersS3.socketOff_iff :
    off .socket = true ↔ s.cfg.socket.present = true
      ∧ s.cfg.powerdownUs ≤ elapsed s.cfg.clockWidth t.socket.lastAct (T .socket % 2 ^ s.cfg.clockWidth) := by
  have lastAct : t.socket.lastAct = w.socket.lastAct := down.lastAct .socket
  have off_iff := down.off_iff .socket
  rw [enters.cfg, State.port_socket, ← lastAct] at off_iff
  exact off_iff.trans (and_congr_right fun present => and_iff_right (enters.socketActive present))

theorem EntersS3.plug_after : t.plug.active = (s.plug.active && !off .plug)
    ∧ t.plug.te = (if off .plug && s.cfg.plug.hasTe then false else s.plug.te) := by
  rw [← enters.plugActive, ← enters.plugTe, ← enters.cfg]
  exact ⟨congrArg PortRegs.active (down.port .plug), congrArg PortRegs.te (down.port .plug)⟩

theorem EntersS3.socket_after (present : s.cfg.socket.present = true) : t.socket.active = !off .socket
    ∧ t.socket.te = (if s.cfg.socket.hasTe && off .socket then false
        else if s.cfg.socket.hasTe && !s.socket.active then true else s.socket.te) := by
  have active : t.socket.active = (w.socket.active && !off .socket) := congrArg PortRegs.active (down.port .socket)
  have te : t.socket.te = (if off .socket && w.cfg.socket.hasTe then false else w.socket.te) :=
    congrArg PortRegs.te (down.port .socket)
  rw [active, te, enters.socketActive present, enters.socketTe present, enters.cfg, Bool.true_and, Bool.and_comm]
  exact ⟨rfl, rfl⟩

/-- The events of the forward come before those of S3. -/
theorem EntersS3.events_after : t.events = s.events
    ++ (if s.cfg.socket.present && s.cfg.socket.hasTe && !s.socket.active then [.teSet .socket true] else [])
    ++ (if off .plug && s.cfg.plug.hasTe then [.teSet .plug false] else [])
    ++ (if off .socket && s.cfg.socket.hasTe then [.teSet .socket false] else []) := by
  rw [down.events, enters.events, enters.cfg]

end

/-- Settles O44: S1 takes the frame and forwards it, S2 and S3 leave what was sent (`cycleS2_after`), and with no frame at the
socket S3 is `PowersDown` from the state `EntersS3` describes. -/
theorem plugFrameForwardsDown : Obligations.PlugFrameForwardsDown := by
  intro s f rest ready idle present hrx pos
  obtain ⟨a, down, ha⟩ := downAddress_of_pos (a := addressNibble f) (by rwa [addressNibble_toNat])
  rw [addressNibble_toNat] at ha
  rw [exec_linkLoop_ready ready idle, cycleS1_forwardsDown ready present hrx down]
  have entersS3 := EntersS3.afterForward ready a f
  obtain ⟨readyV, cfgV, -, -, socketRx, -, es, sendEvents, quiet⟩ := EntersS2.afterS1 ready (some a) f
  obtain ⟨taken, counted⟩ := polled_frame (p := .plug) present hrx
  have plugTouches := polled_touches .plug s
  generalize polled .plug s = u at *
  have socketEq : u.socket = s.socket := plugTouches.other .socket (by decide)
  have sendTouches := forwarded_touches .socket (some a) f u
  have plugEq : (forwarded .socket (some a) f u).plug = u.plug := sendTouches.other .plug (by decide)
  obtain ⟨t, ht, after⟩ := cycleS2_after (n := s.gaps.length) readyV
  obtain ⟨es', afterEvents, quiet'⟩ := after.events
  have socketTx := congrArg PortRegs.tx after.socket
  have socketOut := congrArg PortRegs.outCount after.socket
  refine ⟨t, ht, after.ready.link.running, ?rx, ?inCount, ⟨es ++ es', ?events, ?quiet⟩, fun socket room => ?queued,
    fun socket full => ?full, fun socket => ?stamped, fun absent => ?absent, fun short => ?powerDown⟩
  case rx => rw [after.plug]; exact (congrArg PortRegs.rx plugEq).trans taken
  case inCount => rw [after.plug]; exact (congrArg PortRegs.inCount plugEq).trans counted
  case events => rw [afterEvents, sendEvents, List.append_assoc]
  case quiet => rw [List.all_append, quiet, quiet']; rfl
  case queued =>
    rw [socketTx, socketOut, ← ha, ← socketEq, ← plugTouches.cfg]
    rw [← plugTouches.cfg] at socket
    rw [forwarded_some (p := .socket) socket]
    exact sent_queues (p := .socket) a f (by rwa [State.port_socket, socketEq, plugTouches.cfg])
  case full =>
    rw [socketTx, socketOut, ← socketEq]
    refine forwarded_lost (p := .socket) (.inr (.inr ?_))
    rwa [State.port_socket, socketEq, plugTouches.cfg]
  case stamped =>
    rw [← plugTouches.cfg] at socket
    have stamp : ReadWithin u t t.socket.lastAct := by
      rw [forwarded_some (p := .socket) socket] at after sendTouches
      rcases after.socketAct with kept | read
      · exact kept ▸ .at_mid sendTouches after.time.1 (sent_lastAct .socket a f u)
      · exact .after sendTouches read
    exact ReadWithin.after plugTouches stamp
  case absent =>
    have absentU : u.cfg.socket.present = false := by rw [plugTouches.cfg]; exact absent
    rw [after.absentSocket (by rwa [cfgV]), forwarded_absent (p := .socket) absentU, socketEq]
  case powerDown =>
    rw [cycleS2_frameless readyV (by rwa [socketRx, cfgV])] at ht
    obtain ⟨t', T, off, ht', powers⟩ := cycleS3_powersDown (n := s.gaps.length) entersS3.ready
    obtain rfl : t' = t := by injection ht'.symm.trans ht
    have plugAfter := entersS3.plug_after powers
    obtain ⟨plugRead, socketRead, lastRead⟩ := powers.reads
    exact ⟨congrArg State.phase powers.rest, (congrArg State.dispSrc powers.rest).trans entersS3.dispSrc,
      (congrArg State.dispFrame powers.rest).trans entersS3.dispFrame, T, off, entersS3.time.1.trans plugRead, socketRead, lastRead,
      fun h => (powers.held (entersS3.held.trans h)).trans (entersS3.time.2 h), entersS3.plugOff_iff powers present,
      entersS3.socketOff_iff powers, plugAfter.1, plugAfter.2, entersS3.socket_after powers, entersS3.events_after powers⟩

end Sys2Proof.Machine
end

section
/-! A block whose FAULTS is not empty (60_exceptions.md R147). -/

namespace Sys2Proof.Machine

/-- PORT commands look at the issuer first (R79, R148); both its branches run behind R147's check. -/
theorem portCommand_guarded (op : Byte) (s : State) (k : Step) : ∃ k', portCommand op s k = whenRunning s k' := by
  unfold portCommand
  cases s.issuer with
  | host => exact ⟨_, rfl⟩
  | sequencer => exact ⟨k, rfl⟩

/-- Every instruction runs behind R147's check, whatever it does after it. -/
theorem exec_guarded (i : Instr) (s : State) : ∃ k, exec i s = whenRunning s k := by
  cases i with
  | decodeMidi f =>
    by_cases h : typeNibble f = 0
    · exact ⟨_, if_pos h⟩
    · exact ⟨_, if_neg h⟩
  | decodePulse f =>
    by_cases h : typeNibble f = 1
    · exact ⟨_, if_pos h⟩
    · exact ⟨_, if_neg h⟩
  | portBegin | portReceive | portSend | portPowerDown | portIdle | portReadStats => exact portCommand_guarded _ s _
  | _ => exact ⟨_, rfl⟩

theorem exec_stopped {s : State} (h : s.faults ≠ []) (i : Instr) : exec i s = .fault .stopped := by
  obtain ⟨k, hk⟩ := exec_guarded i s
  exact hk.trans (whenRunning_stopped h k)

/-- R147 for a line: only the clock's `@T` and a reset are not moves of the host, the sequencer or a line agent. -/
theorem step_stopped {s : State} {m : Move} {gaps : List (List Move)} {rest : List Line} (h : s.faults ≠ [])
    (hprog : s.program = ⟨m, gaps⟩ :: rest) (hreset : m ≠ .reset) (hclock : ∀ n, m ≠ .setClock n) :
    step s = .fault .stopped := by
  unfold step
  rw [hprog]
  cases m with
  | word issuer w => exact exec_stopped (s := s.begin rest gaps issuer) h (decodeWord w)
  | lineRx p b => exact whenRunning_stopped (s := s.begin rest gaps s.issuer) h _
  | lineTx p => exact whenRunning_stopped (s := s.begin rest gaps s.issuer) h _
  | setClock n => exact absurd rfl (hclock n)
  | reset => exact absurd rfl hreset

theorem endsWell_of_faults {s : State} (h : s.faults ≠ []) : endsWell s = false := by
  simp [endsWell, h]

/-- Settles O27: R147's check comes first in every instruction (`exec_guarded`) and in both line moves, and taking a line leaves
FAULTS as it is. -/
theorem faultedBlockIsStopped : Obligations.FaultedBlockIsStopped := fun _ h =>
  ⟨exec_stopped h, fun _ _ _ => step_stopped h, endsWell_of_faults h⟩

end Sys2Proof.Machine
end

section
/-! The encoder and the decoder undo one another (30_encoding.md R64 to R72, R75 to R78, R80). -/

namespace Sys2Proof.Machine

/-- The nibbles of B0 do not depend on the body, so the laws of a header byte over a plain body hold over a pulse body. -/
theorem typeNibble_pulseFrame (a t : Nib) (u : BitVec 2) (fo fi : Bool) (port : Nib) (x y : Raw) :
    typeNibble (pulseFrame (headerByte a t) u fo fi port x y) = t := typeNibble_headerByte a t default

theorem addressNibble_pulseFrame (a t : Nib) (u : BitVec 2) (fo fi : Bool) (port : Nib) (x y : Raw) :
    addressNibble (pulseFrame (headerByte a t) u fo fi port x y) = a := addressNibble_headerByte a t default

theorem decodeFrame_encode_midi (p : Port) (a : Nib) (m : Midi) :
    decodeFrame p (frameOf (headerByte a 0) m) = .frameMidi p a m := by
  rw [decodeFrame_of_midi (typeNibble_headerByte a 0 m), addressNibble_headerByte]
  rfl

theorem decodeFrame_encode_pulse (p : Port) (a : Nib) (u : BitVec 2) (fo fi : Bool) (port : Nib) (x y : Raw) :
    decodeFrame p (pulseFrame (headerByte a 1) u fo fi port x y) = .framePulse p a u fo fi port x y := by
  rw [decodeFrame_of_pulse (typeNibble_pulseFrame a 1 u fo fi port x y), addressNibble_pulseFrame, pulseUnused_pulseFrame,
    pulseFadeOut_pulseFrame, pulseFadeIn_pulseFrame, pulsePort_pulseFrame, powerRaw_pulseFrame, durationRaw_pulseFrame]

theorem decodeFrame_encode_reserved (p : Port) (a : Nib) {t : Nib} (ht : 2 ≤ t.toNat) (body : Midi) :
    decodeFrame p (frameOf (headerByte a t) body) = .frameReserved p a t body := by
  have type := typeNibble_headerByte a t body
  have notMidi : typeNibble (frameOf (headerByte a t) body) ≠ 0 := by rw [type]; rintro rfl; exact absurd ht (by decide)
  have notPulse : typeNibble (frameOf (headerByte a t) body) ≠ 1 := by rw [type]; rintro rfl; exact absurd ht (by decide)
  rw [decodeFrame_of_reserved notMidi notPulse, type, addressNibble_headerByte]
  rfl

/-- Settles O5: every row but the last four has a fixed opcode, and its operands stand in the record unchanged; the last range
of opcodes and the three frame rows each have their lemma. -/
theorem decodeOfEncodeIsInstruction : Obligations.DecodeOfEncodeIsInstruction := by
  intro i wf
  cases i with
  | reservedUnits3To15 op => exact decodeCommand_of_units3To15 (c := { op := op }) (of_decide_eq_true wf)
  | frameMidi p a m => exact decodeFrame_encode_midi p a m
  | framePulse p a u fo fi port x y => exact decodeFrame_encode_pulse p a u fo fi port x y
  | frameReserved p a t body => exact decodeFrame_encode_reserved p a (of_decide_eq_true wf) body
  | _ => rfl

/-- Settles O6: the type nibble is 0, 1 or more; in each case the header byte is rebuilt from its nibbles, and the body from its
bytes or its fields. -/
theorem encodeOfDecodedFrameIsFrame : Obligations.EncodeOfDecodedFrameIsFrame := by
  intro p f
  have header := headerByte_of_nibbles f
  by_cases midi : typeNibble f = 0
  · rw [midi] at header
    rw [decodeFrame_of_midi midi, encode, header]
    exact ⟨rfl, rfl⟩
  by_cases pulse : typeNibble f = 1
  · rw [pulse] at header
    rw [decodeFrame_of_pulse pulse, encode, header, pulseFrame_of_fields]
    exact ⟨rfl, rfl⟩
  · have wf : 2 ≤ (typeNibble f).toNat := by
      have h0 : (typeNibble f).toNat ≠ 0 := fun h => midi (BitVec.eq_of_toNat_eq h)
      have h1 : (typeNibble f).toNat ≠ 1 := fun h => pulse (BitVec.eq_of_toNat_eq h)
      omega
    rw [decodeFrame_of_reserved midi pulse, encode, header]
    exact ⟨decide_eq_true wf, rfl⟩

/-- Settles O7: the decoder evaluates on each of the eight words. -/
theorem specWordsDecode : Obligations.SpecWordsDecode :=
  ⟨rfl, rfl, rfl, rfl, rfl, by decide, by decide, by decide⟩

end Sys2Proof.Machine
end

section
/-! Taking a line of the tape: a reset, a decoded word, and a table row's bits placed as the next line (30_encoding.md R83). -/

namespace Sys2Proof.Machine

/-- Settles O2: whatever the state, the reset line leaves `State.restart`, and without a line nothing happens. -/
theorem resetRestartsAnyState : Obligations.ResetRestartsAnyState := by
  refine ⟨fun s gaps rest hprog => ⟨(s.begin rest gaps s.issuer).restart, ?_, State.restart_port _, rfl, rfl, rfl, rfl, rfl,
    rfl, rfl, rfl, rfl⟩, fun s hprog => ?_⟩
  · unfold step; rw [hprog]
  · unfold step; rw [hprog]

theorem step_word {s : State} {issuer : Issuer} {w : BusWord} {gaps : List (List Move)} {rest : List Line}
    (h : s.program = ⟨.word issuer w, gaps⟩ :: rest) : step s = exec (decodeWord w) (s.begin rest gaps issuer) := by
  unfold step; rw [h]

/-- Settles O3: the word line of `step` runs `exec` of the decoded word. -/
theorem stepRunsDecodedInstruction : Obligations.StepRunsDecodedInstruction := by
  intro s issuer w gaps rest i hprog hdecode _
  rw [step_word hprog, hdecode]
  rfl

/-- A word placed as the host's next line is what the next step runs. -/
theorem step_load_hostLine (s : State) (w : BusWord) :
    step (s.load [hostLine w]) = exec (decodeWord w) { s with gaps := [], issuer := .host } :=
  step_word (s := s.load [hostLine w]) rfl

/-- Settles O4: both widths place their word as the host's next line, eight bits in the state as it is, forty with the plug's line
open. -/
theorem fetchedWordRunsNext : Obligations.FetchedWordRunsNext := by
  intro s w i
  refine ⟨fun hdecode => ?_, fun hdecode => ?_⟩
  · obtain rfl := Option.some.inj hdecode
    exact step_load_hostLine s _
  · obtain rfl := Option.some.inj hdecode
    exact step_load_hostLine (s.openLine .plug) _

end Sys2Proof.Machine
end

section
/-! The invariant of a block is kept by every step (10_state.md R39, R44; 60_exceptions.md R148): one lemma per write to the
registers of a begun position, one per elementary change, and then `Changes.keeps`. -/

namespace Sys2Proof.Machine

/-- What the invariant looks at. -/
theorem Inv.of_same {s t : State} (h : Inv s) (cfg : t.cfg = s.cfg) (port : ∀ p, t.port p = s.port p)
    (linkBegun : t.linkBegun = s.linkBegun) (phase : t.phase = s.phase) (faults : t.faults = s.faults) : Inv t where
  plug := by rw [cfg, ← t.port_plug, port]; exact h.plug
  socket := by rw [cfg, ← t.port_socket, port]; exact h.socket
  phaseLegal := phase ▸ h.phaseLegal
  phaseBegun := by rw [phase, linkBegun]; exact h.phaseBegun
  portsBegun := by rw [linkBegun, cfg]; intro begun p; rw [port]; exact h.portsBegun begun p
  oneFault := faults ▸ h.oneFault

/-- Settles O58: both positions hold the registers of reset, the link has not begun, and nothing is recorded. -/
theorem resetMeetsInvariant : Obligations.ResetMeetsInvariant :=
  ⟨portOk_reset _ _, portOk_reset _ _, by decide, fun busy => absurd rfl busy, fun begun => absurd begun (by decide),
    Nat.zero_le 1⟩

theorem Inv.restart (s : State) : Inv s.restart :=
  ⟨portOk_reset _ _, portOk_reset _ _, by simp, by simp, by simp, by simp⟩

theorem State.countUp_lt (s : State) (n : Nat) : s.countUp n < 2 ^ s.cfg.counterWidth := Nat.mod_lt _ (Nat.two_pow_pos _)

/-! ### The writes to the registers of a begun position -/

section
variable {c : Config} {pc : PortConfig} {r : PortRegs} (ok : PortOk c pc r) (present : pc.present = true) (begun : r.begun = true)
include ok present begun

/-- A byte arrives where there is room for it (20_memory.md R50). -/
theorem PortOk.append_rx (b : Byte) (room : r.rx.length < pc.rxCap) : PortOk c pc { r with rx := r.rx ++ [b] } :=
  { ok with
    rxBound := by simpa using room
    untimed := by simp
    absent := by simp [present]
    fresh := by simp [begun] }

/-- A frame leaves RX (41_port.md R112). -/
theorem PortOk.take_frame {rest : List Byte} (shorter : rest.length ≤ r.rx.length) {n t : Nat} (count : n < 2 ^ c.counterWidth)
    (stamp : t < 2 ^ c.clockWidth) : PortOk c pc { r with rx := rest, toStamp := 0, inCount := n, lastAct := t } :=
  { ok with
    rxBound := shorter.trans ok.rxBound
    lastActWidth := stamp
    toStampWidth := Nat.two_pow_pos _
    inCountWidth := count
    untimed := fun _ => rfl
    absent := by simp [present]
    fresh := by simp [begun] }

/-- The timer of a partial frame starts (R109). -/
theorem PortOk.arm {t : Nat} (pending : r.rx ≠ []) (stamp : t < 2 ^ c.clockWidth) : PortOk c pc { r with toStamp := t } :=
  { ok with
    toStampWidth := stamp
    untimed := fun empty => absurd empty pending
    absent := by simp [present]
    fresh := by simp [begun] }

/-- A late partial frame is dropped (R110). -/
theorem PortOk.drop_partial : PortOk c pc { r with rx := [], toStamp := 0 } :=
  { ok with
    rxBound := Nat.zero_le _
    toStampWidth := Nat.two_pow_pos _
    untimed := fun _ => rfl
    absent := by simp [present]
    fresh := by simp [begun] }

/-- ACTIVE is written, with the pin where there is one (10_state.md R27). -/
theorem PortOk.set_active (b : Bool) : PortOk c pc { r with active := b, te := if pc.hasTe then b else r.te } :=
  { ok with
    pin := by have pin := ok.pin; cases h : pc.hasTe <;> simp_all
    absent := by simp [present]
    fresh := by simp [begun] }

theorem PortOk.set_lastAct {t : Nat} (stamp : t < 2 ^ c.clockWidth) : PortOk c pc { r with lastAct := t } :=
  { ok with
    lastActWidth := stamp
    absent := by simp [present]
    fresh := by simp [begun] }

/-- TX changes within its capacity, and what was sent is counted. -/
theorem PortOk.set_tx {bytes : List Byte} {n : Nat} (bound : bytes.length ≤ pc.txCap) (count : n < 2 ^ c.counterWidth) :
    PortOk c pc { r with tx := bytes, outCount := n } :=
  { ok with
    txBound := bound
    outCountWidth := count
    absent := by simp [present]
    fresh := by simp [begun] }

end

/-! ### The port operations -/

section
variable {s : State} (inv : Inv s) {p : Port} (present : (s.cfg.port p).present = true) (begun : (s.port p).begun = true)
include inv present begun

theorem Inv.receive : Inv (receiveStep p s).state := by
  refine inv.touch (receiveStep_touches p s) ?_
  have ok := inv.port p
  rcases receiveStep_state p s with ⟨f, rest, frame, e⟩ | ⟨-, e | ⟨pending, e⟩ | e | e⟩ <;> rw [e]
  · rw [State.setPort_port_self]
    exact ok.take_frame present begun (by rw [popFrame_some frame, List.length_append]; omega) (s.countUp_lt _) s.now_lt
  · exact ok
  · rw [State.setPort_port_self]; exact ok.arm present begun pending s.now_lt
  · rw [State.setPort_port_self]; exact ok.drop_partial present begun
  · rw [State.now_port]; exact ok

theorem Inv.sendActivity : Inv (sendActivity p s) := by
  refine inv.touch (sendActivity_touches p s) ?_
  have stamp : (s.assertTe p).now.1 < 2 ^ s.cfg.clockWidth := by simpa using (s.assertTe p).now_lt
  rw [sendActivity_port]
  by_cases active : (s.port p).active = true
  · rw [if_pos active]
    exact active ▸ (inv.port p).set_lastAct present begun stamp
  · rw [if_neg active]
    exact ((inv.port p).set_active present begun true).set_lastAct present begun stamp

theorem Inv.sendWrite (a : Nib) (f : Frame) : Inv (sendWrite p a f s).state := by
  refine inv.touch (sendWrite_touches p a f s) ?_
  rcases sendWrite_cases p a f s with ⟨-, e⟩ | ⟨room, e⟩ <;> rw [e]
  · exact inv.port p
  · rw [Ran.ok, State.setPort_port_self]
    exact (inv.port p).set_tx present begun (by simpa [frameBytes] using room) (s.countUp_lt _)

theorem Inv.powerDown : Inv (powerDownStep p s).state := by
  refine inv.touch (powerDownStep_touches p s) ?_
  rcases powerDownStep_cases p s with e | e | e <;> rw [e, Ran.ok]
  · exact inv.port p
  · rw [State.now_port]; exact inv.port p
  · rw [State.setActive_port_self, State.now_port, State.now_cfg]; exact (inv.port p).set_active present begun false

theorem Inv.lineRx (b : Byte) (room : (s.port p).rx.length < (s.cfg.port p).rxCap) :
    Inv (s.setPort p { s.port p with rx := (s.port p).rx ++ [b] }) := by
  refine inv.touch (.setPort p s _ rfl) ?_
  rw [State.setPort_port_self]
  exact (inv.port p).append_rx present begun b room

end

/-- PORT_BEGIN finds the registers of reset, and its write of ACTIVE does not change them. -/
theorem Inv.portBegin {s : State} (inv : Inv s) {p : Port} (present : (s.cfg.port p).present = true)
    (notBegun : (s.port p).begun = false) : Inv (portBegin p s).state := by
  have reset : s.port p = {} := (inv.port p).fresh notBegun
  rw [portBegin_starts present notBegun, Ran.ok, reset]
  have ok : PortOk s.cfg (s.cfg.port p)
      { begun := true, active := false, te := if (s.cfg.port p).hasTe then false else false } := by
    constructor <;> simp [present]
  cases p
  · exact ⟨ok, inv.socket, inv.phaseLegal, inv.phaseBegun, fun begun q hq => by
      cases q; exacts [rfl, inv.portsBegun begun .socket hq], inv.oneFault⟩
  · exact ⟨inv.plug, ok, inv.phaseLegal, inv.phaseBegun, fun begun q hq => by
      cases q; exacts [inv.portsBegun begun .plug hq, rfl], inv.oneFault⟩

/-- LINE_TX works before the port has begun too; but a TX that holds a byte is not that of reset. -/
theorem Inv.lineTx {s : State} (inv : Inv s) {p : Port} {b : Byte} {rest : List Byte} (present : (s.cfg.port p).present = true)
    (bytes : (s.port p).tx = b :: rest) : Inv (s.setPort p { s.port p with tx := rest }) := by
  have begun : (s.port p).begun = true := by
    by_contra notBegun
    have reset := (inv.port p).fresh (by simpa using notBegun)
    rw [reset] at bytes
    cases bytes
  have bound := (inv.port p).txBound
  rw [bytes, List.length_cons] at bound
  refine inv.touch (.setPort p s _ rfl) ?_
  rw [State.setPort_port_self]
  exact (inv.port p).set_tx present begun (by omega) (inv.port p).outCountWidth

/-! ### Every change, every step -/

theorem Inv.raise {s : State} (inv : Inv s) (running : s.faults = []) (r : FaultRecord) : Inv (s.raise r) :=
  ⟨inv.plug, inv.socket, inv.phaseLegal, inv.phaseBegun, fun begun p hp => by
    rw [State.raise_port]; exact inv.portsBegun begun p hp, by simp [running]⟩

theorem Inv.change {C R : Prop} {s t : State} (h : Change C R s t) (inv : Inv s) : Inv t := by
  cases h with
  | result | issuer | gap | setClock => exact inv.of_same rfl (fun p => by cases p <;> rfl) rfl rfl rfl
  | clock => exact inv.of_same (by simp) (by simp) (by simp) (by simp) (by simp)
  | raise r running => exact inv.raise running r
  | restart => exact .restart s
  | portBegin p present notBegun => exact inv.portBegin present notBegun
  | receive p present begun => exact inv.receive present begun
  | activity p present begun => exact inv.sendActivity present begun
  | write p a f present begun => exact inv.sendWrite present begun a f
  | powerDown p present begun => exact inv.powerDown present begun
  | lineRx p b present begun room => exact inv.lineRx present begun b room
  | lineTx p b rest present bytes => exact inv.lineTx present bytes
  | linkBegun portsBegun => exact ⟨inv.plug, inv.socket, inv.phaseLegal, fun _ => rfl, fun _ => portsBegun, inv.oneFault⟩
  | dispatch _ src f ph linkBegun legal =>
    exact ⟨inv.plug, inv.socket, legal, fun _ => linkBegun, fun _ => inv.portsBegun linkBegun, inv.oneFault⟩
  | endCycle => exact ⟨inv.plug, inv.socket, by simp, by simp, inv.portsBegun, inv.oneFault⟩

theorem Inv.changes {C R : Prop} {s t : State} (h : Changes C R s t) (inv : Inv s) : Inv t :=
  Changes.keeps (fun _ _ => Inv.change) h inv

theorem Inv.begin {s : State} (inv : Inv s) (rest : List Line) (gaps : List (List Move)) (issuer : Issuer) :
    Inv (s.begin rest gaps issuer) :=
  inv.of_same rfl (State.begin_port s rest gaps issuer) rfl rfl rfl

/-- A line's move is a sequence of changes from the state in which the line is taken. -/
theorem step_changes {s t : State} (h : step s = .next t) :
    t = s ∨ ∃ (R : Prop) (rest : List Line) (gaps : List (List Move)) (issuer : Issuer),
      Changes True R (s.begin rest gaps issuer) t := by
  unfold step at h
  split at h
  · cases h; exact .inl rfl
  · rename_i line rest _
    split at h
    · rename_i issuer w _
      exact .inr ⟨_, rest, line.gaps, issuer, exec_changes h⟩
    · exact .inr ⟨True, rest, line.gaps, s.issuer, lineRx_changes h⟩
    · exact .inr ⟨True, rest, line.gaps, s.issuer, lineTx_changes h⟩
    · exact .inr ⟨True, rest, line.gaps, s.issuer, setClock_changes h⟩
    · cases h; exact .inr ⟨True, rest, line.gaps, s.issuer, (Change.restart _ trivial trivial).one⟩

/-- Settles O59: a step is the taking of a line, at which the invariant does not look, and then elementary changes, of which each
keeps it. -/
theorem everyStepKeepsInvariant : Obligations.EveryStepKeepsInvariant := by
  intro s t inv h
  rcases step_changes h with rfl | ⟨R, rest, gaps, issuer, changes⟩
  · exact inv
  · exact (inv.begin rest gaps issuer).changes changes

end Sys2Proof.Machine
end

section
/-! What no command undoes (10_state.md R32, R33; 00_scope.md R11; 60_exceptions.md R154). -/

namespace Sys2Proof.Machine

/-- A change to one position grows the records when it only adds events. -/
theorem Touches.grows {p : Port} {s t : State} (h : Touches p s t) (events : s.events <+: t.events) : Grows s t :=
  ⟨h.cfg, h.faults ▸ List.prefix_rfl, events, h.time.1, h.program⟩

theorem Change.program {C R : Prop} {s t : State} (h : Change C R s t) : t.program = s.program := by
  cases h with
  | portBegin p present notBegun => rw [portBegin_starts present notBegun, Ran.ok]; exact State.setPort_program s p _
  | receive p => exact (receiveStep_touches p s).program
  | activity p => exact (sendActivity_touches p s).program
  | write p a f => exact (sendWrite_touches p a f s).program
  | powerDown p => exact (powerDownStep_touches p s).program
  | _ => simp

/-- Every change but a reset lets the records grow. -/
theorem Change.grows {C R : Prop} {s t : State} (h : Change C R s t) (noReset : ¬R) : Grows s t := by
  cases h with
  | result | issuer | gap | linkBegun | endCycle => exact ⟨rfl, List.prefix_rfl, List.prefix_rfl, le_rfl, rfl⟩
  | raise r => exact ⟨rfl, List.prefix_append _ _, List.prefix_rfl, le_rfl, rfl⟩
  | clock => exact (Touches.now .plug s).grows (by simp)
  | setClock n later => exact ⟨rfl, List.prefix_rfl, List.prefix_rfl, later, rfl⟩
  | restart _ reset => exact absurd reset noReset
  | portBegin p present notBegun =>
    rw [portBegin_starts present notBegun, Ran.ok, List.append_assoc]
    exact ⟨State.setPort_cfg s p _, by simp, List.prefix_append _ _, by simp, by simp⟩
  | receive p => exact (receiveStep_touches p s).grows (by rw [receiveStep_events])
  | activity p => exact (sendActivity_touches p s).grows (by rw [sendActivity_events]; exact List.prefix_append _ _)
  | write p a f => exact (sendWrite_touches p a f s).grows (by rw [sendWrite_events])
  | powerDown p =>
    obtain ⟨es, events, -⟩ := powerDownStep_events p s
    exact (powerDownStep_touches p s).grows (events ▸ List.prefix_append _ _)
  | lineRx p b | lineTx p b =>
    refine Touches.grows (.setPort p s _ ?_) ?_
    · rfl
    · simp
  | dispatch => exact ⟨rfl, List.prefix_rfl, List.prefix_append _ _, le_rfl, rfl⟩

theorem Changes.cfg {C R : Prop} {s t : State} (h : Changes C R s t) : t.cfg = s.cfg :=
  Changes.keeps (P := fun u => u.cfg = s.cfg) (fun _ _ c e => c.cfg.trans e) h rfl

theorem Changes.program {C R : Prop} {s t : State} (h : Changes C R s t) : t.program = s.program :=
  Changes.keeps (P := fun u => u.program = s.program) (fun _ _ c e => c.program.trans e) h rfl

theorem Changes.grows {C R : Prop} {s t : State} (h : Changes C R s t) (noReset : ¬R) : Grows s t :=
  Changes.keeps (fun _ _ c g => g.trans (c.grows noReset)) h (Grows.refl s)

/-- Settles O60: every command is a sequence of changes; each keeps the configuration and the lines to come, and each but a reset
lets the records grow. -/
theorem recordsOnlyGrow : Obligations.RecordsOnlyGrow := by
  intro i s t h
  have changes := exec_changes h
  exact ⟨changes.cfg, changes.program, fun noReset => changes.grows fun ⟨ms, listed, reset⟩ => noReset ms listed reset⟩

end Sys2Proof.Machine
end

section
/-! The clock (60_exceptions.md R154, 30_encoding.md R83) and the line agents (20_memory.md R50). -/

namespace Sys2Proof.Machine

/-- R14: `elapsed` adds the distance from t0 up to the next multiple of the clock's range. -/
theorem elapsed_eq_sub_mod (w t0 t1 : Nat) : (elapsed w t0 t1 : Int) = ((t1 : Int) - t0) % 2 ^ w := by
  have below : t0 % 2 ^ w ≤ 2 ^ w := (Nat.mod_lt t0 (Nat.two_pow_pos w)).le
  unfold elapsed
  push_cast [Nat.cast_sub below]
  rw [← add_sub_assoc, add_sub_right_comm, Int.add_emod_right, Int.sub_emod, Int.emod_emod, ← Int.sub_emod]

theorem step_setClock {s : State} {n : Nat} {gaps : List (List Move)} {rest : List Line}
    (h : s.program = ⟨.setClock n, gaps⟩ :: rest) : step s = setClock n (s.begin rest gaps s.issuer) := by
  unfold step; rw [h]

/-- Settles O30: a read writes the time and the draw counter alone; the clock's line sets the time and holds it there. -/
theorem clockReadsTrueTime : Obligations.ClockReadsTrueTime := by
  refine ⟨fun s => ⟨s.now_word, s.now_time_le, s.now_eq⟩, elapsed_eq_sub_mod, fun s n gaps rest hprog => ?_⟩
  rw [step_setClock hprog, setClock]
  refine ⟨fun later => ⟨_, if_pos later, State.now_of_held _ rfl, rfl⟩, fun earlier => if_neg ?_⟩
  exact Nat.not_le.mpr earlier

theorem step_lineTx {s : State} {p : Port} {gaps : List (List Move)} {rest : List Line}
    (h : s.program = ⟨.lineTx p, gaps⟩ :: rest) : step s = lineTx p (s.begin rest gaps s.issuer) := by
  unfold step; rw [h]

section
variable {s : State} {p : Port} (running : s.faults = [])
include running

theorem lineTx_byte (present : (s.cfg.port p).present = true) {b : Byte} {bs : List Byte} (bytes : (s.port p).tx = b :: bs) :
    lineTx p s = .next (s.setPort p { s.port p with tx := bs }) := by
  unfold lineTx
  rw [whenRunning_of_running running, if_pos present, bytes]

theorem lineTx_empty (present : (s.cfg.port p).present = true) (empty : (s.port p).tx = []) :
    lineTx p s = .fault .lineTxEmpty := by
  unfold lineTx
  rw [whenRunning_of_running running, if_pos present, empty]

theorem lineTx_absent (absent : (s.cfg.port p).present = false) : lineTx p s = .fault .lineAbsent := by
  unfold lineTx
  rw [whenRunning_of_running running, if_neg (by simp [absent])]

theorem lineRx_absent (absent : (s.cfg.port p).present = false) (b : Byte) : lineRx p b s = .fault .lineAbsent := by
  unfold lineRx
  rw [whenRunning_of_running running, if_neg (by simp [absent])]

theorem lineRx_notBegun (present : (s.cfg.port p).present = true) (notBegun : (s.port p).begun = false) (b : Byte) :
    lineRx p b s = .fault .lineNotBegun := by
  unfold lineRx
  rw [whenRunning_of_running running, if_pos present, if_neg (by simp [notBegun])]

theorem frameArrives_running (f : Frame) : frameArrives p f s = lineRxAll p (frameBytes f) s := whenRunning_of_running running _

/-- A frame whose first byte the line agent takes no step for does not arrive. -/
theorem frameArrives_fault {f : Frame} {e : Fault} (first : lineRx p f.b0 s = .fault e) : frameArrives p f s = .fault e := by
  rw [frameArrives_running running, frameBytes, lineRxAll, first]
  rfl

end

/-- A frame word runs as the arrival of a frame, whichever of the three rows it decodes to. -/
theorem exec_decodeFrame (p : Port) (f : Frame) (s : State) : exec (decodeWord (.frame p f)) s = frameArrives p f s := by
  have recovered : encode (decodeFrame p f) = .frame p f := (encodeOfDecodedFrameIsFrame p f).2
  show exec (decodeFrame p f) s = _
  generalize decodeFrame p f = i at recovered
  cases i with
  | frameMidi | framePulse | frameReserved => cases recovered; rfl
  | _ => cases recovered

/-- Settles O32: each clause is one equation of the line agents, in the state in which the line is taken. -/
theorem lineTxRemovesOldest : Obligations.LineTxRemovesOldest := by
  refine ⟨fun s p b bs gaps rest hprog running present bytes => ?_, fun s p b gaps rest running =>
    ⟨fun absent => ⟨?_, fun f => ?_⟩, fun present notBegun => ⟨fun hprog => ?_, fun f => ?_⟩, fun present empty hprog => ?_⟩⟩
  · rw [step_lineTx hprog, lineTx_byte (s := s.begin rest gaps s.issuer) running present (by rwa [State.begin_port]),
      State.begin_port, State.begin_issuer_self]
  · rintro (hprog | hprog)
    · rw [step_lineRx hprog]; exact lineRx_absent (s := s.begin rest gaps s.issuer) running absent b
    · rw [step_lineTx hprog]; exact lineTx_absent (s := s.begin rest gaps s.issuer) running absent
  · rw [exec_decodeFrame]; exact frameArrives_fault running (lineRx_absent running absent _)
  · rw [step_lineRx hprog]
    exact lineRx_notBegun (s := s.begin rest gaps s.issuer) running present (by rwa [State.begin_port]) b
  · rw [exec_decodeFrame]; exact frameArrives_fault running (lineRx_notBegun running present notBegun _)
  · rw [step_lineTx hprog]; exact lineTx_empty (s := s.begin rest gaps s.issuer) running present (by rwa [State.begin_port])

/-! ### A frame on the line -/

/-- What `bs` arriving one after the other leave of `s` (20_memory.md R51): the bytes RX has room for, and a record of the first
it has none for. -/
def arrivedAt (p : Port) (s : State) (bs : List Byte) : State :=
  let room := (s.cfg.port p).rxCap - (s.port p).rx.length
  let arrive : State := s.setPort p { s.port p with rx := (s.port p).rx ++ bs.take room }
  match bs.drop room with
  | [] => arrive
  | b :: _ => { arrive with faults := s.faults ++ [.rxOverrun p b] }

theorem arrivedAt_nil (p : Port) (s : State) : arrivedAt p s [] = s := by
  cases p <;> simp [arrivedAt, State.setPort]

theorem arrivedAt_full {p : Port} {s : State} (full : (s.cfg.port p).rxCap ≤ (s.port p).rx.length) (b : Byte) (bs : List Byte) :
    arrivedAt p s (b :: bs) = s.raise (.rxOverrun p b) := by
  have none : (s.cfg.port p).rxCap - (s.port p).rx.length = 0 := Nat.sub_eq_zero_of_le full
  unfold arrivedAt
  rw [none]
  cases p <;> simp [State.setPort, State.raise]

theorem arrivedAt_room {p : Port} {s : State} (room : (s.port p).rx.length < (s.cfg.port p).rxCap) (b : Byte) (bs : List Byte) :
    arrivedAt p (s.setPort p { s.port p with rx := (s.port p).rx ++ [b] }) bs = arrivedAt p s (b :: bs) := by
  obtain ⟨n, hn⟩ : ∃ n, (s.cfg.port p).rxCap - (s.port p).rx.length = n + 1 := ⟨_, (Nat.succ_pred (by omega)).symm⟩
  have hn' : (s.cfg.port p).rxCap - ((s.port p).rx.length + 1) = n := by omega
  unfold arrivedAt
  simp [hn, hn']

theorem lineRxAll_arrives {p : Port} {s : State} (running : s.faults = []) (present : (s.cfg.port p).present = true)
    (begun : (s.port p).begun = true) (bs : List Byte) : lineRxAll p bs s = .next (arrivedAt p s bs) := by
  induction bs generalizing s with
  | nil => rw [arrivedAt_nil]; rfl
  | cons b bs ih =>
    rw [lineRxAll]
    rcases Nat.lt_or_ge (s.port p).rx.length (s.cfg.port p).rxCap with room | full
    · rw [lineRx_room running present begun room, andThen_of_running (by simpa using running),
        ih (by simpa using running) (by simpa using present) (by simpa using begun), arrivedAt_room room]
    · rw [lineRx_full running present begun full, arrivedAt_full full, andThen, State.raise_faults, running]
      rfl

/-- Settles O33: each frame row is the arrival of its bytes in wire order, whose numbers are those of their packing. -/
theorem framesArriveInWireOrder : Obligations.FramesArriveInWireOrder := by
  intro p s running present begun room arrive arrived
  have arrives (f : Frame) : frameArrives p f s = .next (arrived (frameBytes f)) := by
    rw [frameArrives_running running, lineRxAll_arrives running present begun]
    rfl
  exact ⟨fun a m => ⟨headerByte a 0, headerByte_toNat a 0, arrives _⟩,
    fun a u fo fi port x y => ⟨_, _, _, _, _, headerByte_toNat a 1, pulseB1_toNat u fo fi port, pulseB2_toNat x y, low_toNat x,
      low_toNat y, arrives (pulseFrame _ u fo fi port x y)⟩,
    fun a t m => ⟨headerByte a t, headerByte_toNat a t, arrives _⟩⟩

end Sys2Proof.Machine
end

section
/-! The quantizer's laws (40_codec.md R93 to R96) and the pulse round trip (R100). -/

namespace Sys2Proof.Machine

variable {c : Config} {q : Quantity}

/-- R93's inequality over the integers, where `2r - 1` does not stop at 0. -/
theorem reaches_iff_int {x : Rat} {r : Nat} (nonneg : 0 ≤ x) (pos : 1 ≤ r) :
    reaches c q x r
      ↔ (2 * (r : Int) - 1) ^ c.quantityExp q * c.quantityMax q * x.den ≤ 8190 ^ c.quantityExp q * x.num := by
  have odd : ((2 * r - 1 : Nat) : Int) = 2 * r - 1 := by omega
  have num : (x.num.toNat : Int) = x.num := Int.toNat_of_nonneg (Rat.num_nonneg.mpr nonneg)
  unfold reaches
  rw [← Int.ofNat_le]
  push_cast
  rw [odd, num]

/-- Settles O17: `quantize_spec` in integers, where the two forms of R93's inequality agree from 1 up. -/
theorem plEncodeIsLargestReached : Obligations.PlEncodeIsLargestReached := by
  intro q v c x hx
  obtain rfl : x = clampQuantity c q v := hx
  have nonneg := clampQuantity_nonneg c q v
  obtain ⟨reached, largest⟩ := quantize_spec c q v
  refine ⟨?_, fun k pos le inequality => largest k pos le ?_⟩
  · rcases Nat.eq_zero_or_pos (quantize c q v).toNat with zero | pos
    · exact .inl zero
    · exact .inr ((reaches_iff_int nonneg pos).mp ((reaches_iff nonneg pos).mpr (reached.resolve_left pos.ne')))
  · exact (reaches_iff nonneg pos).mp ((reaches_iff_int nonneg pos).mpr inequality)

theorem quantityMax_cast_pos (c : Config) (q : Quantity) : (0 : Rat) < c.quantityMax q := Nat.cast_pos.mpr (quantityMax_pos c q)

theorem quantize_le (c : Config) (q : Quantity) (v : Rat) : (quantize c q v).toNat ≤ 4095 :=
  Nat.le_of_lt_succ (quantize c q v).isLt

theorem roundPoint_pos {r : Nat} (pos : 1 ≤ r) : 0 < roundPoint c q r := by
  have one : (1 : Rat) ≤ r := by exact_mod_cast pos
  exact mul_pos (quantityMax_cast_pos c q) (pow_pos (by linarith) _)

/-- PL_DECODE on the scale of the round points: `r/4095` is `2r/8190`. -/
theorem dequantize_eq (c : Config) (q : Quantity) (r : Raw) :
    dequantize c q r = (c.quantityMax q : Rat) * (2 * (r.toNat : Rat) / 8190) ^ c.quantityExp q := by
  rw [dequantize, mul_div_assoc, ← div_pow, show (2 * (r.toNat : Rat) / 8190) = (r.toNat : Rat) / 4095 by ring]

theorem dequantize_lt {r r' : Raw} (h : r.toNat < r'.toNat) : dequantize c q r < dequantize c q r' := by
  have max := quantityMax_cast_pos c q
  have exp := (quantityExp_pos c q).ne'
  have cast : (r.toNat : Rat) < r'.toNat := by exact_mod_cast h
  rw [dequantize_eq, dequantize_eq]
  gcongr

/-- What the clamped input of a larger input has reached is more, not less. -/
theorem quantize_mono {v w : Rat} (h : v ≤ w) : (quantize c q v).toNat ≤ (quantize c q w).toNat := by
  obtain ⟨reached, -⟩ := quantize_spec c q v
  rcases Nat.eq_zero_or_pos (quantize c q v).toNat with zero | pos
  · omega
  · exact (quantize_spec c q w).2 _ pos (quantize_le c q v) ((reached.resolve_left pos.ne').trans (clampQuantity_mono h))

/-- Settles O18: monotone by `dequantize_lt` and `quantize_mono`; below 0 no round point is reached, and from MAX up the last one
is. -/
theorem quantizerIsMonotone : Obligations.QuantizerIsMonotone := by
  intro c q
  refine ⟨fun r r' => dequantize_lt, fun v v' => quantize_mono, fun v low => ?_, fun v high => ?_⟩
  · obtain ⟨reached, -⟩ := quantize_spec c q v
    rw [clampQuantity_of_nonpos low] at reached
    rcases Nat.eq_zero_or_pos (quantize c q v).toNat with zero | pos
    · exact BitVec.eq_of_toNat_eq zero
    · exact absurd (reached.resolve_left pos.ne') (not_le.mpr (roundPoint_pos pos))
  · have last : roundPoint c q 4095 ≤ clampQuantity c q v := by
      rw [clampQuantity_of_max_le high]
      exact mul_le_of_le_one_right (quantityMax_cast_pos c q).le (pow_le_one₀ (by norm_num) (by norm_num))
    exact BitVec.eq_of_toNat_eq ((quantize_le c q v).antisymm ((quantize_spec c q v).2 4095 (by decide) le_rfl last))

/-! ### Decoded magnitudes between the round points -/

theorem dequantize_nonneg (c : Config) (q : Quantity) (r : Raw) : 0 ≤ dequantize c q r := by
  rw [dequantize_eq]; positivity

theorem dequantize_le_max (c : Config) (q : Quantity) (r : Raw) : dequantize c q r ≤ c.quantityMax q := by
  have le : (r.toNat : Rat) ≤ 4095 := by exact_mod_cast Nat.le_of_lt_succ r.isLt
  rw [dequantize_eq]
  exact mul_le_of_le_one_right (quantityMax_cast_pos c q).le (pow_le_one₀ (by positivity) (by linarith))

theorem roundPoint_le_dequantize {r : Raw} (pos : 1 ≤ r.toNat) : roundPoint c q r.toNat ≤ dequantize c q r := by
  have one : (1 : Rat) ≤ r.toNat := by exact_mod_cast pos
  rw [dequantize_eq, roundPoint]
  gcongr <;> linarith

theorem roundPoint_succ (c : Config) (q : Quantity) (r : Nat) :
    roundPoint c q (r + 1) = (c.quantityMax q : Rat) * ((2 * (r : Rat) + 1) / 8190) ^ c.quantityExp q := by
  rw [roundPoint]; push_cast; ring_nf

theorem dequantize_lt_roundPoint_succ (c : Config) (q : Quantity) (r : Raw) : dequantize c q r < roundPoint c q (r.toNat + 1) := by
  have max := quantityMax_cast_pos c q
  have exp := (quantityExp_pos c q).ne'
  rw [dequantize_eq, roundPoint_succ]
  gcongr
  linarith

/-- Settles O19: the decoded magnitude of r lies from r's round point up to below the next one. -/
theorem quantizerLeftInverse : Obligations.QuantizerLeftInverse := by
  intro c q r
  obtain ⟨reached, largest⟩ := quantize_spec c q (dequantize c q r)
  rw [clampQuantity_of_mem (dequantize_nonneg c q r) (dequantize_le_max c q r)] at reached largest
  have atLeast : r.toNat ≤ (quantize c q (dequantize c q r)).toNat := by
    rcases Nat.eq_zero_or_pos r.toNat with zero | pos
    · omega
    · exact largest _ pos (Nat.le_of_lt_succ r.isLt) (roundPoint_le_dequantize pos)
  refine BitVec.eq_of_toNat_eq (Nat.le_antisymm (not_lt.mp fun above => ?_) atLeast)
  have next : roundPoint c q (r.toNat + 1) ≤ dequantize c q r :=
    (roundPoint_mono (by omega) above).trans (reached.resolve_left (by omega))
  exact absurd next (not_le.mpr (dequantize_lt_roundPoint_succ c q r))

/-- A power grows fastest at the upper end: over a step of one length, the higher step gains more. -/
theorem pow_sub_pow_le_of_sub_eq {a b a' b' : Rat} (nonneg : 0 ≤ b) (le : b ≤ a) (left : a ≤ a') (step : a - b = a' - b')
    (n : Nat) : a ^ n - b ^ n ≤ a' ^ n - b' ^ n := by
  have right : b ≤ b' := by linarith
  induction n with
  | zero => simp
  | succ n ih =>
    calc a ^ (n + 1) - b ^ (n + 1) = a * (a ^ n - b ^ n) + (a - b) * b ^ n := by ring
      _ ≤ a' * (a' ^ n - b' ^ n) + (a' - b') * b' ^ n := by
        have gain : 0 ≤ a ^ n - b ^ n := sub_nonneg.mpr (pow_le_pow_left₀ nonneg le n)
        have up : b ^ n ≤ b' ^ n := pow_le_pow_left₀ nonneg right n
        rw [← step]
        have h1 : a * (a ^ n - b ^ n) ≤ a' * (a' ^ n - b' ^ n) := mul_le_mul left ih gain (by linarith)
        have h2 : (a - b) * b ^ n ≤ (a - b) * b' ^ n := mul_le_mul_of_nonneg_left up (by linarith)
        linarith
      _ = a' ^ (n + 1) - b' ^ (n + 1) := by ring

/-- R96's bound: what half a step of the raw scale makes at its upper end. -/
def errorBound (c : Config) (q : Quantity) : Rat := (c.quantityMax q : Rat) * (1 - (8189 / 8190) ^ c.quantityExp q)

theorem errorBound_nonneg (c : Config) (q : Quantity) : 0 ≤ errorBound c q :=
  mul_nonneg (quantityMax_cast_pos c q).le (sub_nonneg.mpr (pow_le_one₀ (by norm_num) (by norm_num)))

/-- Half a step anywhere on the scale makes at most as much. -/
theorem half_step_le {x : Rat} (low : 1 ≤ x) (high : x ≤ 8190) :
    (c.quantityMax q : Rat) * (x / 8190) ^ c.quantityExp q - (c.quantityMax q : Rat) * ((x - 1) / 8190) ^ c.quantityExp q
      ≤ errorBound c q := by
  have gain := pow_sub_pow_le_of_sub_eq (a := x / 8190) (b := (x - 1) / 8190) (a' := 1) (b' := 8189 / 8190)
    (by linarith) (by linarith) (by linarith) (by ring) (c.quantityExp q)
  rw [one_pow] at gain
  rw [← mul_sub]
  exact mul_le_mul_of_nonneg_left gain (quantityMax_cast_pos c q).le

/-- The clamped input has reached the round point half a step below; at raw value 0 it is not below 0. -/
theorem dequantize_sub_clampQuantity_le (c : Config) (q : Quantity) (v : Rat) :
    dequantize c q (quantize c q v) - clampQuantity c q v ≤ errorBound c q := by
  obtain ⟨reached, -⟩ := quantize_spec c q v
  have bound := quantize_le c q v
  generalize quantize c q v = r at *
  rcases Nat.eq_zero_or_pos r.toNat with zero | pos
  · rw [show r = 0 from BitVec.eq_of_toNat_eq zero, dequantize_zero]
    linarith [clampQuantity_nonneg c q v, errorBound_nonneg c q]
  · have low : (1 : Rat) ≤ r.toNat := by exact_mod_cast pos
    have high : (r.toNat : Rat) ≤ 4095 := by exact_mod_cast bound
    have half := half_step_le (c := c) (q := q) (x := 2 * r.toNat) (by linarith) (by linarith)
    rw [← dequantize_eq, ← roundPoint] at half
    linarith [reached.resolve_left pos.ne']

/-- It has not reached the round point half a step above; at raw value 4095 it is not above MAX. -/
theorem clampQuantity_sub_dequantize_le (c : Config) (q : Quantity) (v : Rat) :
    clampQuantity c q v - dequantize c q (quantize c q v) ≤ errorBound c q := by
  obtain ⟨-, largest⟩ := quantize_spec c q v
  have bound := quantize_le c q v
  generalize quantize c q v = r at *
  rcases Nat.lt_or_ge r.toNat 4095 with below | top
  · have next : clampQuantity c q v < roundPoint c q (r.toNat + 1) := by
      by_contra! next
      exact absurd (largest _ (by omega) below next) (by omega)
    have low : (0 : Rat) ≤ r.toNat := Nat.cast_nonneg _
    have high : (r.toNat : Rat) + 1 ≤ 4095 := by exact_mod_cast below
    have half := half_step_le (c := c) (q := q) (x := 2 * r.toNat + 1) (by linarith) (by linarith)
    rw [add_sub_cancel_right, ← dequantize_eq, ← roundPoint_succ] at half
    linarith
  · rw [show r = 4095 from BitVec.eq_of_toNat_eq (Nat.le_antisymm bound top), dequantize_4095]
    linarith [clampQuantity_le c q v, errorBound_nonneg c q]

/-- Settles O20: the clamped input lies between the round points around the decoded magnitude, each half a step away. -/
theorem quantizerErrorBound : Obligations.QuantizerErrorBound := fun c q v =>
  abs_sub_le_iff.mpr ⟨dequantize_sub_clampQuantity_le c q v, clampQuantity_sub_dequantize_le c q v⟩

/-- Masking a packed B1 clears its unused bits and nothing else. -/
theorem pulseB1_masked (u : BitVec 2) (fo fi : Bool) (port : Nib) : pulseB1 u fo fi port &&& 0x3F = pulseB1 0 fo fi port := by
  have masked : (pulseB1 u fo fi port &&& 0x3F).toNat = (pulseB1 u fo fi port).toNat % 64 := Nat.and_two_pow_sub_one_eq_mod _ 6
  have portLt := port.isLt
  have fadeOut := fo.toNat_le
  have fadeIn := fi.toNat_le
  apply BitVec.eq_of_toNat_eq
  rw [masked, pulseB1_toNat, pulseB1_toNat, show (0 : BitVec 2).toNat = 0 from rfl]
  omega

/-- Settles O21: reading a field undoes packing it; the other way, R95 gives back the raw values, and `pulseFrame_of_fields` the
bytes but for B1's unused bits. -/
theorem pulseRoundTrip : Obligations.PulseRoundTrip := by
  refine ⟨fun c f u => ⟨typeNibble_pulseFrame _ 1 .., pulsePort_pulseFrame .., pulseFadeIn_pulseFrame ..,
    pulseFadeOut_pulseFrame .., powerRaw_pulseFrame .., durationRaw_pulseFrame ..⟩, fun c f pulse => ?_⟩
  have header : headerByte (addressNibble f) 1 = f.b0 := pulse ▸ headerByte_of_nibbles f
  have power : quantize c .power (decodePulseFrame c f).pulse.power = powerRaw f := quantizerLeftInverse c .power _
  have duration : quantize c .duration (decodePulseFrame c f).pulse.duration = durationRaw f := quantizerLeftInverse c .duration _
  have b1 : pulseB1 (f.b1.extractLsb' 6 2) (pulseFadeOut f) (pulseFadeIn f) (pulsePort f) = f.b1 :=
    congrArg Frame.b1 (pulseFrame_of_fields f)
  calc encodePulseFrame c f (decodePulseFrame c f).pulse
      = pulseFrame f.b0 0 (pulseFadeOut f) (pulseFadeIn f) (pulsePort f) (powerRaw f) (durationRaw f) := by
        rw [encodePulseFrame, header, power, duration]; rfl
    _ = { pulseFrame f.b0 (f.b1.extractLsb' 6 2) (pulseFadeOut f) (pulseFadeIn f) (pulsePort f) (powerRaw f) (durationRaw f) with
          b1 := pulseB1 0 (pulseFadeOut f) (pulseFadeIn f) (pulsePort f) } := rfl
    _ = { f with b1 := f.b1 &&& 0x3F } := by rw [pulseFrame_of_fields, ← pulseB1_masked (f.b1.extractLsb' 6 2), b1]

end Sys2Proof.Machine
end

section
/-! Port commands from the host (30_encoding.md R79), a receive within its budget (41_port.md R111), and what each port operation
leaves unchanged (10_state.md R42, R43). -/

namespace Sys2Proof.Machine

variable {p : Port} {s : State}

theorem portCommand_host {op : Byte} (running : s.faults = []) (host : s.issuer = .host) (k : Step) :
    portCommand op s k = .next (s.raise (.illegalCommand op)) := by
  unfold portCommand
  rw [host]
  exact raising_of_running running _

/-- Settles O26: the issuer is the first check of each of the six commands. -/
theorem hostMayNotOperatePorts : Obligations.HostMayNotOperatePorts := fun _ _ _ _ running host =>
  ⟨portCommand_host running host _, portCommand_host running host _, portCommand_host running host _,
    portCommand_host running host _, portCommand_host running host _, portCommand_host running host _⟩

/-- R111, beside `receiveStep_arms` and `receiveStep_drops`. -/
theorem receiveStep_waits (pending : 1 ≤ (s.port p).rx.length) (partialFrame : (s.port p).rx.length ≤ 4)
    (armed : (s.port p).toStamp ≠ 0) (within : elapsed s.cfg.clockWidth (s.port p).toStamp s.now.1 ≤ s.cfg.partialTimeoutUs) :
    receiveStep p s = .ok none s.now.2 := by
  obtain ⟨noFrame, nonempty⟩ := rx_partial pending partialFrame
  unfold receiveStep
  simp only [noFrame, if_neg nonempty, if_neg armed, if_neg (Nat.not_lt.mpr within)]

/-- Settles O37: the branch of PORT_RECEIVE that only reads the clock. -/
theorem receiveWaitsWithinBudget : Obligations.ReceiveWaitsWithinBudget := by
  intro p s ready pending partialFrame armed within
  rw [exec_portReceive_ready ready, receiveStep_waits pending partialFrame armed within, Ran.finish_ok]

/-! ### The frame of a port operation -/

/-- The result of a receive is written beside what `receiveStep` leaves. -/
theorem exec_portReceive_state (ready : PortReady s p) :
    ∃ r, exec (.portReceive p) s = .next { (receiveStep p s).state with result := r } := by
  refine ⟨.received ((popFrame (s.port p).rx).map (·.1)), ?_⟩
  rw [exec_portReceive_ready ready, Ran.finish, receiveStep_val]

theorem exec_portPowerDown_state (ready : PortReady s p) :
    exec (.portPowerDown p) s = .next { (powerDownStep p s).state with result := .unit } := by
  rw [exec_portPowerDown_ready ready]
  rcases powerDownStep_cases p s with e | e | e <;> rw [e] <;> rfl

/-- A port operation at a ready port touches its own position alone, and of it what R42 lists. -/
theorem portOperation_touches {a : Nib} {f : Frame} {i : Instr} {t : State} (ready : PortReady s p)
    (operation : i ∈ [.portReceive p, .portSend p a f, .portPowerDown p, .portIdle p, .portReadStats p])
    (h : exec i s = .next t) : Touches p s t
    ∧ (i = .portReceive p → t.port p = { s.port p with
        rx := (t.port p).rx, toStamp := (t.port p).toStamp, inCount := (t.port p).inCount, lastAct := (t.port p).lastAct }
        ∧ t.events = s.events)
    ∧ (i = .portSend p a f → t.port p = { s.port p with
        active := (t.port p).active, te := (t.port p).te, lastAct := (t.port p).lastAct, tx := (t.port p).tx,
        outCount := (t.port p).outCount })
    ∧ (i = .portPowerDown p → t.port p = { s.port p with active := (t.port p).active, te := (t.port p).te })
    ∧ (i = .portIdle p ∨ i = .portReadStats p → t.port p = s.port p ∧ t.events = s.events) := by
  simp only [List.mem_cons, List.not_mem_nil, or_false] at operation
  rcases operation with rfl | rfl | rfl | rfl | rfl
  · obtain ⟨r, e⟩ := exec_portReceive_state ready
    obtain rfl := Host.Outcome.next.inj (e.symm.trans h)
    refine ⟨(receiveStep_touches p s).trans (.result p _ r), fun _ => ?_, nofun, nofun, nofun⟩
    rw [State.port_withResult]
    exact ⟨receiveStep_port p s, receiveStep_events p s⟩
  · obtain rfl := Host.Outcome.next.inj ((exec_portSend_sent ready).symm.trans h)
    refine ⟨(sent_touches p a f s).trans (.result p _ _), nofun, fun _ => ?_, nofun, nofun⟩
    rw [State.port_withResult, (sent_port p a f s).1]
  · obtain rfl := Host.Outcome.next.inj ((exec_portPowerDown_state ready).symm.trans h)
    refine ⟨(powerDownStep_touches p s).trans (.result p _ _), nofun, nofun, fun _ => ?_, nofun⟩
    rw [State.port_withResult]
    exact powerDownStep_port p s
  · obtain rfl := Host.Outcome.next.inj ((exec_portIdle_ready ready).symm.trans h)
    refine ⟨(Touches.now p s).trans (.result p _ _), nofun, nofun, nofun, fun _ => ?_⟩
    rw [State.port_withResult]
    exact ⟨s.now_port p, s.now_events⟩
  · obtain rfl := Host.Outcome.next.inj ((exec_portReadStats_ready ready).symm.trans h)
    exact ⟨.result p s _, nofun, nofun, nofun, fun _ => ⟨State.port_withResult s _ p, rfl⟩⟩

/-- Settles O42: `Touches` holds all that stays, whichever the operation; the rest is `portOperation_touches` itself. -/
theorem portOperationsFrame : Obligations.PortOperationsFrame := by
  intro p q a f i s t ready other operation h
  obtain ⟨touches, writes⟩ := portOperation_touches ready operation h
  exact ⟨touches.other q other, touches.linkBegun, touches.phase, touches.dispSrc, touches.dispFrame, touches.faults, touches.cfg,
    touches.issuer, touches.program, touches.gaps, touches.begun, writes⟩

end Sys2Proof.Machine
end

section
/-! The pseudo-sends (30_encoding.md R84). -/

namespace Sys2Proof.Machine

variable {p : Port} {a : Nib} {s : State}

theorem LinkReady.withResult (ready : LinkReady s) (r : Result) : LinkReady { s with result := r } :=
  ⟨ready.running, ready.begun, fun p present => by rw [State.port_withResult]; exact ready.portsBegun p present⟩

/-- The second command of a pseudo-send queues the frame the first returned, its address replaced. -/
theorem sendReturned_queues (ready : LinkReady s) (present : (s.cfg.port p).present = true)
    (room : (s.port p).tx.length + 5 ≤ (s.cfg.port p).txCap) {f : Frame} (returned : s.result = .frame f) :
    ∃ t, sendReturned p a s = .next t ∧ t.result = .flag true
      ∧ (t.port p).tx = (s.port p).tx ++ frameBytes (sentFrame a f) := by
  unfold sendReturned
  rw [returned]
  refine ⟨_, exec_linkSend_sent ready present, ?_, ?_⟩
  · rw [decide_eq_true room]
  · rw [State.port_withResult, sent_room room]

/-- Both commands of a pseudo-send, the first of which answers with the frame `f`. -/
theorem answered_frame_queues (ready : LinkReady s) (present : (s.cfg.port p).present = true)
    (room : (s.port p).tx.length + 5 ≤ (s.cfg.port p).txCap) (f : Frame) :
    ∃ t, andThen (answer s (.frame f)) (sendReturned p a) = .next t ∧ t.result = .flag true
      ∧ (t.port p).tx = (s.port p).tx ++ frameBytes (sentFrame a f) := by
  rw [answer_of_running ready.running, andThen_of_running (s := { s with result := .frame f }) ready.running,
    ← s.port_withResult (.frame f)]
  exact sendReturned_queues (ready.withResult (.frame f)) present (by rwa [State.port_withResult]) rfl

/-- Settles O55: the codec command answers with the frame, and the send replaces its address nibble only. -/
theorem pseudoSendsQueueFrames : Obligations.PseudoSendsQueueFrames := by
  intro p a m u s ready present room
  constructor
  · obtain ⟨t, runs, flag, tx⟩ := answered_frame_queues (a := a) ready present room (midiFrame zeroFrame m)
    refine ⟨t, headerByte a 0, runs, flag, headerByte_toNat a 0, ?_⟩
    rw [tx, sentFrame, midiFrame, typeNibble_headerByte]
    rfl
  · obtain ⟨t, runs, flag, tx⟩ := answered_frame_queues (a := a) ready present room (encodePulseFrame s.cfg zeroFrame u)
    refine ⟨t, headerByte a 1, pulseB1 0 u.fadeOut u.fadeIn u.port,
      pulseB2 (quantize s.cfg .power u.power) (quantize s.cfg .duration u.duration),
      (quantize s.cfg .power u.power).extractLsb' 0 8, _, runs, flag, headerByte_toNat a 1, ?_, ?_,
      low_toNat (quantize s.cfg .duration u.duration), ?_⟩
    · rw [pulseB1_toNat]; simp
    · rw [pulseB2_toNat, low_toNat]; omega
    · rw [tx, sentFrame, encodePulseFrame, typeNibble_pulseFrame]; rfl

end Sys2Proof.Machine
end

section
/-! Relays (42_link.md R141) and chains of devices (60_exceptions.md R158). -/

namespace Sys2Proof.Machine

theorem relays_none {next : Nib → Option Nib} {a : Nib} (stop : next a = none) (n : Nat) : relays next n a = 0 := by
  cases n with
  | zero => rfl
  | succ n => rw [relays, stop]

theorem relays_some {next : Nib → Option Nib} {a b : Nib} (goesOn : next a = some b) (n : Nat) :
    relays next (n + 1) a = 1 + relays next n b := by
  rw [relays, goesOn]

theorem relays_down {n : Nat} {a : Nib} (fuel : a.toNat ≤ n) : relays downAddress n a = a.toNat := by
  induction n generalizing a with
  | zero => rw [relays]; omega
  | succ n ih =>
    rcases Nat.eq_zero_or_pos a.toNat with zero | pos
    · rw [relays_none (downAddress_of_zero zero), zero]
    · obtain ⟨b, down, hb⟩ := downAddress_of_pos pos
      rw [relays_some down, ih (by omega)]; omega

theorem relays_up {n : Nat} {a : Nib} (fuel : 15 - a.toNat ≤ n) : relays upAddress n a = 15 - a.toNat := by
  induction n generalizing a with
  | zero => rw [relays]; omega
  | succ n ih =>
    have le : a.toNat ≤ 15 := Nat.le_of_lt_succ a.isLt
    rcases Nat.lt_or_eq_of_le le with below | max
    · obtain ⟨b, up, hb⟩ := upAddress_of_lt below
      rw [relays_some up, ih (by omega)]; omega
    · rw [relays_none (upAddress_of_max max), max]

/-- Settles O56: each relay lowers the address by one down to 0, or raises it by one up to 15. -/
theorem relaysAreBounded : Obligations.RelaysAreBounded := fun a n fuel =>
  have lt : a.toNat < 16 := a.isLt
  ⟨relays_down (by omega), relays_up (by omega)⟩

/-- The two ends of one wire: downward from a socket to the next device's plug, upward from a plug to the socket before. -/
theorem neighbour_of_wired {ds : List State} {i j : Fin ds.length} {p q : Port}
    (wire : p = .socket ∧ q = .plug ∧ j.val = i.val + 1 ∨ p = .plug ∧ q = .socket ∧ i.val = j.val + 1) :
    neighbour ds i p = some (j.val, ds[j]) ∧ oppositeEnd p = q := by
  rcases wire with ⟨rfl, rfl, next⟩ | ⟨rfl, rfl, next⟩
  · have found : ds[i.val + 1]? = some ds[j] := next ▸ List.getElem?_eq_getElem j.isLt
    exact ⟨by rw [neighbour, found]; exact congrArg (fun k => some (k, ds[j])) next.symm, rfl⟩
  · have found : ds[j.val]? = some ds[j] := List.getElem?_eq_getElem j.isLt
    exact ⟨by rw [next, neighbour, found]; rfl, rfl⟩

theorem mayBeLost_iff (s : State) (p : Port) : mayBeLost s p = true ↔ (s.cfg.port p).hasTe = true ∧ (s.port p).te = false := by
  simp [mayBeLost]

/-- A byte over the wire leaves the one end, and arrives behind what is at the other unless it is lost. -/
theorem wireByte_hands_over {a b : State} {p q : Port} {lost : Bool} {x : Byte} {xs : List Byte} (runningA : a.faults = [])
    (runningB : b.faults = []) (presentA : (a.cfg.port p).present = true) (presentB : (b.cfg.port q).present = true)
    (begunB : (b.port q).begun = true) (bytes : (a.port p).tx = x :: xs) (room : (b.port q).rx.length < (b.cfg.port q).rxCap) :
    wireByte p q lost a b = .next (a.setPort p { a.port p with tx := xs },
      if lost = true ∧ (a.cfg.port p).hasTe = true ∧ (a.port p).te = false then b
      else b.setPort q { b.port q with rx := (b.port q).rx ++ [x] }) := by
  unfold wireByte
  rw [bytes, lineTx_byte runningA presentA bytes]
  dsimp only
  rw [lineRx_room runningB presentB begunB room]
  simp only [← mayBeLost_iff, ← Bool.and_eq_true]
  split <;> rfl

/-- Settles O57: the device's next line is a LINE_TX at a wired position, which `chainStep` runs as `wireByte` with the
neighbour. -/
theorem chainWiresHandBytesOver : Obligations.ChainWiresHandBytesOver := by
  intro ds i j p q x xs gaps rest lost wire hprog runningI runningJ presentI presentJ begunJ bytes room
  obtain ⟨found, opposite⟩ := neighbour_of_wired wire
  have port (p : Port) : ({ ds[i] with program := rest } : State).port p = ds[i].port p := by cases p <;> rfl
  have hands := wireByte_hands_over (a := { ds[i] with program := rest }) (p := p) (lost := lost) runningI runningJ presentI
    presentJ begunJ (by rwa [port]) room
  unfold chainStep
  rw [hprog]
  dsimp only
  rw [found, opposite]
  dsimp only
  rw [hands, port]
  rfl

end Sys2Proof.Machine
end

section
/-! The parts of a quiet poll cycle, put together: what they leave unchanged, what they take from RX, and how the cycle ends
(42_link.md R125 to R133, 10_state.md R42, 70_reset_and_hazards.md R168). -/

namespace Sys2Proof.Machine

/-- From `s` to `t` a poll cycle of a ready link went on, taking bytes from RX of the positions `takes` only, at most one frame
from each. -/
structure CyclePart (takes : Port → Prop) (s t : State) : Prop where
  ready : CycleReady t
  cfg : t.cfg = s.cfg
  issuer : t.issuer = s.issuer
  program : t.program = s.program
  absent : ∀ p, (s.cfg.port p).present = false → t.port p = s.port p
  begun : ∀ p, (t.port p).begun = (s.port p).begun
  rx : ∀ p, (t.port p).rx = (s.port p).rx ∨ takes p ∧ (t.port p).rx = (s.port p).rx.drop 5
  tx : ∀ p, (s.port p).tx <+: (t.port p).tx

/-- No position. -/
abbrev takesNone : Port → Prop := fun _ => False

/-- Any position. -/
abbrev takesAny : Port → Prop := fun _ => True

variable {n : Nat} {s t u : State} {takes takes' : Port → Prop}

theorem CyclePart.refl (ready : CycleReady s) : CyclePart takes s s :=
  ⟨ready, rfl, rfl, rfl, fun _ _ => rfl, fun _ => rfl, fun _ => .inl rfl, fun _ => List.prefix_rfl⟩

theorem CyclePart.mono (h : CyclePart takes s t) (more : ∀ p, takes p → takes' p) : CyclePart takes' s t :=
  { h with rx := fun p => (h.rx p).imp_right fun ⟨took, dropped⟩ => ⟨more p took, dropped⟩ }

/-- Two parts that take from different positions are one part. -/
theorem CyclePart.trans (h : CyclePart takes s t) (k : CyclePart takes' t u) (disjoint : ∀ p, takes p → ¬takes' p) :
    CyclePart (fun p => takes p ∨ takes' p) s u where
  ready := k.ready
  cfg := k.cfg.trans h.cfg
  issuer := k.issuer.trans h.issuer
  program := k.program.trans h.program
  absent p hp := (k.absent p (by rwa [h.cfg])).trans (h.absent p hp)
  begun p := (k.begun p).trans (h.begun p)
  rx p := by
    rcases h.rx p with kept | ⟨took, dropped⟩
    · rw [← kept]; exact (k.rx p).imp_right fun ⟨took, dropped⟩ => ⟨.inr took, dropped⟩
    · exact .inr ⟨.inl took, ((k.rx p).resolve_right fun both => disjoint p took both.1).trans dropped⟩
  tx p := (h.tx p).trans (k.tx p)

/-- A part that touches one position is judged by that position. -/
theorem CyclePart.of_touches {p : Port} (ready : CycleReady s) (touches : Touches p s t)
    (absent : (s.cfg.port p).present = false → t.port p = s.port p)
    (rx : (t.port p).rx = (s.port p).rx ∨ takes p ∧ (t.port p).rx = (s.port p).rx.drop 5)
    (tx : (s.port p).tx <+: (t.port p).tx) : CyclePart takes s t := by
  have position (q : Port) : q = p ∨ t.port q = s.port q := (eq_or_ne q p).imp_right (touches.other q)
  refine ⟨ready.touch touches, touches.cfg, touches.issuer, touches.program, fun q hq => ?absent, fun q => ?begun, fun q => ?rx,
    fun q => ?tx⟩
  case absent => rcases position q with rfl | same; exacts [absent hq, same]
  case begun => rcases position q with rfl | same; exacts [touches.begun, congrArg PortRegs.begun same]
  case rx => rcases position q with rfl | same; exacts [rx, .inl (congrArg PortRegs.rx same)]
  case tx => rcases position q with rfl | same; exacts [tx, same ▸ List.prefix_rfl]

/-- A dispatch writes nothing that a part of the cycle speaks of. -/
theorem CyclePart.dispatched (h : CyclePart takes s t) (src : Port) (f : Frame) (ph : Phase) : CyclePart takes s
    { t.emit (.dispatch src f) with dispSrc := src, dispFrame := f, phase := ph, result := .unit } := by
  have port (q : Port) : ({ t.emit (.dispatch src f) with dispSrc := src, dispFrame := f, phase := ph, result := .unit } :
    State).port q = t.port q := by cases q <;> rfl
  obtain ⟨ready, cfg, issuer, program, absent, begun, rx, tx⟩ := h
  refine ⟨⟨⟨ready.link.running, ready.link.begun, fun q => ?_⟩, ready.gaps⟩, cfg, issuer, program, fun q => ?_,
    fun q => ?_, fun q => ?_, fun q => ?_⟩ <;> rw [port]
  exacts [ready.link.portsBegun q, absent q, begun q, rx q, tx q]

theorem polled_part (ready : CycleReady s) (p : Port) : CyclePart (· = p) s (polled p s) := by
  refine .of_touches ready (polled_touches p s) (fun absent => ?_) ?_ ?_
  · rw [polled, if_neg (by simp [absent])]
  · unfold polled
    split
    · exact (receiveStep_rx p s).imp_right fun dropped => ⟨rfl, dropped⟩
    · exact .inl rfl
  · rw [polled_port]

theorem forwarded_part (ready : CycleReady s) (p : Port) (next : Option Nib) (f : Frame) :
    CyclePart takesNone s (forwarded p next f s) := by
  refine .of_touches ready (forwarded_touches p next f s) (fun absent => ?_) (.inl ?_) ?_
  · rw [forwarded_absent absent]
  · rw [forwarded_port]
  · unfold forwarded
    split
    · split
      · exact (sent_port p _ f s).2
      · exact List.prefix_rfl
    · exact List.prefix_rfl

theorem AfterS2.part (after : AfterS2 s t) : CyclePart (· = .socket) s t := by
  have plugBegun : t.plug.begun = s.plug.begun := by rw [after.plug]
  have socketBegun : t.socket.begun = s.socket.begun := by rw [after.socket]
  have plugRx : t.plug.rx = s.plug.rx := by rw [after.plug]
  have socketTx : t.socket.tx = s.socket.tx := by rw [after.socket]
  exact {
    ready := after.ready
    cfg := after.cfg
    issuer := after.issuer
    program := after.program
    absent := fun | .plug => after.absentPlug | .socket => after.absentSocket
    begun := fun | .plug => plugBegun | .socket => socketBegun
    rx := fun | .plug => .inl plugRx | .socket => after.socketRx.imp_right fun dropped => ⟨rfl, dropped⟩
    tx := fun | .plug => after.plugTx | .socket => socketTx ▸ List.prefix_rfl }

/-- S1 stops in the plug's window, or hands on to S2 what it polled and forwarded (R126 to R128). -/
theorem cycleS1_cases (ready : CycleReady s) :
    (∃ f, cycleS1 (gap n) s = dispatch .plug f .waitPlug (polled .plug s))
      ∨ ∃ next f, cycleS1 (gap n) s = cycleS2 (gap n) (forwarded .socket next f (polled .plug s)) := by
  by_cases frame : s.cfg.plug.present = true ∧ ¬s.plug.rx.length < 5
  · obtain ⟨present, long⟩ := frame
    obtain ⟨f, rest, hrx⟩ := (frame_or_short s.plug.rx).resolve_left long
    cases down : downAddress (addressNibble f) with
    | some a => exact .inr ⟨some a, f, cycleS1_forwardsDown ready present hrx down⟩
    | none =>
      refine .inl ⟨f, ?_⟩
      rw [cycleS1_some ready present hrx, routePlugFrame, down, polled,
        if_pos (show (s.cfg.port .plug).present = true from present)]
  · have short : s.cfg.plug.present = true → s.plug.rx.length < 5 := fun present =>
      not_not.mp fun long => frame ⟨present, long⟩
    exact .inr ⟨none, default, cycleS1_frameless ready short⟩

/-- Where a cycle that has not stopped in the plug's window ends: in the socket's window, or in IDLE with the latch as before. -/
abbrev StopsPastPlug (s t : State) : Prop :=
  t.phase = .waitSocket ∨ t.phase = .idle ∧ t.dispSrc = s.dispSrc ∧ t.dispFrame = s.dispFrame

/-- LINK_LOOP of a ready link always ends: in the plug's window with no byte taken at the socket, or past it. -/
theorem cycleS1_after (ready : CycleReady s) :
    ∃ t, cycleS1 (gap n) s = .next t ∧ t.result = .unit
      ∧ (t.phase = .waitPlug ∧ CyclePart (· = .plug) s t ∨ StopsPastPlug s t ∧ CyclePart takesAny s t) := by
  have poll := polled_part ready .plug
  have pollTouches := polled_touches .plug s
  rcases cycleS1_cases (n := n) ready with ⟨f, e⟩ | ⟨next, f, e⟩ <;> rw [e]
  · exact ⟨_, rfl, rfl, .inl ⟨rfl, poll.dispatched .plug f .waitPlug⟩⟩
  · have send := forwarded_part poll.ready .socket next f
    have sendTouches := forwarded_touches .socket next f (polled .plug s)
    generalize forwarded .socket next f (polled .plug s) = v at *
    obtain ⟨t, ran, after⟩ := cycleS2_after (n := n) send.ready
    have src : v.dispSrc = s.dispSrc := sendTouches.dispSrc.trans pollTouches.dispSrc
    have frame : v.dispFrame = s.dispFrame := sendTouches.dispFrame.trans pollTouches.dispFrame
    have untilS2 : CyclePart (· = .plug) s v := (poll.trans send (by simp)).mono (by simp)
    refine ⟨t, ran, after.result, .inr ⟨?_, (untilS2.trans after.part (by rintro _ rfl; decide)).mono (by simp)⟩⟩
    exact after.stop.imp_right fun ⟨idle, src', frame'⟩ => ⟨idle, src'.trans src, frame'.trans frame⟩

/-! ### The whole cycle -/

theorem closeWindows_idle (idle : s.phase = .idle) (n : Nat) : closeWindows n s = .next s := by
  cases n with
  | zero => rfl
  | succ n => exact if_pos idle

theorem closeWindows_busy (busy : s.phase ≠ .idle) (n : Nat) :
    closeWindows (n + 1) s = andThen (execLinkHandlerDone s) (closeWindows n) := if_neg busy

/-- Past the plug's window one LINK_HANDLER_DONE is enough, and only S3 is left. -/
theorem closeWindows_pastPlug (ready : CycleReady s) (result : s.result = .unit)
    (past : s.phase = .waitSocket ∨ s.phase = .idle) (n : Nat) :
    ∃ t, closeWindows (n + 1) s = .next t ∧ t.phase = .idle ∧ t.result = .unit ∧ CyclePart takesNone s t := by
  rcases past with waiting | idle
  · obtain ⟨t, ran, after, idle, -, socketRx, -⟩ := cycleS3_after (n := s.gaps.length) ready
    have plugRx : t.plug.rx = s.plug.rx := by rw [after.plug]
    have part : CyclePart takesNone s t := { after.part with rx := fun | .plug => .inl plugRx | .socket => .inl socketRx }
    refine ⟨t, ?_, idle, after.result, part⟩
    rw [closeWindows_busy (by simp [waiting]), execLinkHandlerDone_socket ready waiting, ran,
      andThen_of_running after.ready.link.running, closeWindows_idle idle]
  · exact ⟨s, closeWindows_idle idle _, idle, result, .refl ready⟩

theorem cycle_after (ready : CycleReady s) (idle : s.phase = .idle) :
    ∃ t, cycle s = .next t ∧ t.phase = .idle ∧ t.result = .unit ∧ CyclePart takesAny s t := by
  obtain ⟨u, ran, result, ⟨waiting, loop⟩ | ⟨past, loop⟩⟩ := cycleS1_after (n := s.gaps.length) ready
  all_goals rw [cycle, execLinkLoop_ready ready idle, ran, andThen_of_running loop.ready.link.running]
  · obtain ⟨v, ran', after⟩ := cycleS2_after (n := u.gaps.length) loop.ready
    obtain ⟨t, closed, idle', result', last⟩ := closeWindows_pastPlug after.ready after.result (after.stop.imp_right And.left) 0
    refine ⟨t, ?_, idle', result', ?_⟩
    · rw [closeWindows_busy (by simp [waiting]), execLinkHandlerDone_plug loop.ready waiting, ran',
        andThen_of_running after.ready.link.running, closed]
    · exact ((loop.trans after.part (by rintro _ rfl; decide)).trans last (by simp)).mono (by simp)
  · obtain ⟨t, closed, idle', result', last⟩ := closeWindows_pastPlug loop.ready result (past.imp_right And.left) 1
    exact ⟨t, closed, idle', result', (loop.trans last (by simp)).mono (by simp)⟩

/-- Settles O51: the loop ends, and at most two windows are closed after it. -/
theorem pollCycleEndsIdle : Obligations.PollCycleEndsIdle := by
  intro s ready idle
  obtain ⟨t, ran, idle', result, whole⟩ := cycle_after ready idle
  exact ⟨t, ran, idle', whole.ready.link.running, result⟩

/-- Settles O52: the parts of the cycle take from different positions. -/
theorem oneFramePerPortPerCycle : Obligations.OneFramePerPortPerCycle := by
  intro s t p ready idle ran
  obtain ⟨t', ran', -, -, whole⟩ := cycle_after ready idle
  obtain rfl := Host.Outcome.next.inj (ran'.symm.trans ran)
  exact (whole.rx p).imp_right And.right

/-- LINK_LOOP and LINK_HANDLER_DONE of a ready link raise a fault of their checks (R123, R133), or run a part of the cycle, which
leaves the latch as it was where it ends in IDLE. -/
theorem cycleCommand_next {i : Instr} (ready : CycleReady s) (command : i = .linkLoop ∨ i = .linkHandlerDone)
    (h : exec i s = .next t) :
    (∃ r, t = s.raise r)
      ∨ CyclePart takesAny s t ∧ (t.phase = .idle → t.dispSrc = s.dispSrc ∧ t.dispFrame = s.dispFrame) := by
  have running := ready.link.running
  have pastPlug {t : State} (past : StopsPastPlug s t) (idle : t.phase = .idle) :
      t.dispSrc = s.dispSrc ∧ t.dispFrame = s.dispFrame := (past.resolve_left (by simp [idle])).2
  rcases command with rfl | rfl
  · by_cases idle : s.phase = .idle
    · obtain ⟨u, ran, -, part⟩ := cycleS1_after (n := s.gaps.length) ready
      obtain rfl := Host.Outcome.next.inj (ran.symm.trans ((exec_linkLoop_ready ready idle).symm.trans h))
      rcases part with ⟨waiting, loop⟩ | ⟨past, loop⟩
      · exact .inr ⟨loop.mono fun _ _ => trivial, by simp [waiting]⟩
      · exact .inr ⟨loop, pastPlug past⟩
    · rw [exec_linkLoop_running running, notReentrant_busy idle] at h
      exact .inl ⟨_, (Host.Outcome.next.inj h).symm⟩
  · cases phase : s.phase with
    | idle => exact .inl ⟨_, Host.Outcome.next.inj (h.symm.trans (exec_linkHandlerDone_idle running phase))⟩
    | three => exact .inl ⟨_, Host.Outcome.next.inj (h.symm.trans (exec_linkHandlerDone_three running phase))⟩
    | waitPlug =>
      obtain ⟨u, ran, after⟩ := cycleS2_after (n := s.gaps.length) ready
      obtain rfl := Host.Outcome.next.inj (ran.symm.trans ((execLinkHandlerDone_plug ready phase).symm.trans h))
      exact .inr ⟨after.part.mono fun _ _ => trivial, pastPlug after.stop⟩
    | waitSocket =>
      obtain ⟨u, ran, after, -⟩ := cycleS3_after (n := s.gaps.length) ready
      obtain rfl := Host.Outcome.next.inj (ran.symm.trans ((execLinkHandlerDone_socket ready phase).symm.trans h))
      exact .inr ⟨after.part.mono fun _ _ => trivial, pastPlug after.stop⟩

/-- Settles O53: a raised fault changes FAULTS alone, and a part of the cycle keeps all that R42 does not list. -/
theorem cycleFrame : Obligations.CycleFrame := by
  intro i s t ready command h
  rcases cycleCommand_next ready command h with ⟨r, rfl⟩ | ⟨part, latch⟩
  · exact ⟨rfl, rfl, rfl, rfl, rfl, fun p _ => s.raise_port r p, fun p => by simp, fun _ => ⟨rfl, rfl⟩⟩
  · refine ⟨part.ready.link.begun.trans ready.link.begun.symm, part.cfg, part.issuer, part.program,
      part.ready.gaps.trans ready.gaps.symm, part.absent, fun p => ⟨part.begun p, ?_, part.tx p⟩, latch⟩
    rcases part.rx p with kept | ⟨-, dropped⟩
    · rw [kept]
    · rw [dropped]; exact List.drop_suffix 5 _

end Sys2Proof.Machine
end

section
/-! Cycles that take no frame: the polls before S3, and S3 (42_link.md R132, R133; 41_port.md R108 to R111). -/

namespace Sys2Proof.Machine

theorem State.setPort_now (s : State) (p : Port) (r : PortRegs) :
    s.now.2.setPort p r = { s.setPort p r with time := s.now.2.time, draws := s.now.2.draws } := by
  rw [s.now_eq]
  cases p <;> rfl

/-- PORT_RECEIVE where the cycle polls position `p`. -/
def polledIf (b : Bool) (p : Port) (s : State) : State := if b then (receiveStep p s).state else s

theorem polledIf_touches (b : Bool) (p : Port) (s : State) : Touches p s (polledIf b p s) := by
  unfold polledIf
  split
  · exact receiveStep_touches p s
  · exact .refl

/-- What a poll of position `p` with less than a frame does from `s` to `u`: it starts the timer of a first partial frame, or
drops a late one, at the time it leaves. -/
structure FramelessPoll (b : Bool) (p : Port) (s u : State) (arms drops : Bool) : Prop where
  arms_iff : arms = true ↔ b = true ∧ (s.port p).rx ≠ [] ∧ (s.port p).toStamp = 0
  drops_iff : drops = true ↔ b = true ∧ (s.port p).rx ≠ [] ∧ (s.port p).toStamp ≠ 0
    ∧ s.cfg.partialTimeoutUs < elapsed s.cfg.clockWidth (s.port p).toStamp (u.time % 2 ^ s.cfg.clockWidth)
  eq : u = { s.setPort p { s.port p with
      rx := if drops then [] else (s.port p).rx
      toStamp := if arms then u.time % 2 ^ s.cfg.clockWidth else if drops then 0 else (s.port p).toStamp } with
    time := u.time, draws := u.draws }

theorem polledIf_frameless {b : Bool} {p : Port} {s : State} (short : b = true → (s.port p).rx.length < 5) :
    ∃ arms drops, FramelessPoll b p s (polledIf b p s) arms drops := by
  cases b with
  | false => exact ⟨false, false, by simp, by simp, by cases p <;> rfl⟩
  | true =>
    have partialFrame : (s.port p).rx.length ≤ 4 := Nat.le_of_lt_succ (short rfl)
    show ∃ arms drops, FramelessPoll true p s (receiveStep p s).state arms drops
    by_cases empty : (s.port p).rx = []
    · rw [receiveStep_idle empty]
      exact ⟨false, false, by simp [empty], by simp [empty], by cases p <;> rfl⟩
    have pending : 1 ≤ (s.port p).rx.length := List.length_pos_of_ne_nil empty
    by_cases unarmed : (s.port p).toStamp = 0
    · rw [receiveStep_arms pending partialFrame unarmed, State.setPort_now, State.now_word]
      exact ⟨true, false, by simp [empty, unarmed], by simp [unarmed], rfl⟩
    rcases Nat.lt_or_ge s.cfg.partialTimeoutUs (elapsed s.cfg.clockWidth (s.port p).toStamp s.now.1) with late | within
    · rw [receiveStep_drops pending partialFrame unarmed late, State.setPort_now]
      rw [State.now_word] at late
      exact ⟨false, true, by simp [unarmed], by simpa [Ran.ok, empty, unarmed] using late, rfl⟩
    · rw [receiveStep_waits pending partialFrame unarmed within]
      rw [State.now_word] at within
      exact ⟨false, false, by simp [unarmed], by simpa [Ran.ok, empty, unarmed] using within,
        s.now_eq.trans (by cases p <;> rfl)⟩

/-- What the polls of a cycle that takes no frame do from `s` to `w`: `R p` is the time at which position `p` is polled. -/
structure FramelessPolls (b : Port → Bool) (s w : State) (R : Port → Nat) (arms drops : Port → Bool) : Prop where
  ready : CycleReady w
  reads : s.time ≤ R .plug ∧ R .plug ≤ R .socket ∧ R .socket ≤ w.time
  held : s.held = true → w.time = s.time
  arms_iff : ∀ p, arms p = true ↔ b p = true ∧ (s.port p).rx ≠ [] ∧ (s.port p).toStamp = 0
  drops_iff : ∀ p, drops p = true ↔ b p = true ∧ (s.port p).rx ≠ [] ∧ (s.port p).toStamp ≠ 0
    ∧ s.cfg.partialTimeoutUs < elapsed s.cfg.clockWidth (s.port p).toStamp (R p % 2 ^ s.cfg.clockWidth)
  port : ∀ p, w.port p = { s.port p with
    rx := if drops p then [] else (s.port p).rx
    toStamp := if arms p then R p % 2 ^ s.cfg.clockWidth else if drops p then 0 else (s.port p).toStamp }
  rest : w = { s with plug := w.plug, socket := w.socket, time := w.time, draws := w.draws }

theorem polledIf_framelessPolls {s : State} (ready : CycleReady s) {b : Port → Bool}
    (short : ∀ p, b p = true → (s.port p).rx.length < 5) :
    ∃ R arms drops, FramelessPolls b s (polledIf (b .socket) .socket (polledIf (b .plug) .plug s)) R arms drops := by
  have plugTouches := polledIf_touches (b .plug) .plug s
  obtain ⟨plugArms, plugDrops, plugPoll⟩ := polledIf_frameless (short .plug)
  generalize polledIf (b .plug) .plug s = u at *
  have socketShort : b .socket = true → (u.port .socket).rx.length < 5 := by
    rw [plugTouches.other .socket (by decide)]; exact short .socket
  have socketTouches := polledIf_touches (b .socket) .socket u
  obtain ⟨socketArms, socketDrops, socketPoll⟩ := polledIf_frameless socketShort
  generalize polledIf (b .socket) .socket u = w at *
  obtain ⟨plugArms_iff, plugDrops_iff, plugEq⟩ := plugPoll
  obtain ⟨socketArms_iff, socketDrops_iff, socketEq⟩ := socketPoll
  rw [plugTouches.cfg, plugTouches.other .socket (by decide)] at socketDrops_iff
  rw [plugTouches.other .socket (by decide)] at socketArms_iff
  have wReady := (ready.touch plugTouches).touch socketTouches
  have reads := And.intro plugTouches.time.1 (And.intro socketTouches.time.1 (le_refl w.time))
  have held := (plugTouches.trans_time socketTouches).2
  generalize u.time = R1, u.draws = n1 at *
  subst plugEq
  generalize w.time = R2, w.draws = n2 at *
  subst socketEq
  exact ⟨fun | .plug => R1 | .socket => R2, fun | .plug => plugArms | .socket => socketArms,
    fun | .plug => plugDrops | .socket => socketDrops, wReady, reads, held,
    fun | .plug => plugArms_iff | .socket => socketArms_iff, fun | .plug => plugDrops_iff | .socket => socketDrops_iff,
    fun | .plug => rfl | .socket => rfl, rfl⟩

theorem polled_eq_polledIf (p : Port) (s : State) : polled p s = polledIf (s.cfg.port p).present p s := rfl

/-- Every way into S3 without a frame goes through the polls that way makes (R125, R133). -/
theorem exec_framelessCycle {i : Instr} {s : State} {b : Port → Bool} (ready : CycleReady s)
    (way : i = .linkLoop ∧ s.phase = .idle ∧ (∀ p, b p = (s.cfg.port p).present)
      ∨ i = .linkHandlerDone ∧ s.phase = .waitPlug ∧ b .plug = false ∧ b .socket = s.cfg.socket.present
      ∨ i = .linkHandlerDone ∧ s.phase = .waitSocket ∧ (∀ p, b p = false))
    (short : ∀ p, b p = true → (s.port p).rx.length < 5) :
    exec i s = cycleS3 (gap s.gaps.length) (polledIf (b .socket) .socket (polledIf (b .plug) .plug s)) := by
  rcases way with ⟨rfl, idle, all⟩ | ⟨rfl, waiting, noPlug, socket⟩ | ⟨rfl, waiting, none⟩
  · have touches := polled_touches .plug s
    have socketShort : (polled .plug s).cfg.socket.present = true → (polled .plug s).socket.rx.length < 5 := by
      rw [touches.cfg, ← State.port_socket, touches.other .socket (by decide)]
      exact fun present => short .socket ((all .socket).trans present)
    rw [exec_linkLoop_ready ready idle, cycleS1_frameless ready fun present => short .plug ((all .plug).trans present),
      cycleS2_frameless (ready.touch touches) socketShort, polled_eq_polledIf .socket, touches.cfg, all, all]
    rfl
  · rw [noPlug, socket]
    exact (execLinkHandlerDone_plug ready waiting).trans
      (cycleS2_frameless ready fun present => short .socket (socket.trans present))
  · rw [none, none]
    exact execLinkHandlerDone_socket ready waiting

/-- Settles O47: S3 (`PowersDown`) runs from the state the polls leave, in which the registers it looks at are those of `s`. -/
theorem cycleEndsWithPowerDown : Obligations.CycleEndsWithPowerDown := by
  intro i s polled ready way short
  obtain ⟨R, arms, drops, polls⟩ := polledIf_framelessPolls ready short
  rw [exec_framelessCycle ready way short]
  generalize polledIf (polled .socket) .socket (polledIf (polled .plug) .plug s) = w at *
  obtain ⟨wReady, ⟨plugPoll, socketPoll, pollsEnd⟩, pollsHeld, arms_iff, drops_iff, pollPort, pollRest⟩ := polls
  obtain ⟨t, T, off, ran, ⟨plugRead, socketRead, readsEnd⟩, held, off_iff, port, events, rest⟩ :=
    cycleS3_powersDown (n := s.gaps.length) wReady
  have cfg : w.cfg = s.cfg := by rw [pollRest]
  have heldW : w.held = s.held := by rw [pollRest]
  have eventsW : w.events = s.events := by rw [pollRest]
  refine ⟨t, R, T, arms, drops, off, ran, plugPoll, socketPoll, pollsEnd.trans plugRead, socketRead, readsEnd,
    fun h => (held (heldW.trans h)).trans (pollsHeld h), arms_iff, drops_iff, fun p => ?off, fun p => ?port, ?events, ?rest⟩
  case off => rw [off_iff p, pollPort p, cfg]
  case port => rw [port p, pollPort p, cfg]
  case events => rw [events, eventsW, cfg]
  case rest => rw [rest, pollRest]

end Sys2Proof.Machine
end

section
/-! Moves in the gaps of a poll cycle (20_memory.md R59, 70_reset_and_hazards.md R161; log entries 6 and 22). -/

namespace Sys2Proof.Machine

variable {s : State}

/-- What `gap` does where moves are listed for it. -/
theorem gap_listed (n : Nat) (ms : List Move) (gs : List (List Move)) (s : State) :
    gap (n + 1) { s with gaps := ms :: gs } = gapMoves (gap n) ms { s with gaps := gs } := rfl

theorem inCycle_of_next {o : Step} {u : State} (h : o = .next u) (running : u.faults = []) (begun : u.linkBegun = true)
    (k : State → Step) : inCycle o k = k u := by
  rw [h, inCycle_running running begun]

/-! ### The three ways a cycle command comes to its first port operation -/

/-- LINK_LOOP or LINK_HANDLER_DONE passes its checks in `s`, and the position of its first port operation is present. -/
def StartsCycle (i : Instr) (s : State) : Prop :=
  i = .linkLoop ∧ s.phase = .idle ∧ s.cfg.plug.present = true
    ∨ i = .linkHandlerDone ∧ (s.phase = .waitPlug ∧ s.cfg.socket.present = true
      ∨ s.phase = .waitSocket ∧ s.cfg.plug.present = true)

theorem StartsCycle.of_same {i : Instr} {t : State} (h : StartsCycle i s) (phase : t.phase = s.phase) (cfg : t.cfg = s.cfg) :
    StartsCycle i t := by
  unfold StartsCycle; rw [phase, cfg]; exact h

/-- What follows the first gap of a cycle command issued at PHASE `ph`, over the gaps `g` of the cycle. -/
def afterFirstGap (ph : Phase) (g : State → Step) (s : State) : Step :=
  match ph with
  | .idle => (portReceive .plug s).andThen fun r u =>
    match r with
    | none => cycleS2 g u
    | some f => routePlugFrame g f u
  | .waitPlug => (portReceive .socket s).andThen fun r u =>
    match r with
    | none => cycleS3 g u
    | some f => routeSocketFrame g f u
  | .waitSocket | .three => (portPowerDown .plug s).andThen fun _ u =>
    powerDownPresent g .socket u fun v => .next { v with phase := .idle, result := .unit }

/-- S2 is what LINK_HANDLER_DONE runs in the plug's window. -/
theorem cycleS2_present (present : s.cfg.socket.present = true) (g : State → Step) :
    cycleS2 g s = inCycle (g s) (afterFirstGap .waitPlug g) := by
  unfold cycleS2
  rw [if_pos present]
  rfl

theorem exec_startsCycle {i : Instr} {ph : Phase} (starts : StartsCycle i s) (running : s.faults = []) (begun : s.linkBegun = true)
    (phase : s.phase = ph) : exec i s = inCycle (gap s.gaps.length s) (afterFirstGap ph (gap s.gaps.length)) := by
  subst phase
  rcases starts with ⟨rfl, idle, present⟩ | ⟨rfl, ⟨waiting, present⟩ | ⟨waiting, present⟩⟩
  · rw [exec_linkLoop_running running, notReentrant_idle idle, whenBegun_of begun, cycleS1, if_pos present, idle]
    rfl
  · show handlerDoneWith _ s = _
    unfold handlerDoneWith
    rw [whenRunning_of_running running, waiting]
    exact (whenBegun_of begun _).trans (cycleS2_present present _)
  · show handlerDoneWith _ s = _
    unfold handlerDoneWith
    rw [whenRunning_of_running running, waiting]
    refine (whenBegun_of begun _).trans ?_
    unfold cycleS3 powerDownPresent
    rw [if_pos (show (s.cfg.port .plug).present = true from present)]
    rfl

/-- A cycle command whose first gap lists `m` before `ms`: `m` happens, and the rest of the gap and the cycle go on after it. -/
theorem exec_firstMove {i : Instr} {ph : Phase} (starts : StartsCycle i s) (ready : LinkReady s) (phase : s.phase = ph) (m : Move)
    (ms : List Move) (gs : List (List Move)) :
    exec i { s with gaps := (m :: ms) :: gs }
      = inCycle (gapMove (gap gs.length) m { s with gaps := gs }) fun u =>
          inCycle (gapMoves (gap gs.length) ms u) (afterFirstGap ph (gap (gs.length + 1))) := by
  rw [exec_startsCycle (s := { s with gaps := (m :: ms) :: gs }) starts ready.running ready.begun phase]
  exact (congrArg (inCycle · _) (gap_listed gs.length (m :: ms) gs s)).trans (inCycle_assoc _ _ _)

/-- A cycle command in a state with as many gaps as the one it was listed in, the first of them `ms`. -/
theorem exec_restOfGap {i : Instr} {u : State} {ph : Phase} (starts : StartsCycle i u) (running : u.faults = [])
    (begun : u.linkBegun = true) (phase : u.phase = ph) (ms : List Move) : exec i { u with gaps := ms :: u.gaps }
      = inCycle (gapMoves (gap u.gaps.length) ms u) (afterFirstGap ph (gap (u.gaps.length + 1))) :=
  (exec_startsCycle (s := { u with gaps := ms :: u.gaps }) starts running begun phase).trans
    (congrArg (inCycle · _) (gap_listed u.gaps.length ms u.gaps u))

/-! ### A move that runs no cycle -/

/-- In a gap it acts as on a line of its own. -/
theorem gapMove_eq_step {m : Move}
    (noCycle : ∀ issuer w, m = .word issuer w → decodeWord w ≠ .linkLoop ∧ decodeWord w ≠ .linkHandlerDone)
    (g : State → Step) (gs : List (List Move)) (s : State) (reset : m ≠ .reset) :
    gapMove g m { s with gaps := gs } = step { s with program := ⟨m, gs⟩ :: s.program } := by
  cases m with
  | word issuer w => exact gapCommand_eq_exec (noCycle issuer w rfl).1 (noCycle issuer w rfl).2 g _
  | reset => exact absurd rfl reset
  | _ => rfl

/-- It leaves the gaps, PHASE and LINK_BEGUN as they are. -/
theorem gapMove_keeps {m : Move}
    (noCycle : ∀ issuer w, m = .word issuer w → decodeWord w ≠ .linkLoop ∧ decodeWord w ≠ .linkHandlerDone)
    (reset : m ≠ .reset) {g : State → Step} {s u : State} (h : gapMove g m s = .next u) : Changes False False s u := by
  cases m with
  | word issuer w =>
    obtain ⟨loop, done⟩ := noCycle issuer w rfl
    have ran : exec (decodeWord w) { s with issuer := issuer } = .next u := (gapCommand_eq_exec loop done g _).symm.trans h
    exact .head (.issuer s issuer) (command_changes loop done ran)
  | lineRx p b => exact lineRx_changes h
  | lineTx p => exact lineTx_changes h
  | setClock n => exact setClock_changes h
  | reset => exact absurd rfl reset

/-- The first clause: after such a move the rest of the gap and the cycle go on, unless it raised a fault or was a reset. -/
theorem exec_plainMove {i : Instr} {u : State} {m : Move} (starts : StartsCycle i s) (ready : LinkReady s)
    (noCycle : ∀ issuer w, m = .word issuer w → decodeWord w ≠ .linkLoop ∧ decodeWord w ≠ .linkHandlerDone)
    (ms : List Move) (gs : List (List Move)) (h : step { s with program := ⟨m, gs⟩ :: s.program } = .next u) :
    exec i { s with gaps := (m :: ms) :: gs }
      = if u.faults = [] ∧ m ≠ .reset then exec i { u with gaps := ms :: u.gaps } else .next u := by
  rw [exec_firstMove starts ready rfl]
  by_cases reset : m = .reset
  · subst reset
    obtain rfl := Host.Outcome.next.inj h
    rw [if_neg (by simp)]
    exact inCycle_ended (s := State.restart _) (.inr rfl) _
  have ran : gapMove (gap gs.length) m { s with gaps := gs } = .next u := (gapMove_eq_step noCycle _ gs s reset).trans h
  have changes := gapMove_keeps noCycle reset ran
  obtain ⟨gaps, phase⟩ := changes.outside_cycle
  have begun : u.linkBegun = true := changes.linkBegun_stays ready.begun
  rw [ran]
  by_cases running : u.faults = []
  · rw [if_pos ⟨running, reset⟩, inCycle_running running begun,
      exec_restOfGap (starts.of_same phase changes.cfg) running begun phase, gaps]
  · rw [if_neg fun h => running h.1, inCycle_ended (.inl running)]

/-! ### A cycle nested in the first gap of another -/

theorem decodeWord_loop {c : Command} (op : c.op = 0x21) : decodeWord (.command c) = .linkLoop := by
  obtain ⟨_, args⟩ := c
  subst op
  rfl

theorem LinkReady.withGaps (ready : LinkReady s) (issuer : Issuer) (gs : List (List Move)) :
    LinkReady { s with issuer := issuer, gaps := gs } :=
  ⟨ready.running, ready.begun, fun | .plug => ready.portsBegun .plug | .socket => ready.portsBegun .socket⟩

/-- The second clause: the nested cycle leaves a ready link, and at PHASE IDLE the interrupted cycle goes on from there. -/
theorem exec_nestedLoop {issuer : Issuer} {c : Command} {u : State} (ready : LinkReady s) (idle : s.phase = .idle)
    (present : s.cfg.plug.present = true) (op : c.op = 0x21)
    (nested : exec .linkLoop { s with issuer := issuer, gaps := [] } = .next u) (ended : u.phase = .idle) (ms : List Move) :
    exec .linkLoop { s with gaps := [.word issuer (.command c) :: ms] } = exec .linkLoop { u with gaps := [ms] } := by
  have nestedReady : CycleReady { s with issuer := issuer, gaps := [] } := ⟨ready.withGaps issuer [], rfl⟩
  obtain ⟨u', ran, -, part⟩ := cycleS1_after (n := 0) nestedReady
  obtain rfl := Host.Outcome.next.inj (ran.symm.trans ((exec_linkLoop_ready nestedReady idle).symm.trans nested))
  obtain ⟨after, cfg⟩ : CycleReady u' ∧ u'.cfg = s.cfg := by
    rcases part with ⟨-, part⟩ | ⟨-, part⟩ <;> exact ⟨part.ready, part.cfg⟩
  have asMove : gapMove (gap 0) (.word issuer (.command c)) { s with gaps := [] } = .next u' := by
    rw [gapMove, decodeWord_loop op]; exact nested
  have gaps : { u' with gaps := [ms] } = { u' with gaps := ms :: u'.gaps } := by rw [after.gaps]
  rw [exec_firstMove (.inl ⟨rfl, idle, present⟩) ready idle, gaps,
    exec_restOfGap (.inl ⟨rfl, ended, cfg ▸ present⟩) after.link.running after.link.begun ended, after.gaps]
  exact inCycle_of_next asMove after.link.running after.link.begun _

/-! ### A byte between the two receives -/

/-- With nothing in the first gap and no byte at the plug LINK_LOOP comes to the gap before S2's receive. -/
theorem exec_linkLoop_emptyPlug (ready : LinkReady s) (idle : s.phase = .idle) (plug : s.cfg.plug.present = true)
    (socket : s.cfg.socket.present = true) (empty : s.plug.rx = []) (ms : List Move) (gs : List (List Move)) :
    exec .linkLoop { s with gaps := [] :: ms :: gs }
      = inCycle (gapMoves (gap (gs.length + 1)) ms { s with gaps := gs }) (afterFirstGap .waitPlug (gap (gs.length + 2))) := by
  have received : portReceive .plug { s with gaps := ms :: gs } = .ok none { s with gaps := ms :: gs } :=
    (portOp_of_link (p := .plug) (ready.withGaps s.issuer (ms :: gs)) plug _).trans (receiveStep_idle (p := .plug) empty)
  rw [exec_startsCycle (s := { s with gaps := [] :: ms :: gs }) (.inl ⟨rfl, idle, plug⟩) ready.running ready.begun idle]
  refine (inCycle_of_next (u := { s with gaps := ms :: gs }) rfl ready.running ready.begun _).trans ?_
  rw [afterFirstGap, received]
  exact cycleS2_present (s := { s with gaps := ms :: gs }) socket _

/-- The third clause: S2's gap ends in the state the byte has arrived in, whether it came in that gap or before the cycle. -/
theorem exec_byteBeforeS2 (ready : LinkReady s) (idle : s.phase = .idle) (plug : s.cfg.plug.present = true)
    (socket : s.cfg.socket.present = true) (empty : s.plug.rx = []) (room : s.socket.rx.length < s.cfg.socket.rxCap) (b : Byte)
    (gs : List (List Move)) :
    exec .linkLoop { s with gaps := [] :: [.lineRx .socket b] :: gs }
      = exec .linkLoop { s with socket := { s.socket with rx := s.socket.rx ++ [b] }, gaps := [] :: [] :: gs } := by
  have ready' : LinkReady { s with socket := { s.socket with rx := s.socket.rx ++ [b] } } :=
    ⟨ready.running, ready.begun, fun | .plug => ready.portsBegun .plug | .socket => ready.portsBegun .socket⟩
  have arrives (g : State → Step) : gapMoves g [.lineRx .socket b] { s with gaps := gs }
      = .next { s with socket := { s.socket with rx := s.socket.rx ++ [b] }, gaps := gs } :=
    inCycle_of_next (lineRx_room (p := .socket) (s := { s with gaps := gs }) ready.running socket
      (ready.portsBegun .socket socket) room) ready.running ready.begun _
  rw [exec_linkLoop_emptyPlug ready idle plug socket empty, exec_linkLoop_emptyPlug ready' idle plug socket empty, arrives]
  rfl

/-- Settles O54: a lemma for each clause. -/
theorem gapMovesFallBetweenPortOperations : Obligations.GapMovesFallBetweenPortOperations := by
  intro i s m ms gs ready starts
  refine ⟨fun u noCycle h => exec_plainMove starts ready noCycle ms gs h, fun issuer c u hm op loop nested ended => ?_,
    fun b loop socket empty room => ?_⟩
  all_goals
    obtain ⟨-, idle, plug⟩ := starts.resolve_right (by rintro ⟨done, -⟩; cases loop.symm.trans done)
  · subst hm; subst loop
    exact exec_nestedLoop ready idle plug op nested ended ms
  · subst loop
    exact exec_byteBeforeS2 ready idle plug socket empty room b gs

end Sys2Proof.Machine
end
